-- ==== Sys2Proof/Word.lean ====
section
/-! DEFINITION. Word.lean: the three data widths of the block and the sparse byte memory type.

`00_scope.md` R7, R10: guest data is 8 bits, guest addresses, `MLI`, block indexes and block counts are 16 bits,
all unsigned. A memory is plain data: a list of (key, byte) pairs in the canonical form `Memory.wf` of
`Machine/Ops.lean`. -/

namespace Sys2Proof

/-- Guest data, command, unit, result and track bytes: "raw 8-bit values" (R7, R12). -/
abbrev Byte := BitVec 8

/-- Guest addresses, `MLI`, block indexes, block counts and snapshots: 16 bits, unsigned (R7, R10). -/
abbrev Word := BitVec 16

/-- A sparse byte memory: key and byte, keys strictly rising, no entry equal to what an unlisted key reads as. One type
serves guest memory (key = guest address), a nibble track (key = position) and the store's image
(key = `512 * block + k`). -/
abbrev Memory := List Host.Cell

end Sys2Proof
end

