-- ==== Sys2Proof/Syntax.lean ====
section
/-! DEFINITION. Syntax.lean: the operations of the block (one constructor of `Instr` per row of `spec/opcode_table.json`),
and the encoded forms they arrive in.

The block "implements no instruction set. What stands in the place of an ISA is a protocol" (`00_scope.md` R2). An
instruction is one transaction on a port (formats `IO`, `NIB`, `HOST`), or one command of the call block that a trigger
read fetches from guest memory (format `CMD`). -/

namespace Sys2Proof

/-- The fields a trigger read fetches from guest memory (R84, R85, R86): the command byte is what format `CMD` encodes,
the rest are its operands. -/
structure CallBlock where
  cmd  : Byte
  unit : Byte
  addr : Word
  blk  : Word
deriving DecidableEq, Repr

/-- One transaction of the outside world, as the words of `30_encoding.md` R80 and R101 write it. -/
inductive Txn where
  /-- Port P1: the 17-bit word `w110000001sssoooo`, "followed by `dddddddd` for a write" (R80). -/
  | io (word : BitVec 17) (data : Option Byte)
  /-- Port P4: the 18-bit word `pp qqqqqqqq dddddddd` at the port instance of `drive` (R101). `qHigh` is the quarter-track's
  bits above those 8, 0 for `NTRACKS <= 64`: "a model with more tracks widens it" (R101; log entry 18). -/
  | nib (drive : Nat) (word : BitVec 18) (qHigh : Nat)
  /-- Port P5: the 2-bit word, `LOAD` "followed by the 16-bit snapshot" (R101). -/
  | host (word : BitVec 2) (snapshot : Option Word)
deriving DecidableEq, Repr

/-- What the decoder is given: a transaction of a port, or a call block that a trigger read has fetched. -/
inductive Packet where
  | port (t : Txn)
  | cmd (c : CallBlock)
deriving DecidableEq, Repr

/-- The operations. `slot` is `A[6:4]` of the access; `v` the write data; `x` the don't-care bits of an unsupported
command byte; `unit`, `addr`, `blk` the fetched operands of a command; `drive` the P4 port instance, `q` the
quarter-track, "an unsigned integer" (R165), `pad` (and `q` of the power operations) bits of the word that are ignored. -/
inductive Instr where
  -- format IO, reads
  | rd0CmdDirect (slot : BitVec 3)
  | rd1CapLo (slot : BitVec 3)
  | rd2CapHi (slot : BitVec 3)
  | rd3CmdIndirect (slot : BitVec 3)
  | rd4Unmapped (slot : BitVec 3)
  | rd5Unmapped (slot : BitVec 3)
  | rd6Unmapped (slot : BitVec 3)
  | rd7Unmapped (slot : BitVec 3)
  | rd8Unmapped (slot : BitVec 3)
  | rd9Unmapped (slot : BitVec 3)
  | rd10Unmapped (slot : BitVec 3)
  | rd11Unmapped (slot : BitVec 3)
  | rd12Unmapped (slot : BitVec 3)
  | rd13Unmapped (slot : BitVec 3)
  | rd14Unmapped (slot : BitVec 3)
  | rd15Unmapped (slot : BitVec 3)
  -- format IO, writes
  | wr0Ignored (slot : BitVec 3) (v : Byte)
  | wr1Ignored (slot : BitVec 3) (v : Byte)
  | wr2Ignored (slot : BitVec 3) (v : Byte)
  | wr3Ignored (slot : BitVec 3) (v : Byte)
  | wr4MliLo (slot : BitVec 3) (v : Byte)
  | wr5MliHi (slot : BitVec 3) (v : Byte)
  | wr6Ignored (slot : BitVec 3) (v : Byte)
  | wr7Ignored (slot : BitVec 3) (v : Byte)
  | wr8Ignored (slot : BitVec 3) (v : Byte)
  | wr9Ignored (slot : BitVec 3) (v : Byte)
  | wr10Ignored (slot : BitVec 3) (v : Byte)
  | wr11Ignored (slot : BitVec 3) (v : Byte)
  | wr12Ignored (slot : BitVec 3) (v : Byte)
  | wr13Ignored (slot : BitVec 3) (v : Byte)
  | wr14Ignored (slot : BitVec 3) (v : Byte)
  | wr15Ignored (slot : BitVec 3) (v : Byte)
  -- format CMD
  | status (unit : Byte) (addr blk : Word)
  | read (unit : Byte) (addr blk : Word)
  | write (unit : Byte) (addr blk : Word)
  | format (unit : Byte) (addr blk : Word)
  | unsupported04To07 (x : BitVec 2) (unit : Byte) (addr blk : Word)
  | unsupported08To0F (x : BitVec 3) (unit : Byte) (addr blk : Word)
  | unsupported10To1F (x : BitVec 4) (unit : Byte) (addr blk : Word)
  | unsupported20To3F (x : BitVec 5) (unit : Byte) (addr blk : Word)
  | unsupported40To7F (x : BitVec 6) (unit : Byte) (addr blk : Word)
  | unsupported80ToFF (x : BitVec 7) (unit : Byte) (addr blk : Word)
  -- format NIB
  | nread (drive q : Nat) (pad : Byte)
  | nwrite (drive q : Nat) (v : Byte)
  | pwron (drive q : Nat) (pad : Byte)
  | pwroff (drive q : Nat) (pad : Byte)
  -- format HOST
  | reset
  | save
  | load (snapshot : Word)
deriving DecidableEq, Repr

end Sys2Proof
end

