-- ==== Sys2Proof/Decode.lean ====
section
/-! DEFINITION. Decode.lean: from the encoded forms of `30_encoding.md` to operations, and back.

The decoder is total and rejects by name. "Decoding uses nothing but `w` and `o`: the data byte of a write never selects
anything" (R81). -/

namespace Sys2Proof

/-- Why a packet encodes no operation of the block. -/
inductive DecodeError where
  /-- `A[15:7]` is not `0b110000001`: the guest's access is at an address `a` in no card's I/O page, a read or a write of
  `data` (R80, R81, R117). No operation of the block; the step gives it to guest memory. -/
  | notIoPage (a : Word) (data : Option Byte)
  /-- A read transaction with write data: no encoding of R80 (malformed input, no effect given). -/
  | readWithData
  /-- A write transaction without write data: no encoding of R80 (malformed input, no effect given). -/
  | writeWithoutData
  /-- The `HOST` word 3, "unused" (R101). -/
  | hostOpUnused
  /-- A `LOAD` word without its snapshot: no encoding of R101. -/
  | loadWithoutSnapshot
  /-- A `RESET` or `SAVE` word with a snapshot: no encoding of R101. -/
  | hostOpWithSnapshot
deriving DecidableEq, Repr

/-- `A[15:7]` of every I/O page: `A[15:8] = 0xC0` and `A[7] = 1` (R80). -/
def ioPageBits : BitVec 9 := 0b110000001

/-! ### Decoding -/

/-- The read handlers by offset, the absent ones included (R32, R81, R94). -/
def decodeRead (slot : BitVec 3) (o : BitVec 4) : Instr :=
  match o.toNat with
  | 0 => .rd0CmdDirect slot
  | 1 => .rd1CapLo slot
  | 2 => .rd2CapHi slot
  | 3 => .rd3CmdIndirect slot
  | 4 => .rd4Unmapped slot
  | 5 => .rd5Unmapped slot
  | 6 => .rd6Unmapped slot
  | 7 => .rd7Unmapped slot
  | 8 => .rd8Unmapped slot
  | 9 => .rd9Unmapped slot
  | 10 => .rd10Unmapped slot
  | 11 => .rd11Unmapped slot
  | 12 => .rd12Unmapped slot
  | 13 => .rd13Unmapped slot
  | 14 => .rd14Unmapped slot
  | _ => .rd15Unmapped slot

/-- The write handlers by offset, the absent ones included (R32, R81, R94). -/
def decodeWrite (slot : BitVec 3) (o : BitVec 4) (v : Byte) : Instr :=
  match o.toNat with
  | 0 => .wr0Ignored slot v
  | 1 => .wr1Ignored slot v
  | 2 => .wr2Ignored slot v
  | 3 => .wr3Ignored slot v
  | 4 => .wr4MliLo slot v
  | 5 => .wr5MliHi slot v
  | 6 => .wr6Ignored slot v
  | 7 => .wr7Ignored slot v
  | 8 => .wr8Ignored slot v
  | 9 => .wr9Ignored slot v
  | 10 => .wr10Ignored slot v
  | 11 => .wr11Ignored slot v
  | 12 => .wr12Ignored slot v
  | 13 => .wr13Ignored slot v
  | 14 => .wr14Ignored slot v
  | _ => .wr15Ignored slot v

/-- Format `IO` (R80, R81): bit 16 is `w`, bits 15:7 the fixed page, bits 6:4 the slot, bits 3:0 the offset. -/
def decodeIo (word : BitVec 17) (data : Option Byte) : Except DecodeError Instr :=
  match (word.extractLsb' 16 1).toNat, data with
  | 0, none =>
    if word.extractLsb' 7 9 = ioPageBits then .ok (decodeRead (word.extractLsb' 4 3) (word.extractLsb' 0 4))
    else .error (.notIoPage (word.extractLsb' 0 16) none)
  | 0, some _ => .error .readWithData
  | _, some v =>
    if word.extractLsb' 7 9 = ioPageBits then .ok (decodeWrite (word.extractLsb' 4 3) (word.extractLsb' 0 4) v)
    else .error (.notIoPage (word.extractLsb' 0 16) (some v))
  | _, none => .error .writeWithoutData

/-- Format `CMD` (R87): "the whole byte is compared". The rows for `0x04 .. 0xFF` are matched by their fixed high bits
(R94, R95). -/
def decodeCommand (c : CallBlock) : Instr :=
  if c.cmd = 0x00 then .status c.unit c.addr c.blk
  else if c.cmd = 0x01 then .read c.unit c.addr c.blk
  else if c.cmd = 0x02 then .write c.unit c.addr c.blk
  else if c.cmd = 0x03 then .format c.unit c.addr c.blk
  else if c.cmd.extractLsb' 2 6 = 1 then .unsupported04To07 (c.cmd.extractLsb' 0 2) c.unit c.addr c.blk
  else if c.cmd.extractLsb' 3 5 = 1 then .unsupported08To0F (c.cmd.extractLsb' 0 3) c.unit c.addr c.blk
  else if c.cmd.extractLsb' 4 4 = 1 then .unsupported10To1F (c.cmd.extractLsb' 0 4) c.unit c.addr c.blk
  else if c.cmd.extractLsb' 5 3 = 1 then .unsupported20To3F (c.cmd.extractLsb' 0 5) c.unit c.addr c.blk
  else if c.cmd.extractLsb' 6 2 = 1 then .unsupported40To7F (c.cmd.extractLsb' 0 6) c.unit c.addr c.blk
  else .unsupported80ToFF (c.cmd.extractLsb' 0 7) c.unit c.addr c.blk

/-- The quarter-track of a `NIB` transaction: bits 15:8 of the word, below `qHigh` (R101). -/
def nibQuarterTrack (word : BitVec 18) (qHigh : Nat) : Nat := qHigh * 256 + (word.extractLsb' 8 8).toNat

/-- Format `NIB` (R101): bits 17:16 the operation, bits 15:8 the quarter-track, bits 7:0 the byte of `NWRITE`. -/
def decodeNib (drive : Nat) (word : BitVec 18) (qHigh : Nat) : Instr :=
  match (word.extractLsb' 16 2).toNat with
  | 0 => .nread drive (nibQuarterTrack word qHigh) (word.extractLsb' 0 8)
  | 1 => .nwrite drive (nibQuarterTrack word qHigh) (word.extractLsb' 0 8)
  | 2 => .pwron drive (nibQuarterTrack word qHigh) (word.extractLsb' 0 8)
  | _ => .pwroff drive (nibQuarterTrack word qHigh) (word.extractLsb' 0 8)

/-- Format `HOST` (R101): 0 `RESET`, 1 `SAVE`, 2 `LOAD`, 3 unused. -/
def decodeHost (word : BitVec 2) (snapshot : Option Word) : Except DecodeError Instr :=
  match word.toNat, snapshot with
  | 0, none => .ok .reset
  | 1, none => .ok .save
  | 2, some m => .ok (.load m)
  | 2, none => .error .loadWithoutSnapshot
  | 0, some _ => .error .hostOpWithSnapshot
  | 1, some _ => .error .hostOpWithSnapshot
  | _, _ => .error .hostOpUnused

/-- The decoder, port by port. -/
def decode : Packet → Except DecodeError Instr
  | .port (.io word data) => decodeIo word data
  | .port (.nib drive word qHigh) => .ok (decodeNib drive word qHigh)
  | .port (.host word snapshot) => decodeHost word snapshot
  | .cmd c => .ok (decodeCommand c)

/-! ### Encoding -/

/-- R80: `w :: 110000001 :: SLOT :: offset`, 17 bits, most significant first. -/
def ioWord (w : BitVec 1) (slot : BitVec 3) (o : BitVec 4) : BitVec 17 := w ++ ioPageBits ++ slot ++ o

/-- A read at an offset: no data follows the word. -/
def encodeRead (slot : BitVec 3) (o : BitVec 4) : Packet := .port (.io (ioWord 0 slot o) none)

/-- A write at an offset: the data byte follows the word. -/
def encodeWrite (slot : BitVec 3) (o : BitVec 4) (v : Byte) : Packet := .port (.io (ioWord 1 slot o) (some v))

/-- R101: `pp :: q :: d`, 18 bits. -/
def nibWord (pp : BitVec 2) (q d : Byte) : BitVec 18 := pp ++ q ++ d

/-- A codec operation: the low 8 bits of the quarter-track in the word, the rest above it. -/
def encodeNib (drive : Nat) (pp : BitVec 2) (q : Nat) (d : Byte) : Packet :=
  .port (.nib drive (nibWord pp (BitVec.ofNat 8 q) d) (q / 256))

/-- The words of an operation, from the same tables. -/
def encode : Instr → Packet
  | .rd0CmdDirect slot => encodeRead slot 0
  | .rd1CapLo slot => encodeRead slot 1
  | .rd2CapHi slot => encodeRead slot 2
  | .rd3CmdIndirect slot => encodeRead slot 3
  | .rd4Unmapped slot => encodeRead slot 4
  | .rd5Unmapped slot => encodeRead slot 5
  | .rd6Unmapped slot => encodeRead slot 6
  | .rd7Unmapped slot => encodeRead slot 7
  | .rd8Unmapped slot => encodeRead slot 8
  | .rd9Unmapped slot => encodeRead slot 9
  | .rd10Unmapped slot => encodeRead slot 10
  | .rd11Unmapped slot => encodeRead slot 11
  | .rd12Unmapped slot => encodeRead slot 12
  | .rd13Unmapped slot => encodeRead slot 13
  | .rd14Unmapped slot => encodeRead slot 14
  | .rd15Unmapped slot => encodeRead slot 15
  | .wr0Ignored slot v => encodeWrite slot 0 v
  | .wr1Ignored slot v => encodeWrite slot 1 v
  | .wr2Ignored slot v => encodeWrite slot 2 v
  | .wr3Ignored slot v => encodeWrite slot 3 v
  | .wr4MliLo slot v => encodeWrite slot 4 v
  | .wr5MliHi slot v => encodeWrite slot 5 v
  | .wr6Ignored slot v => encodeWrite slot 6 v
  | .wr7Ignored slot v => encodeWrite slot 7 v
  | .wr8Ignored slot v => encodeWrite slot 8 v
  | .wr9Ignored slot v => encodeWrite slot 9 v
  | .wr10Ignored slot v => encodeWrite slot 10 v
  | .wr11Ignored slot v => encodeWrite slot 11 v
  | .wr12Ignored slot v => encodeWrite slot 12 v
  | .wr13Ignored slot v => encodeWrite slot 13 v
  | .wr14Ignored slot v => encodeWrite slot 14 v
  | .wr15Ignored slot v => encodeWrite slot 15 v
  | .status unit addr blk => .cmd ⟨0, unit, addr, blk⟩
  | .read unit addr blk => .cmd ⟨1, unit, addr, blk⟩
  | .write unit addr blk => .cmd ⟨2, unit, addr, blk⟩
  | .format unit addr blk => .cmd ⟨3, unit, addr, blk⟩
  | .unsupported04To07 x unit addr blk => .cmd ⟨(1 : BitVec 6) ++ x, unit, addr, blk⟩
  | .unsupported08To0F x unit addr blk => .cmd ⟨(1 : BitVec 5) ++ x, unit, addr, blk⟩
  | .unsupported10To1F x unit addr blk => .cmd ⟨(1 : BitVec 4) ++ x, unit, addr, blk⟩
  | .unsupported20To3F x unit addr blk => .cmd ⟨(1 : BitVec 3) ++ x, unit, addr, blk⟩
  | .unsupported40To7F x unit addr blk => .cmd ⟨(1 : BitVec 2) ++ x, unit, addr, blk⟩
  | .unsupported80ToFF x unit addr blk => .cmd ⟨(1 : BitVec 1) ++ x, unit, addr, blk⟩
  | .nread drive q pad => encodeNib drive 0 q pad
  | .nwrite drive q v => encodeNib drive 1 q v
  | .pwron drive q pad => encodeNib drive 2 q pad
  | .pwroff drive q pad => encodeNib drive 3 q pad
  | .reset => .port (.host 0 none)
  | .save => .port (.host 1 none)
  | .load m => .port (.host 2 (some m))

/-! ### The host's numbering

`spec/opcode_table.json` numbers a row's bits from 0 without saying which port carries the word; the port is not part of
the word (R50). Log entry 12 says how the port is told from the width, and for which rows it cannot be. -/

/-- The packet that a word of `nbits` bits, numbered as the opcode table numbers them, stands for: 2 bits `HOST`, up to 8
bits `CMD` with operands of zeros, 17 bits `IO`, 18 bits `NIB` at drive 0; 24 bits (both rounded up to bytes) `IO` where
bits 23:17 are zero and bits 15:7 are the I/O page, else `NIB`. Data bytes and snapshots that follow the word are zero. -/
def tablePacket (nbits w : Nat) : Option Packet :=
  let io : Packet := .port (.io (BitVec.ofNat 17 w) (if (BitVec.ofNat 17 w).extractLsb' 16 1 = 0 then none else some 0))
  let nib : Packet := .port (.nib 0 (BitVec.ofNat 18 w) 0)
  if nbits = 2 then
    .some (.port (.host (BitVec.ofNat 2 w) (if BitVec.ofNat 2 w = 2 then some 0 else none)))
  else if nbits = 8 then .some (.cmd ⟨BitVec.ofNat 8 w, 0, 0, 0⟩)
  else if nbits = 17 then .some io
  else if nbits = 18 then .some nib
  else if nbits = 24 then
    if w / 131072 = 0 ∧ (BitVec.ofNat 17 w).extractLsb' 7 9 = ioPageBits then .some io
    else if w / 262144 = 0 then .some nib else none
  else none

/-- The operation this decoder reads from a word of the opcode table. -/
def decodeTableWord (nbits w : Nat) : Option Instr :=
  match tablePacket nbits w with
  | none => none
  | some p =>
    match decode p with
    | .ok i => some i
    | .error _ => none

end Sys2Proof
end

