-- ==== Sys2Proof/Config.lean ====
section
/-! DEFINITION. Config.lean: the named parameters of the block, and the one free value the environment supplies.

`00_scope.md` R8 lists the parameters the source needs and does not give: "The model takes each as an argument. The
defaults are this spec's ...; a model must not hard-wire them." So they are a field of `State` (`State.cfg`), plain data,
and every statement about every state is a statement about every parameter value. The two parameters that are fixed
(`BLOCK_SIZE`, `STEPS_PER_TRACK`, R7) are constants in `Machine/Operands.lean`. -/

namespace Sys2Proof

/-- An inclusive range of guest addresses. -/
structure AddrRange where
  first : Word
  last  : Word
deriving DecidableEq, Repr

/-- The parameters of R8, R42 and of the platform behind port P2 (R52, R68). Constant while the machine runs. -/
structure Params where
  /-- `SLOT`, 0 to 7 (R7, R42): set once by `assign`. -/
  slot : BitVec 3
  /-- `DIR_CMD`: guest address of the direct form's command byte. -/
  dirCmd : Word
  /-- `DIR_UNIT`: guest address of the direct form's unit byte. -/
  dirUnit : Word
  /-- `DIR_ADDR`: guest address of the low byte of the direct form's buffer address. -/
  dirAddr : Word
  /-- `DIR_BLK`: guest address of the low byte of the direct form's block number. -/
  dirBlk : Word
  /-- `PB_UNIT`: offset of the unit byte in the parameter block. -/
  pbUnit : Word
  /-- `PB_ADDR`: offset of the low byte of the buffer address in the parameter block. -/
  pbAddr : Word
  /-- `PB_BLK`: offset of the low byte of the block number in the parameter block. -/
  pbBlk : Word
  /-- `NDRIVES`: number of NTC drive instances. -/
  ndrives : Nat
  /-- `NTRACKS`: physical tracks per drive. -/
  ntracks : Nat
  /-- `TRACK_LEN`, written `L`: bytes per track, the same for every track. -/
  trackLen : Nat
  /-- `TRK_INIT`: initial contents of every track, by drive and then by track; what is not listed is the unlisted byte. -/
  trkInit : List (List Memory)
  /-- The guest addresses that are not plain RAM: ROM, other cards' I/O pages, other devices (R52, R63, R68). What a
  read there returns is the platform's, a free value; a write there stores nothing in this memory; what codec operations
  a nested access there starts is `State.shell`. -/
  external : List AddrRange
deriving DecidableEq, Repr

/-- The defaults of R8, with a plain RAM over all of guest memory (R52's second option) and log entries 2, 3, 5 and 7 for
what R8 gives no default for. -/
def Params.default : Params where
  slot := 0
  dirCmd := 0x0042
  dirUnit := 0x0043
  dirAddr := 0x0044
  dirBlk := 0x0046
  pbUnit := 1
  pbAddr := 2
  pbBlk := 4
  ndrives := 2
  ntracks := 35
  trackLen := 6656
  trkInit := []
  external := []

/-- `draw(8)` of R14: "an unconstrained N-bit value chosen by the environment, fresh at each use". No body: nothing can be
proved of it. The argument is the value of `State.draws` at the use. It supplies the open-bus byte of R38 and R115 and
the byte a read of an external guest address returns. -/
opaque Config.draw8 : Nat → BitVec 8

end Sys2Proof
end

