-- ==== Sys2Proof/Machine/State.lean ====
section
/-! DEFINITION. Machine/State.lean: everything the spec gives the machine, as plain data, and the state after reset.

`10_state.md` R43 lists the persistent state of the block (`MLI`, `POS`, `TRK`) and of its collaborators (the Block
Store, R41; guest memory, R52). Beside them stand the transient latch of the command sequencer (R27), the ports (the
pending transactions, the value the last transaction returned, and the nested accesses it issued) and the parameters
(R8). `TRACE` is not modelled (R30, R5(h)). -/

namespace Sys2Proof.Machine

/-- One nested access of SPD on port P2 or P3 (R19, R70), with what it carried. -/
inductive Access where
  /-- `MemRead(a, 1)` returned `v`. -/
  | memRead (a : Word) (v : Byte)
  /-- `MemWrite(a, 1, v)`. -/
  | memWrite (a : Word) (v : Byte)
  /-- `BsRead(i)`, answered `Ok` or `Fail`. -/
  | bsRead (i : Word) (ok : Bool)
  /-- `BsWrite(i, b)`, answered `Ok` or `Fail`. -/
  | bsWrite (i : Word) (ok : Bool)
deriving DecidableEq, Repr

/-- What a transaction returns to whoever issued it. -/
inductive Response where
  /-- No value: a write, a power operation, `RESET`, `LOAD`. -/
  | silent
  /-- The read data of a guest read (R82), or the byte of `NREAD`. -/
  | byte (v : Byte)
  /-- The snapshot of `SAVE` (R189). -/
  | snapshot (m : Word)
deriving DecidableEq, Repr

/-- One NTC instance: the cursor `POS[d]` (R24) and the buffers `TRK[d][t]` (R25). -/
structure Drive where
  pos    : Nat
  tracks : List Memory
deriving DecidableEq, Repr

/-- What the store's environment chooses as the answer of one call (R16, D14, U8: any of `Ok`, `Fail`). -/
inductive StoreReply where
  /-- `Fail`. What a failed `BsWrite` leaves in the block: nothing changed, as in the reference store, or bytes written from
  its start (U9: "any value in general; unchanged in the reference store"). -/
  | fail (left : Option (List Byte))
  /-- `Ok`. `data` is what a `BsRead` at or beyond the capacity returns, where the store promises nothing; within the capacity
  a read returns the block (the law of R53). -/
  | ok (data : List Byte)
deriving DecidableEq, Repr

/-- One chosen answer: at which Block Store call, counted from 0. -/
structure StoreAnswer where
  call  : Nat
  reply : StoreReply
deriving DecidableEq, Repr

/-- The Block Store collaborator (R9, R41, R53): header, image, and the oracle of its answers as plain data. -/
structure BlockStore where
  /-- `BS.count`, "total block count". -/
  count : Word
  /-- `BS.ro`, the "read-only flag". -/
  ro : Bool
  /-- `BS.block[i][k]` at key `512 * i + k`. -/
  image : Memory
  /-- How many `BsRead` and `BsWrite` calls have been made. -/
  calls : Nat
  /-- The chosen answers. A call that is not listed is answered by the reference store of R53: `Fail` exactly at or beyond
  the capacity. -/
  answers : List StoreAnswer
deriving DecidableEq, Repr

/-- A codec operation that the platform starts (R177): the operations of port P4, without the ignored bits. -/
inductive CodecOp where
  | read (drive q : Nat)
  | write (drive q : Nat) (v : Byte)
  | powerOn (drive : Nat)
  | powerOff (drive : Nat)
deriving DecidableEq, Repr

/-- The machine. -/
structure State where
  /-- The parameters (R8, R42). -/
  cfg : Params
  /-- `MLI`, source name `mliParams` (R21). -/
  mli : Word
  /-- The NTC instances, by drive number (R24, R25). -/
  drives : List Drive
  /-- Guest memory behind port P2, by address (R52). -/
  mem : Memory
  /-- The Block Store behind port P3. -/
  store : BlockStore
  /-- The sequencer: `none` is `IDLE`; `some c` is a trigger read with its fields latched, at phase D (R27, R130). -/
  latched : Option CallBlock
  /-- The transactions the outside world will issue, in the one global order of R69, next first. -/
  input : List Txn
  /-- What the last transaction returned. -/
  out : Response
  /-- The nested accesses of the last transaction, newest first (R70). -/
  nested : List Access
  /-- What the drive shell will do at the nested accesses of addresses that are not plain RAM, next first: the codec operations
  that each of them starts (R63, R177). How the shell maps its I/O page is in no source (R54, N14), so it is data. -/
  shell : List (List CodecOp)
  /-- How many environment draws have been used (R14): the argument of `Config.draw8` at the next one. -/
  draws : Nat
deriving DecidableEq, Repr

/-- What stops the machine: the two contract violations of `60_exceptions.md` R206 that are operations of the block. -/
inductive Fault where
  /-- Raised by `RD 0`, `RD 3`, READ and WRITE when a nested `MemRead` or `MemWrite` has address `a` in the card's own I/O
  page (R207). `left` is the state at that moment: the accesses before it "have already taken effect" (R211).
  Safe: the source gives no behaviour, and the machine stops. -/
  | reentrancyViolation (a : Word) (left : State)
  /-- Raised by `NREAD` and `NWRITE` when `q >= 4*NTRACKS` (R208); no state change (R171). Raised by `RD 0`, `RD 3`, READ and WRITE
  when a nested access starts such an operation (R177).
  DESIGN CHOICE (log entry 18): what is left when a nested access raises it, neither R208 nor R211 says. The model carries no state
  here, so it says nothing of the accesses and the codec operations before it.
  Safe: the source gives no behaviour, the machine stops, and nothing is provable of the state left. -/
  | quarterTrackRange (q : Nat)
deriving DecidableEq, Repr

/-- What has no meaning. -/
inductive Refusal where
  /-- Raised by `exec` for an instruction whose meaning is not written yet. Safe: the machine stops. -/
  | notModelled (mnemonic : String)
  /-- Raised by the codec operations for a drive number with no port instance (R101: "The drive is chosen by the port
  instance"). Safe: no such transaction exists. -/
  | noSuchDrive (drive : Nat)
  /-- Raised by `step` for the `HOST` word 3, "unused" (R101). Safe: the spec gives it no effect. -/
  | unusedHostWord
  /-- Raised by `step` for a transaction that is none of the formats: a read with write data, a write without, a `LOAD` without a
  snapshot, a `RESET` or `SAVE` with one (R80, R101). Safe: no such transaction exists. -/
  | malformedTransaction
deriving DecidableEq, Repr

/-- A newly constructed drive `d`: the cursor at 0 (R232), each track at `TRK_INIT[d][t]` (R233). -/
def freshDrive (p : Params) (d : Nat) : Drive where
  pos := 0
  tracks := (List.range p.ntracks).map fun t => (p.trkInit.getD d []).getD t []

/-- The `NDRIVES` newly constructed drives. -/
def freshDrives (p : Params) : List Drive := (List.range p.ndrives).map (freshDrive p)

/-- The machine right after reset: `MLI = 0` (R231), every cursor 0 (R232), every track `TRK_INIT` (R233), the sequencer
in `IDLE` (R235), with the default parameters. What the spec leaves to the collaborators (guest memory, the store) is
named in log entries 3 to 6. -/
def State.reset : State where
  cfg := Params.default
  mli := 0
  drives := freshDrives Params.default
  mem := []
  store := { count := 0x0640, ro := false, image := [], calls := 0, answers := [] }
  latched := none
  input := []
  out := .silent
  nested := []
  shell := []
  draws := 0

end Sys2Proof.Machine
end

