-- ==== Sys2Proof/Machine/Flags.lean ====
section
/-! DEFINITION. Machine/Flags.lean: the block's status outputs.

"The block has no condition codes. ... The block's only status output is the result byte" (`10_state.md` R31). The one
flag it reads is the store's read-only flag (R29). -/

namespace Sys2Proof.Machine

/-- `NoError` (R88, R200, R201): the command completed. -/
def noError : Byte := 0x00

/-- `IOError` (R88, R200, R202): unsupported command, or a Block Store call failed. -/
def ioError : Byte := 0x27

/-- `NoDevice` (R88, R203): "defined by the source as a result code and produced by no path the source describes". -/
def noDevice : Byte := 0x28

/-- `WriteProtected` (R88, R200, R204): WRITE on a read-only store. -/
def writeProtected : Byte := 0x2B

/-- `BsRO` (R13, R29), sampled at the use (R40). -/
def State.bsRO (s : State) : Bool := s.store.ro

end Sys2Proof.Machine
end

