-- ==== Sys2Proof/Machine/Operands.lean ====
section
/-! DEFINITION. Machine/Operands.lean: operand assembly and address arithmetic (`30_encoding.md` R84 to R93,
`20_memory.md` R55 to R67). -/

namespace Sys2Proof.Machine

/-! ### Bytes and words -/

/-- `v[7:0]` (R10). -/
def lowByte (v : Word) : Byte := v.extractLsb' 0 8

/-- `v[15:8]` (R10). -/
def highByte (v : Word) : Byte := v.extractLsb' 8 8

/-- `hi :: lo` (R10): `hi*256 + lo`. -/
def joinBytes (hi lo : Byte) : Word := hi ++ lo

/-! ### Fixed parameters (R7) -/

/-- `BLOCK_SIZE`: "fixed at 512 bytes; not configurable". -/
def blockSize : Nat := 512

/-- `STEPS_PER_TRACK`: "4 quarter-steps per physical track". -/
abbrev stepsPerTrack : Nat := 4

/-! ### Guest addresses -/

/-- `base +16 k` (R10, R60): addition modulo `2^16`. -/
def offsetBy (base : Word) (k : Nat) : Word := base + BitVec.ofNat 16 k

/-- `IOBASE = 0xC080 + SLOT*0x10` (R65), for slot 0 too (D22). -/
def ioBase (p : Params) : Nat := 0xC080 + p.slot.toNat * 0x10

/-- The address lies in the card's own I/O page: `IOBASE <= a <= IOBASE + 15` (R207). -/
def ownPage (p : Params) (a : Word) : Bool := decide (ioBase p ≤ a.toNat ∧ a.toNat ≤ ioBase p + 15)

/-- `IOBASE + o` of any slot, as the bits of R80: `110000001 :: slot :: o`. -/
def ioAddress (slot : BitVec 3) (o : BitVec 4) : Word := (0b110000001 : BitVec 9) ++ slot ++ o

/-- The address is not plain RAM: what answers there is the platform's (R52, R68). -/
def isExternal (p : Params) (a : Word) : Bool :=
  p.external.any fun r => decide (r.first.toNat ≤ a.toNat ∧ a.toNat ≤ r.last.toNat)

/-! ### The codec's operands -/

/-- `t = q div STEPS_PER_TRACK` (R92). -/
def trackOf (q : Nat) : Nat := q / stepsPerTrack

/-- `q >= 4*NTRACKS` (R166, R208). -/
def quarterTrackOut (p : Params) (q : Nat) : Bool := decide (stepsPerTrack * p.ntracks ≤ q)

/-- `(POS + 1) mod L` (R93, R166). -/
def nextPos (p : Params) (pos : Nat) : Nat := (pos + 1) % p.trackLen

end Sys2Proof.Machine
end

