-- ==== Sys2Proof/Machine/Ops.lean ====
section
/-! DEFINITION. Machine/Ops.lean: the named operations over memory, the ports and the registers, which every meaning is
written with.

There is no trap: "'Trap entry' for a result code is nothing more than the read data of the trigger read ... No state is saved,
no mode changes, no vector is taken" (`60_exceptions.md` R213), and "No return instruction" (R216). So the one shared way
a command ends, with or without an error, is `State.finish`. -/

namespace Sys2Proof

/-! ### Byte memories -/

/-- What a key that is not listed reads as: 0 (log entries 3, 5 and 6). -/
def Memory.unlisted : Byte := 0

/-- Read one byte. -/
def Memory.read : Memory → Nat → Byte
  | [], _ => Memory.unlisted
  | (k, b) :: rest, a => if k = a then b else Memory.read rest a

/-- Write one byte, keeping the canonical form: writing the unlisted byte removes the entry. -/
def Memory.put : Memory → Nat → Byte → Memory
  | [], a, v => if v = Memory.unlisted then [] else [(a, v)]
  | (k, b) :: rest, a, v =>
    if k < a then (k, b) :: Memory.put rest a v
    else if k = a then (if v = Memory.unlisted then rest else (a, v) :: rest)
    else (if v = Memory.unlisted then (k, b) :: rest else (a, v) :: (k, b) :: rest)

/-- The canonical form, for keys from `lo` on: keys strictly rising, no entry equal to the unlisted byte. -/
def Memory.wfFrom : Nat → Memory → Bool
  | _, [] => true
  | lo, (k, b) :: rest => decide (lo ≤ k) && decide (b ≠ Memory.unlisted) && Memory.wfFrom (k + 1) rest

/-- The canonical form. -/
def Memory.wf (m : Memory) : Bool := Memory.wfFrom 0 m

/-- Every key is below `n`. -/
def Memory.within (n : Nat) (m : Memory) : Bool := m.all fun c => decide (c.1 < n)

/-- `n` bytes from key `base` on, ascending. -/
def Memory.readRange (m : Memory) (base : Nat) : Nat → List Byte
  | 0 => []
  | n + 1 => m.read base :: Memory.readRange m (base + 1) n

/-- Write bytes at keys from `base` on, ascending. -/
def Memory.putRange (m : Memory) (base : Nat) : List Byte → Memory
  | [] => m
  | b :: bs => Memory.putRange (m.put base b) (base + 1) bs

namespace Machine

/-! ### Results -/

/-- The value a transaction returns. -/
def State.reply (r : Response) (s : State) : State := { s with out := r }

/-- Phase R of a command (R130, R213): "drive the result byte as read data; go to `IDLE`". -/
def State.finish (code : Byte) (s : State) : State := { s with out := .byte code, latched := none }

/-- The latch of the fetched fields (R132(b)): phase D begins. -/
def State.latch (c : CallBlock) (s : State) : State := { s with latched := some c }

/-- One nested access takes its place in the order of R70. -/
def State.note (a : Access) (s : State) : State := { s with nested := a :: s.nested }

/-! ### Nibble tracks: port P4 -/

/-- `TRK[d][t][p]` (R25). -/
def Drive.byteAt (d : Drive) (t p : Nat) : Byte := (d.tracks.getD t []).read p

/-- `TRK[d][t][p] <- v`. -/
def Drive.withByte (d : Drive) (t p : Nat) (v : Byte) : Drive :=
  { d with tracks := d.tracks.set t ((d.tracks.getD t []).put p v) }

/-- `POS[d] <- (POS[d] + 1) mod L` (R93, R166). -/
def Drive.advance (p : Params) (d : Drive) : Drive := { d with pos := nextPos p d.pos }

/-- The effect of one codec operation on the drives, where it is in range (R166, R167, R175, R176). A drive with no port instance
is not there to be operated (R101). -/
def codecEffect (p : Params) (ds : List Drive) : CodecOp → List Drive
  | .read n _ => ds.modify n (Drive.advance p)
  | .write n q v => ds.modify n fun d => (d.withByte (trackOf q) d.pos v).advance p
  | .powerOn _ => ds
  | .powerOff _ => ds

/-- Codec operations one after another. -/
def codecRun (p : Params) (ops : List CodecOp) (ds : List Drive) : List Drive := ops.foldl (codecEffect p) ds

/-- The quarter-track of a codec operation that is out of range (R171, R208). -/
def CodecOp.outOfRange (p : Params) : CodecOp → Option Nat
  | .read _ q => if quarterTrackOut p q then some q else none
  | .write _ q _ => if quarterTrackOut p q then some q else none
  | .powerOn _ => none
  | .powerOff _ => none

/-- The first out-of-range quarter-track of codec operations. -/
def firstOutOfRange (p : Params) (ops : List CodecOp) : Option Nat := ops.findSome? (CodecOp.outOfRange p)

/-! ### Guest memory: port P2 -/

/-- The byte that the guest address answers at draw number `n`: plain RAM, or the platform's free value (R52, U10). -/
def State.byteAt (s : State) (a : Word) (n : Nat) : Byte :=
  if isExternal s.cfg a then Config.draw8 n else s.mem.read a.toNat

/-- What a write leaves in guest memory: plain RAM stores; elsewhere "the effect is the machine's, not plain storage"
(R152(d)). -/
def State.memAfter (s : State) (a : Word) (v : Byte) : Memory :=
  if isExternal s.cfg a then s.mem else s.mem.put a.toNat v

/-- The codec operations that a nested access of `a` starts: those the shell will do next, where `a` is not plain RAM. -/
def State.startedOps (a : Word) (s : State) : List CodecOp := if isExternal s.cfg a then s.shell.headD [] else []

/-- The state in which they have been done: a nested access of another device "has that device's effect, once per byte" (R63),
a codec operation started by it "is permitted and ordered like any other side effect" (R177). -/
def State.started (a : Word) (s : State) : State :=
  if isExternal s.cfg a then
    { s with drives := codecRun s.cfg (s.shell.headD []) s.drives, shell := s.shell.tail }
  else s

/-- `MemRead(a, 1)` (R12, R52), a fault in the card's own I/O page (R207) and where it starts a codec operation out of range
(R208). -/
def State.memRead (a : Word) (s : State) : Except Fault (Byte × State) :=
  if ownPage s.cfg a then .error (.reentrancyViolation a s)
  else match firstOutOfRange s.cfg (s.startedOps a) with
    | some q => .error (.quarterTrackRange q)
    | none => .ok (s.byteAt a s.draws,
        { s.started a with draws := s.draws + 1, nested := .memRead a (s.byteAt a s.draws) :: s.nested })

/-- `MemWrite(a, 1, v)` (R12, R52), with the same faults. -/
def State.memWrite (a : Word) (v : Byte) (s : State) : Except Fault State :=
  if ownPage s.cfg a then .error (.reentrancyViolation a s)
  else match firstOutOfRange s.cfg (s.startedOps a) with
    | some q => .error (.quarterTrackRange q)
    | none => .ok { s.started a with mem := s.memAfter a v, nested := .memWrite a v :: s.nested }

/-- A two-byte field at `a` (R57, R90): `MemRead(a +16 1) :: MemRead(a)`, "the low byte is fetched before the high byte". -/
def State.memReadField (a : Word) (s : State) : Except Fault (Word × State) :=
  match s.memRead a with
  | .error f => .error f
  | .ok (lo, s1) =>
    match s1.memRead (offsetBy a 1) with
    | .error f => .error f
    | .ok (hi, s2) => .ok (joinBytes hi lo, s2)

/-- `MemRead(base +16 k, 1)` for `n` ascending values of `k` from `k` on (R70, R153). -/
def State.gather (base : Word) (k : Nat) : Nat → State → Except Fault (List Byte × State)
  | 0, s => .ok ([], s)
  | n + 1, s =>
    match s.memRead (offsetBy base k) with
    | .error f => .error f
    | .ok (b, s1) =>
      match State.gather base (k + 1) n s1 with
      | .error f => .error f
      | .ok (bs, s2) => .ok (b :: bs, s2)

/-- `MemWrite(base +16 k, 1, b[k])` for ascending `k` from `k` on (R70, R151). -/
def State.scatter (base : Word) (k : Nat) : List Byte → State → Except Fault State
  | [], s => .ok s
  | b :: bs, s =>
    match s.memWrite (offsetBy base k) b with
    | .error f => .error f
    | .ok s1 => State.scatter base (k + 1) bs s1

/-! ### The Block Store: port P3 -/

/-- The answer that the environment has chosen for the next call, if any (R53, D14). -/
def BlockStore.answer (b : BlockStore) : Option StoreReply :=
  (b.answers.find? fun a => a.call == b.calls).map StoreAnswer.reply

/-- The next call on block `i` answers `Fail`: as chosen, else as the reference store does (R53). -/
def BlockStore.fails (b : BlockStore) (i : Word) : Bool :=
  match b.answer with
  | some (.fail _) => true
  | some (.ok _) => false
  | none => decide (b.count.toNat ≤ i.toNat)

/-- Byte `k` of what a successful `BsRead(i)` returns at the next call: `BS.block[i][k]` (R41, R53), and beyond the capacity what
the environment has chosen. -/
def BlockStore.blockByte (b : BlockStore) (i : Word) (k : Nat) : Byte :=
  if i.toNat < b.count.toNat then b.image.read (blockSize * i.toNat + k)
  else match b.answer with
    | some (.ok data) => data.getD k Memory.unlisted
    | some (.fail _) => Memory.unlisted
    | none => Memory.unlisted

/-- What a successful `BsRead(i)` returns at the next call: 512 bytes (R41). -/
def BlockStore.block (b : BlockStore) (i : Word) : List Byte := (List.range blockSize).map (b.blockByte i)

/-- The image with bytes written from the start of block `i`, at most one block's worth. Beyond the capacity there is no such
block (R41). -/
def BlockStore.imageWith (b : BlockStore) (i : Word) (bytes : List Byte) : Memory :=
  if i.toNat < b.count.toNat then b.image.putRange (blockSize * i.toNat) (bytes.take blockSize) else b.image

/-- The image that a failed `BsWrite(i, _)` leaves: unchanged, or as the chosen failure says (R53, R62, U9). -/
def BlockStore.imageAfterFail (b : BlockStore) (i : Word) : Memory :=
  match b.answer with
  | some (.fail (some bytes)) => b.imageWith i bytes
  | some (.fail none) => b.image
  | some (.ok _) => b.image
  | none => b.image

/-- `BsRead(i)` (R13, R53): the 512 bytes, or `none` for `Fail`. -/
def State.bsRead (i : Word) (s : State) : Option (List Byte) × State :=
  let s1 : State := { s with
    store := { s.store with calls := s.store.calls + 1 }
    nested := .bsRead i (!s.store.fails i) :: s.nested }
  if s.store.fails i then (none, s1) else (some (s.store.block i), s1)

/-- `BsWrite(i, bytes)` (R13, R53): whether it answered `Ok`. -/
def State.bsWrite (i : Word) (bytes : List Byte) (s : State) : Bool × State :=
  (!s.store.fails i,
   { s with
     store := { s.store with
       calls := s.store.calls + 1
       image := if s.store.fails i then s.store.imageAfterFail i else s.store.imageWith i bytes }
     nested := .bsWrite i (!s.store.fails i) :: s.nested })

/-! ### Block transfer (`42_block_transfer.md`) -/

/-- `ReadBlock(blk, dest)` (R151). -/
def State.readBlock (blk dest : Word) (s : State) : Host.Outcome State Fault Refusal :=
  match s.bsRead blk with
  | (none, s1) => .next (s1.finish ioError)
  | (some b, s1) =>
    match s1.scatter dest 0 b with
    | .error f => .fault f
    | .ok s2 => .next (s2.finish noError)

/-- `WriteBlock(blk, src)` (R153). -/
def State.writeBlock (blk src : Word) (s : State) : Host.Outcome State Fault Refusal :=
  if s.bsRO then .next (s.finish writeProtected)
  else match s.gather src 0 blockSize with
    | .error f => .fault f
    | .ok (b, s1) =>
      match s1.bsWrite blk b with
      | (true, s2) => .next (s2.finish noError)
      | (false, s2) => .next (s2.finish ioError)

/-! ### The two fetches (`41_command_dispatch.md` R130 phases F1 to F5) -/

/-- The direct entry's field fetches, in the order of R131. -/
def State.fetchDirect (s : State) : Except Fault (CallBlock × State) :=
  match s.memRead s.cfg.dirCmd with
  | .error f => .error f
  | .ok (cmd, s1) =>
    match s1.memRead s.cfg.dirUnit with
    | .error f => .error f
    | .ok (unit, s2) =>
      match s2.memReadField s.cfg.dirAddr with
      | .error f => .error f
      | .ok (addr, s3) =>
        match s3.memReadField s.cfg.dirBlk with
        | .error f => .error f
        | .ok (blk, s4) => .ok (⟨cmd, unit, addr, blk⟩, s4)

/-- The indirect entry's field fetches, in the order of R133. -/
def State.fetchIndirect (s : State) : Except Fault (CallBlock × State) :=
  match s.memRead (offsetBy s.mli 1) with
  | .error f => .error f
  | .ok (cmd, s1) =>
    match s1.memReadField (offsetBy s.mli 2) with
    | .error f => .error f
    | .ok (pb, s2) =>
      match s2.memRead (pb + s.cfg.pbUnit) with
      | .error f => .error f
      | .ok (unit, s3) =>
        match s3.memReadField (pb + s.cfg.pbAddr) with
        | .error f => .error f
        | .ok (addr, s4) =>
          match s4.memReadField (pb + s.cfg.pbBlk) with
          | .error f => .error f
          | .ok (blk, s5) => .ok (⟨cmd, unit, addr, blk⟩, s5)

/-! ### The port instances of P4 -/

/-- Drive `n` becomes `d`. -/
def State.setDrive (n : Nat) (d : Drive) (s : State) : State := { s with drives := s.drives.set n d }

/-- An operation on the port instance of drive `n`. -/
def State.onDrive (n : Nat) (s : State) (f : Drive → Host.Outcome State Fault Refusal) : Host.Outcome State Fault Refusal :=
  match s.drives[n]? with
  | none => .refused (.noSuchDrive n)
  | some d => f d

/-! ### The I/O page: port P1 -/

/-- The guest reads an address that is not the card's: guest memory answers (R52, R69(c); log entry 13). -/
def State.guestRead (a : Word) (s : State) : State := { s with out := .byte (s.byteAt a s.draws), draws := s.draws + 1 }

/-- The guest writes an address that is not the card's: guest memory takes it (R52, R69(c), R73; log entry 13). -/
def State.guestWrite (a : Word) (v : Byte) (s : State) : State := { s with mem := s.memAfter a v, out := .silent }

/-- A read at offset `o` of slot `slot`'s page: "The block is selected when ... `A[6:4] = SLOT`; any other address is not
the block's and has no effect on it" (R81). -/
def State.onCardRead (slot : BitVec 3) (o : BitVec 4) (s : State) (f : State → Host.Outcome State Fault Refusal) :
    Host.Outcome State Fault Refusal :=
  if slot = s.cfg.slot then f s else .next (s.guestRead (ioAddress slot o))

/-- The same for a write of `v`. -/
def State.onCardWrite (slot : BitVec 3) (o : BitVec 4) (v : Byte) (s : State)
    (f : State → Host.Outcome State Fault Refusal) : Host.Outcome State Fault Refusal :=
  if slot = s.cfg.slot then f s else .next (s.guestWrite (ioAddress slot o) v)

/-- `IO[o]` with no read handler (R38, R115): `return draw(8)`, no state of the block changes. -/
def State.openBusRead (s : State) : State := { s with out := .byte (Config.draw8 s.draws), draws := s.draws + 1 }

/-! ### Taking the next transaction -/

/-- The transaction at the head of the input is taken; its response and its nested accesses start empty. -/
def State.accept (rest : List Txn) (s : State) : State := { s with input := rest, out := .silent, nested := [] }

/-- What a transaction does that decodes to no operation: an access outside every I/O page has no effect on the block
(R81, R117) and reaches guest memory; what is no transaction of R80 or R101 is refused. -/
def State.undecoded (e : DecodeError) (s : State) : Host.Outcome State Fault Refusal :=
  match e with
  | .notIoPage a none => .next (s.guestRead a)
  | .notIoPage a (some v) => .next (s.guestWrite a v)
  | .hostOpUnused => .refused .unusedHostWord
  | .readWithData => .refused .malformedTransaction
  | .writeWithoutData => .refused .malformedTransaction
  | .loadWithoutSnapshot => .refused .malformedTransaction
  | .hostOpWithSnapshot => .refused .malformedTransaction

end Machine

end Sys2Proof
end

