-- ==== Sys2Proof/Machine/HostPort.lean ====
section
/-! DEFINITION. Machine/HostPort.lean: the host's operations (`44_host_hooks.md` R189, R190, `70_reset_and_hazards.md` R230). -/

namespace Sys2Proof.Machine

/-- `RESET` (R230 to R235): reconstruction. `MLI` and the cursors 0, the tracks `TRK_INIT`, the sequencer `IDLE`; the
store, guest memory and the parameters as they are. -/
def execReset (s : State) : Host.Outcome State Fault Refusal :=
  .next ({ s with mli := 0, drives := freshDrives s.cfg, latched := none }.reply .silent)

/-- `SAVE` (R189): `return snapshot(MLI)`. -/
def execSave (s : State) : Host.Outcome State Fault Refusal :=
  .next (s.reply (.snapshot s.mli))

/-- `LOAD s` (R190): `MLI <- s`. -/
def execLoad (snapshot : Word) (s : State) : Host.Outcome State Fault Refusal :=
  .next ({ s with mli := snapshot }.reply .silent)

end Sys2Proof.Machine
end

