-- ==== Sys2Proof/Machine/IoPage.lean ====
section
/-! DEFINITION. Machine/IoPage.lean: the I/O-page operations that start no command (`40_softswitch_access.md`): the capacity
reads, the `MLI` writes, the unmapped reads and the ignored writes. -/

namespace Sys2Proof.Machine

/-- `RD 1` (R111): `return BsCount[7:0]`. -/
def execRd1CapLo (slot : BitVec 3) (s : State) : Host.Outcome State Fault Refusal :=
  s.onCardRead slot 1 fun s => .next (s.reply (.byte (lowByte s.store.count)))

/-- `RD 2` (R112): `return BsCount[15:8]`. -/
def execRd2CapHi (slot : BitVec 3) (s : State) : Host.Outcome State Fault Refusal :=
  s.onCardRead slot 2 fun s => .next (s.reply (.byte (highByte s.store.count)))

/-- `WR 4, v` (R113): `MLI <- MLI[15:8] :: v`. -/
def execWr4MliLo (slot : BitVec 3) (v : Byte) (s : State) : Host.Outcome State Fault Refusal :=
  s.onCardWrite slot 4 v fun s => .next ({ s with mli := joinBytes (highByte s.mli) v }.reply .silent)

/-- `WR 5, v` (R114): `MLI <- v :: MLI[7:0]`. -/
def execWr5MliHi (slot : BitVec 3) (v : Byte) (s : State) : Host.Outcome State Fault Refusal :=
  s.onCardWrite slot 5 v fun s => .next ({ s with mli := joinBytes v (lowByte s.mli) }.reply .silent)

/-- `RD 4`, unmapped (R115): the open-bus byte. -/
def execRd4Unmapped (slot : BitVec 3) (s : State) : Host.Outcome State Fault Refusal :=
  s.onCardRead slot 4 fun s => .next s.openBusRead

/-- `RD 5`, unmapped (R115): the open-bus byte. -/
def execRd5Unmapped (slot : BitVec 3) (s : State) : Host.Outcome State Fault Refusal :=
  s.onCardRead slot 5 fun s => .next s.openBusRead

/-- `RD 6`, unmapped (R115): the open-bus byte. -/
def execRd6Unmapped (slot : BitVec 3) (s : State) : Host.Outcome State Fault Refusal :=
  s.onCardRead slot 6 fun s => .next s.openBusRead

/-- `RD 7`, unmapped (R115): the open-bus byte. -/
def execRd7Unmapped (slot : BitVec 3) (s : State) : Host.Outcome State Fault Refusal :=
  s.onCardRead slot 7 fun s => .next s.openBusRead

/-- `RD 8`, unmapped (R115): the open-bus byte. -/
def execRd8Unmapped (slot : BitVec 3) (s : State) : Host.Outcome State Fault Refusal :=
  s.onCardRead slot 8 fun s => .next s.openBusRead

/-- `RD 9`, unmapped (R115): the open-bus byte. -/
def execRd9Unmapped (slot : BitVec 3) (s : State) : Host.Outcome State Fault Refusal :=
  s.onCardRead slot 9 fun s => .next s.openBusRead

/-- `RD 10`, unmapped (R115): the open-bus byte. -/
def execRd10Unmapped (slot : BitVec 3) (s : State) : Host.Outcome State Fault Refusal :=
  s.onCardRead slot 10 fun s => .next s.openBusRead

/-- `RD 11`, unmapped (R115): the open-bus byte. -/
def execRd11Unmapped (slot : BitVec 3) (s : State) : Host.Outcome State Fault Refusal :=
  s.onCardRead slot 11 fun s => .next s.openBusRead

/-- `RD 12`, unmapped (R115): the open-bus byte. -/
def execRd12Unmapped (slot : BitVec 3) (s : State) : Host.Outcome State Fault Refusal :=
  s.onCardRead slot 12 fun s => .next s.openBusRead

/-- `RD 13`, unmapped (R115): the open-bus byte. -/
def execRd13Unmapped (slot : BitVec 3) (s : State) : Host.Outcome State Fault Refusal :=
  s.onCardRead slot 13 fun s => .next s.openBusRead

/-- `RD 14`, unmapped (R115): the open-bus byte. -/
def execRd14Unmapped (slot : BitVec 3) (s : State) : Host.Outcome State Fault Refusal :=
  s.onCardRead slot 14 fun s => .next s.openBusRead

/-- `RD 15`, unmapped (R115): the open-bus byte. -/
def execRd15Unmapped (slot : BitVec 3) (s : State) : Host.Outcome State Fault Refusal :=
  s.onCardRead slot 15 fun s => .next s.openBusRead

/-- `WR 0, v`, ignored (R116): "writes are ignored". -/
def execWr0Ignored (slot : BitVec 3) (v : Byte) (s : State) : Host.Outcome State Fault Refusal :=
  s.onCardWrite slot 0 v fun s => .next (s.reply .silent)

/-- `WR 1, v`, ignored (R116): "writes are ignored". -/
def execWr1Ignored (slot : BitVec 3) (v : Byte) (s : State) : Host.Outcome State Fault Refusal :=
  s.onCardWrite slot 1 v fun s => .next (s.reply .silent)

/-- `WR 2, v`, ignored (R116): "writes are ignored". -/
def execWr2Ignored (slot : BitVec 3) (v : Byte) (s : State) : Host.Outcome State Fault Refusal :=
  s.onCardWrite slot 2 v fun s => .next (s.reply .silent)

/-- `WR 3, v`, ignored (R116): "writes are ignored". -/
def execWr3Ignored (slot : BitVec 3) (v : Byte) (s : State) : Host.Outcome State Fault Refusal :=
  s.onCardWrite slot 3 v fun s => .next (s.reply .silent)

/-- `WR 6, v`, ignored (R116): "writes are ignored". -/
def execWr6Ignored (slot : BitVec 3) (v : Byte) (s : State) : Host.Outcome State Fault Refusal :=
  s.onCardWrite slot 6 v fun s => .next (s.reply .silent)

/-- `WR 7, v`, ignored (R116): "writes are ignored". -/
def execWr7Ignored (slot : BitVec 3) (v : Byte) (s : State) : Host.Outcome State Fault Refusal :=
  s.onCardWrite slot 7 v fun s => .next (s.reply .silent)

/-- `WR 8, v`, ignored (R116): "writes are ignored". -/
def execWr8Ignored (slot : BitVec 3) (v : Byte) (s : State) : Host.Outcome State Fault Refusal :=
  s.onCardWrite slot 8 v fun s => .next (s.reply .silent)

/-- `WR 9, v`, ignored (R116): "writes are ignored". -/
def execWr9Ignored (slot : BitVec 3) (v : Byte) (s : State) : Host.Outcome State Fault Refusal :=
  s.onCardWrite slot 9 v fun s => .next (s.reply .silent)

/-- `WR 10, v`, ignored (R116): "writes are ignored". -/
def execWr10Ignored (slot : BitVec 3) (v : Byte) (s : State) : Host.Outcome State Fault Refusal :=
  s.onCardWrite slot 10 v fun s => .next (s.reply .silent)

/-- `WR 11, v`, ignored (R116): "writes are ignored". -/
def execWr11Ignored (slot : BitVec 3) (v : Byte) (s : State) : Host.Outcome State Fault Refusal :=
  s.onCardWrite slot 11 v fun s => .next (s.reply .silent)

/-- `WR 12, v`, ignored (R116): "writes are ignored". -/
def execWr12Ignored (slot : BitVec 3) (v : Byte) (s : State) : Host.Outcome State Fault Refusal :=
  s.onCardWrite slot 12 v fun s => .next (s.reply .silent)

/-- `WR 13, v`, ignored (R116): "writes are ignored". -/
def execWr13Ignored (slot : BitVec 3) (v : Byte) (s : State) : Host.Outcome State Fault Refusal :=
  s.onCardWrite slot 13 v fun s => .next (s.reply .silent)

/-- `WR 14, v`, ignored (R116): "writes are ignored". -/
def execWr14Ignored (slot : BitVec 3) (v : Byte) (s : State) : Host.Outcome State Fault Refusal :=
  s.onCardWrite slot 14 v fun s => .next (s.reply .silent)

/-- `WR 15, v`, ignored (R116): "writes are ignored". -/
def execWr15Ignored (slot : BitVec 3) (v : Byte) (s : State) : Host.Outcome State Fault Refusal :=
  s.onCardWrite slot 15 v fun s => .next (s.reply .silent)

end Sys2Proof.Machine
end

