-- ==== Sys2Proof/Machine/Nibble.lean ====
section
/-! DEFINITION. Machine/Nibble.lean: the nibble-track codec (`43_nibble_codec.md`). -/

namespace Sys2Proof.Machine

/-- `NREAD d, q` (R166): the byte at the cursor of track `q div 4`, then the cursor advances. -/
def execNread (drive q : Nat) (_pad : Byte) (s : State) : Host.Outcome State Fault Refusal :=
  s.onDrive drive fun d =>
    if quarterTrackOut s.cfg q then .fault (.quarterTrackRange q)
    else .next ((s.setDrive drive (d.advance s.cfg)).reply (.byte (d.byteAt (trackOf q) d.pos)))

/-- `NWRITE d, q, v` (R167): the byte at the cursor of track `q div 4` becomes `v`, then the cursor advances. -/
def execNwrite (drive q : Nat) (v : Byte) (s : State) : Host.Outcome State Fault Refusal :=
  s.onDrive drive fun d =>
    if quarterTrackOut s.cfg q then .fault (.quarterTrackRange q)
    else .next ((s.setDrive drive ((d.withByte (trackOf q) d.pos v).advance s.cfg)).reply .silent)

/-- `PWRON d` (R175): a no-op; "the cursor is not reset". -/
def execPwron (drive _q : Nat) (_pad : Byte) (s : State) : Host.Outcome State Fault Refusal :=
  s.onDrive drive fun _ => .next (s.reply .silent)

/-- `PWROFF d` (R176): a no-op. -/
def execPwroff (drive _q : Nat) (_pad : Byte) (s : State) : Host.Outcome State Fault Refusal :=
  s.onDrive drive fun _ => .next (s.reply .silent)

end Sys2Proof.Machine
end

