-- ==== Sys2Proof/Machine/Commands.lean ====
section
/-! DEFINITION. Machine/Commands.lean: the commands of the call block (`41_command_dispatch.md` R135 to R140): phases D, X and R of
a trigger read whose fields are latched. `unit` takes no part in any of them (R143). -/

namespace Sys2Proof.Machine

/-- `STATUS` (R136): `return 0x00`. -/
def execStatus (_unit : Byte) (_addr _blk : Word) (s : State) : Host.Outcome State Fault Refusal :=
  .next (s.finish noError)

/-- `READ` (R137): `return ReadBlock(blk, addr)`. -/
def execRead (_unit : Byte) (addr blk : Word) (s : State) : Host.Outcome State Fault Refusal :=
  s.readBlock blk addr

/-- `WRITE` (R138): `return WriteBlock(blk, addr)`. -/
def execWrite (_unit : Byte) (addr blk : Word) (s : State) : Host.Outcome State Fault Refusal :=
  s.writeBlock blk addr

/-- `FORMAT` (R139, C1): named and not dispatched, `return 0x27`. -/
def execFormat (_unit : Byte) (_addr _blk : Word) (s : State) : Host.Outcome State Fault Refusal :=
  .next (s.finish ioError)

/-- `UNSUPPORTED`, command bytes `0x04 .. 0x07` (R140): `return 0x27`. -/
def execUnsupported04To07 (_x : BitVec 2) (_unit : Byte) (_addr _blk : Word) (s : State) : Host.Outcome State Fault Refusal :=
  .next (s.finish ioError)

/-- `UNSUPPORTED`, command bytes `0x08 .. 0x0F` (R140): `return 0x27`. -/
def execUnsupported08To0F (_x : BitVec 3) (_unit : Byte) (_addr _blk : Word) (s : State) : Host.Outcome State Fault Refusal :=
  .next (s.finish ioError)

/-- `UNSUPPORTED`, command bytes `0x10 .. 0x1F` (R140): `return 0x27`. -/
def execUnsupported10To1F (_x : BitVec 4) (_unit : Byte) (_addr _blk : Word) (s : State) : Host.Outcome State Fault Refusal :=
  .next (s.finish ioError)

/-- `UNSUPPORTED`, command bytes `0x20 .. 0x3F` (R140): `return 0x27`. -/
def execUnsupported20To3F (_x : BitVec 5) (_unit : Byte) (_addr _blk : Word) (s : State) : Host.Outcome State Fault Refusal :=
  .next (s.finish ioError)

/-- `UNSUPPORTED`, command bytes `0x40 .. 0x7F` (R140): `return 0x27`. -/
def execUnsupported40To7F (_x : BitVec 6) (_unit : Byte) (_addr _blk : Word) (s : State) : Host.Outcome State Fault Refusal :=
  .next (s.finish ioError)

/-- `UNSUPPORTED`, command bytes `0x80 .. 0xFF` (R140): `return 0x27`. -/
def execUnsupported80ToFF (_x : BitVec 7) (_unit : Byte) (_addr _blk : Word) (s : State) : Host.Outcome State Fault Refusal :=
  .next (s.finish ioError)

/-- `Dispatch(cmd, unit, addr, blk)` (R135), row by row of R87 and R94. -/
def dispatch (c : CallBlock) (s : State) : Host.Outcome State Fault Refusal :=
  if c.cmd = 0x00 then execStatus c.unit c.addr c.blk s
  else if c.cmd = 0x01 then execRead c.unit c.addr c.blk s
  else if c.cmd = 0x02 then execWrite c.unit c.addr c.blk s
  else if c.cmd = 0x03 then execFormat c.unit c.addr c.blk s
  else if c.cmd.extractLsb' 2 6 = 1 then execUnsupported04To07 (c.cmd.extractLsb' 0 2) c.unit c.addr c.blk s
  else if c.cmd.extractLsb' 3 5 = 1 then execUnsupported08To0F (c.cmd.extractLsb' 0 3) c.unit c.addr c.blk s
  else if c.cmd.extractLsb' 4 4 = 1 then execUnsupported10To1F (c.cmd.extractLsb' 0 4) c.unit c.addr c.blk s
  else if c.cmd.extractLsb' 5 3 = 1 then execUnsupported20To3F (c.cmd.extractLsb' 0 5) c.unit c.addr c.blk s
  else if c.cmd.extractLsb' 6 2 = 1 then execUnsupported40To7F (c.cmd.extractLsb' 0 6) c.unit c.addr c.blk s
  else execUnsupported80ToFF (c.cmd.extractLsb' 0 7) c.unit c.addr c.blk s

end Sys2Proof.Machine
end

