-- ==== Sys2Proof/Machine/Trigger.lean ====
section
/-! DEFINITION. Machine/Trigger.lean: the two trigger reads (`41_command_dispatch.md` R131, R133). The whole read, with all its
nested accesses, "is one indivisible step" (`20_memory.md` R62). -/

namespace Sys2Proof.Machine

/-- The fields are latched and the command routed on (R130 phases D, X, R). -/
def runFetched (r : Except Fault (CallBlock × State)) : Host.Outcome State Fault Refusal :=
  match r with
  | .error f => .fault f
  | .ok (c, s) => dispatch c (s.latch c)

/-- `RD 0`, the direct command entry (R131). -/
def execRd0CmdDirect (slot : BitVec 3) (s : State) : Host.Outcome State Fault Refusal :=
  s.onCardRead slot 0 fun s => runFetched s.fetchDirect

/-- `RD 3`, the indirect (SmartPort) command entry (R133). -/
def execRd3CmdIndirect (slot : BitVec 3) (s : State) : Host.Outcome State Fault Refusal :=
  s.onCardRead slot 3 fun s => runFetched s.fetchIndirect

end Sys2Proof.Machine
end

