-- ==== Sys2Proof/Machine/Dispatch.lean ====
section
/-! DEFINITION. Machine/Dispatch.lean: one meaning per operation, and nothing else. -/

namespace Sys2Proof.Machine

def exec (i : Instr) (s : State) : Host.Outcome State Fault Refusal :=
  match i with
  | .rd0CmdDirect slot => Sys2Proof.Machine.execRd0CmdDirect slot s
  | .rd1CapLo slot => Sys2Proof.Machine.execRd1CapLo slot s
  | .rd2CapHi slot => Sys2Proof.Machine.execRd2CapHi slot s
  | .rd3CmdIndirect slot => Sys2Proof.Machine.execRd3CmdIndirect slot s
  | .rd4Unmapped slot => Sys2Proof.Machine.execRd4Unmapped slot s
  | .rd5Unmapped slot => Sys2Proof.Machine.execRd5Unmapped slot s
  | .rd6Unmapped slot => Sys2Proof.Machine.execRd6Unmapped slot s
  | .rd7Unmapped slot => Sys2Proof.Machine.execRd7Unmapped slot s
  | .rd8Unmapped slot => Sys2Proof.Machine.execRd8Unmapped slot s
  | .rd9Unmapped slot => Sys2Proof.Machine.execRd9Unmapped slot s
  | .rd10Unmapped slot => Sys2Proof.Machine.execRd10Unmapped slot s
  | .rd11Unmapped slot => Sys2Proof.Machine.execRd11Unmapped slot s
  | .rd12Unmapped slot => Sys2Proof.Machine.execRd12Unmapped slot s
  | .rd13Unmapped slot => Sys2Proof.Machine.execRd13Unmapped slot s
  | .rd14Unmapped slot => Sys2Proof.Machine.execRd14Unmapped slot s
  | .rd15Unmapped slot => Sys2Proof.Machine.execRd15Unmapped slot s
  | .wr0Ignored slot v => Sys2Proof.Machine.execWr0Ignored slot v s
  | .wr1Ignored slot v => Sys2Proof.Machine.execWr1Ignored slot v s
  | .wr2Ignored slot v => Sys2Proof.Machine.execWr2Ignored slot v s
  | .wr3Ignored slot v => Sys2Proof.Machine.execWr3Ignored slot v s
  | .wr4MliLo slot v => Sys2Proof.Machine.execWr4MliLo slot v s
  | .wr5MliHi slot v => Sys2Proof.Machine.execWr5MliHi slot v s
  | .wr6Ignored slot v => Sys2Proof.Machine.execWr6Ignored slot v s
  | .wr7Ignored slot v => Sys2Proof.Machine.execWr7Ignored slot v s
  | .wr8Ignored slot v => Sys2Proof.Machine.execWr8Ignored slot v s
  | .wr9Ignored slot v => Sys2Proof.Machine.execWr9Ignored slot v s
  | .wr10Ignored slot v => Sys2Proof.Machine.execWr10Ignored slot v s
  | .wr11Ignored slot v => Sys2Proof.Machine.execWr11Ignored slot v s
  | .wr12Ignored slot v => Sys2Proof.Machine.execWr12Ignored slot v s
  | .wr13Ignored slot v => Sys2Proof.Machine.execWr13Ignored slot v s
  | .wr14Ignored slot v => Sys2Proof.Machine.execWr14Ignored slot v s
  | .wr15Ignored slot v => Sys2Proof.Machine.execWr15Ignored slot v s
  | .status unit addr blk => Sys2Proof.Machine.execStatus unit addr blk s
  | .read unit addr blk => Sys2Proof.Machine.execRead unit addr blk s
  | .write unit addr blk => Sys2Proof.Machine.execWrite unit addr blk s
  | .format unit addr blk => Sys2Proof.Machine.execFormat unit addr blk s
  | .unsupported04To07 x unit addr blk => Sys2Proof.Machine.execUnsupported04To07 x unit addr blk s
  | .unsupported08To0F x unit addr blk => Sys2Proof.Machine.execUnsupported08To0F x unit addr blk s
  | .unsupported10To1F x unit addr blk => Sys2Proof.Machine.execUnsupported10To1F x unit addr blk s
  | .unsupported20To3F x unit addr blk => Sys2Proof.Machine.execUnsupported20To3F x unit addr blk s
  | .unsupported40To7F x unit addr blk => Sys2Proof.Machine.execUnsupported40To7F x unit addr blk s
  | .unsupported80ToFF x unit addr blk => Sys2Proof.Machine.execUnsupported80ToFF x unit addr blk s
  | .nread drive q pad => Sys2Proof.Machine.execNread drive q pad s
  | .nwrite drive q v => Sys2Proof.Machine.execNwrite drive q v s
  | .pwron drive q pad => Sys2Proof.Machine.execPwron drive q pad s
  | .pwroff drive q pad => Sys2Proof.Machine.execPwroff drive q pad s
  | .reset => Sys2Proof.Machine.execReset s
  | .save => Sys2Proof.Machine.execSave s
  | .load snapshot => Sys2Proof.Machine.execLoad snapshot s

end Sys2Proof.Machine
end

