-- ==== Sys2Proof/Machine/Step.lean ====
section
/-! DEFINITION. Machine/Step.lean: one step is one whole transaction.

"every transaction runs to completion before the next begins" (`00_scope.md` R6); "there is exactly one global order of
all transactions on all ports" (`20_memory.md` R69): the list `State.input`. The block starts nothing on its own (R67). -/

namespace Sys2Proof.Machine

/-- A packet is decoded and its operation executed. -/
def runPacket (p : Packet) (s : State) : Host.Outcome State Fault Refusal :=
  match decode p with
  | .ok i => exec i s
  | .error e => s.undecoded e

/-- One step. From `IDLE` the next transaction of the outside world, if there is one; with a call block latched (phase D of
R130, which no step from `IDLE` leaves behind) its command. -/
def step (s : State) : Host.Outcome State Fault Refusal :=
  match s.latched with
  | some c => runPacket (.cmd c) s
  | none =>
    match s.input with
    | [] => .next s
    | t :: rest => runPacket (.port t) (s.accept rest)

/-- `s` with the operation of an opcode-table word where `step` takes its next one: a transaction at the head of the
input with the sequencer in `IDLE`, or a command latched at phase D. -/
def State.withFetchWord (s : State) (nbits w : Nat) : State :=
  match tablePacket nbits w with
  | some (.port t) => { s with input := t :: s.input, latched := none }
  | some (.cmd c) => s.latch c
  | none => s

end Sys2Proof.Machine
end

