-- ==== Sys2Proof/WellFormed.lean ====
section
/-! DEFINITION. WellFormed.lean: which operations are in contract for given parameters.

Every other field of an operation has exactly the width of its encoding, so only the codec's operands can be out of contract:
the drive must be one of the port instances (`00_scope.md` R8, `30_encoding.md` R101) and the quarter-track of `NREAD` and
`NWRITE` must lie in `0 .. 4*NTRACKS - 1` (`43_nibble_codec.md` R165, R171). -/

namespace Sys2Proof

/-- The drive is one of the `NDRIVES` port instances of P4. -/
def Params.hasDrive (p : Params) (drive : Nat) : Bool := decide (drive < p.ndrives)

/-- The legal range of a quarter-track: `0 .. 4*NTRACKS - 1` (R92, R165). -/
def Params.hasQuarterTrack (p : Params) (q : Nat) : Bool := decide (q < 4 * p.ntracks)

/-- The operation is in contract: its drive exists and its quarter-track is in range. -/
def Instr.wf (p : Params) : Instr → Bool
  | .rd0CmdDirect _ => true
  | .rd1CapLo _ => true
  | .rd2CapHi _ => true
  | .rd3CmdIndirect _ => true
  | .rd4Unmapped _ => true
  | .rd5Unmapped _ => true
  | .rd6Unmapped _ => true
  | .rd7Unmapped _ => true
  | .rd8Unmapped _ => true
  | .rd9Unmapped _ => true
  | .rd10Unmapped _ => true
  | .rd11Unmapped _ => true
  | .rd12Unmapped _ => true
  | .rd13Unmapped _ => true
  | .rd14Unmapped _ => true
  | .rd15Unmapped _ => true
  | .wr0Ignored _ _ => true
  | .wr1Ignored _ _ => true
  | .wr2Ignored _ _ => true
  | .wr3Ignored _ _ => true
  | .wr4MliLo _ _ => true
  | .wr5MliHi _ _ => true
  | .wr6Ignored _ _ => true
  | .wr7Ignored _ _ => true
  | .wr8Ignored _ _ => true
  | .wr9Ignored _ _ => true
  | .wr10Ignored _ _ => true
  | .wr11Ignored _ _ => true
  | .wr12Ignored _ _ => true
  | .wr13Ignored _ _ => true
  | .wr14Ignored _ _ => true
  | .wr15Ignored _ _ => true
  | .status _ _ _ => true
  | .read _ _ _ => true
  | .write _ _ _ => true
  | .format _ _ _ => true
  | .unsupported04To07 _ _ _ _ => true
  | .unsupported08To0F _ _ _ _ => true
  | .unsupported10To1F _ _ _ _ => true
  | .unsupported20To3F _ _ _ _ => true
  | .unsupported40To7F _ _ _ _ => true
  | .unsupported80ToFF _ _ _ _ => true
  | .nread drive q _ => p.hasDrive drive && p.hasQuarterTrack q
  | .nwrite drive q _ => p.hasDrive drive && p.hasQuarterTrack q
  | .pwron drive _ _ => p.hasDrive drive
  | .pwroff drive _ _ => p.hasDrive drive
  | .reset => true
  | .save => true
  | .load _ => true

end Sys2Proof
end

