-- ==== Sys2Proof/Safety.lean ====
section
/-! DEFINITION. Safety.lean: the terms statements are written in: the invariant, the contracts software must keep
(`70_reset_and_hazards.md` R242, R246), and what a trigger read fetches, as a function of the state. -/

namespace Sys2Proof.Machine

/-! ### The invariant -/

/-- Parameters that R8 allows: at least one drive, one track and one byte per track; initial tracks in canonical form
with every key on the track. -/
def paramsOk (p : Params) : Bool :=
  decide (1 ≤ p.ndrives) && decide (1 ≤ p.ntracks) && decide (1 ≤ p.trackLen) &&
    p.trkInit.all fun ts => ts.all fun m => m.wf && m.within p.trackLen

/-- `0 <= POS[d] < L` (R24, R165), `NTRACKS` tracks of exactly `L` bytes (R25). -/
def driveOk (p : Params) (d : Drive) : Bool :=
  decide (d.pos < p.trackLen) && decide (d.tracks.length = p.ntracks) &&
    d.tracks.all fun m => m.wf && m.within p.trackLen

/-- What holds between transactions. -/
structure State.Inv (s : State) : Prop where
  cfgOk      : paramsOk s.cfg = true
  driveCount : s.drives.length = s.cfg.ndrives
  drivesOk   : ∀ d ∈ s.drives, driveOk s.cfg d = true
  memWf      : s.mem.wf = true
  memWithin  : s.mem.within 65536 = true
  imageWf    : s.store.image.wf = true
  imageWithin : s.store.image.within (blockSize * s.store.count.toNat) = true
  idle       : s.latched = none

/-! ### Contracts -/

/-- "keep every address SPD will touch outside `IOBASE .. IOBASE+15`" (R242). -/
def addressesClear (p : Params) (as : List Word) : Prop := ∀ a ∈ as, ownPage p a = false

/-- How many of the addresses are not plain RAM. -/
def externalCount (p : Params) (as : List Word) : Nat := as.countP (isExternal p)

/-- "The codec client must keep `q` within `0 .. 4*NTRACKS-1`" (R246), for what the shell does at its next `n` accesses. -/
def State.shellInRange (n : Nat) (s : State) : Prop := ∀ ops ∈ s.shell.take n, firstOutOfRange s.cfg ops = none

/-- Nested accesses of these addresses, one after another, are in contract. -/
def State.accessesClear (as : List Word) (s : State) : Prop :=
  addressesClear s.cfg as ∧ s.shellInRange (externalCount s.cfg as)

/-- The addresses `base +16 k ..` of `n` bytes of a transfer (R58). -/
def bufferAddresses (base : Word) (k n : Nat) : List Word := (List.range' k n).map (offsetBy base)

/-- The nested accesses of a whole transfer are in contract. -/
def State.bufferClear (base : Word) (s : State) : Prop := s.accessesClear (bufferAddresses base 0 blockSize)

/-- The buffer is plain RAM (R52, R155). -/
def bufferPlain (p : Params) (base : Word) : Prop := ∀ k, k < blockSize → isExternal p (offsetBy base k) = false

/-- No address of the buffer. -/
def outsideBuffer (base a : Word) : Prop := ∀ k, k < blockSize → a ≠ offsetBy base k

/-- The operation of port P4 that a codec operation of the shell is (R177). -/
def CodecOp.instr : CodecOp → Instr
  | .read drive q => .nread drive q 0
  | .write drive q v => .nwrite drive q v
  | .powerOn drive => .pwron drive 0 0
  | .powerOff drive => .pwroff drive 0 0

/-! ### What a trigger read fetches -/

/-- The two-byte field at `a` when its low byte is draw number `n` (R90). -/
def State.fieldAt (s : State) (a : Word) (n : Nat) : Word := joinBytes (s.byteAt (offsetBy a 1) (n + 1)) (s.byteAt a n)

/-- The state in which the shell has done what it does at its next `n` accesses. -/
def State.startedN (n : Nat) (s : State) : State :=
  { s with drives := codecRun s.cfg (s.shell.take n).flatten s.drives, shell := s.shell.drop n }

/-- The state after reading guest addresses one after another. -/
def State.afterReads : List Word → State → State
  | [], s => s
  | a :: as, s =>
    State.afterReads as
      { s.started a with draws := s.draws + 1, nested := .memRead a (s.byteAt a s.draws) :: s.nested }

/-- The six fetch addresses of the direct entry, in order (R131). -/
def directAddresses (p : Params) : List Word :=
  [p.dirCmd, p.dirUnit, p.dirAddr, offsetBy p.dirAddr 1, p.dirBlk, offsetBy p.dirBlk 1]

/-- The call block the direct entry fetches (R84, R131). -/
def State.directBlock (s : State) : CallBlock where
  cmd := s.byteAt s.cfg.dirCmd s.draws
  unit := s.byteAt s.cfg.dirUnit (s.draws + 1)
  addr := s.fieldAt s.cfg.dirAddr (s.draws + 2)
  blk := s.fieldAt s.cfg.dirBlk (s.draws + 4)

/-- The parameter-block pointer the indirect entry fetches (R85, R133). -/
def State.indirectPointer (s : State) : Word := s.fieldAt (offsetBy s.mli 2) (s.draws + 1)

/-- The eight fetch addresses of the indirect entry, in order (R133). -/
def State.indirectAddresses (s : State) : List Word :=
  let pb := s.indirectPointer
  [offsetBy s.mli 1, offsetBy s.mli 2, offsetBy (offsetBy s.mli 2) 1, pb + s.cfg.pbUnit,
   pb + s.cfg.pbAddr, offsetBy (pb + s.cfg.pbAddr) 1, pb + s.cfg.pbBlk, offsetBy (pb + s.cfg.pbBlk) 1]

/-- The call block the indirect entry fetches (R85, R86, R133). -/
def State.indirectBlock (s : State) : CallBlock where
  cmd := s.byteAt (offsetBy s.mli 1) s.draws
  unit := s.byteAt (s.indirectPointer + s.cfg.pbUnit) (s.draws + 3)
  addr := s.fieldAt (s.indirectPointer + s.cfg.pbAddr) (s.draws + 4)
  blk := s.fieldAt (s.indirectPointer + s.cfg.pbBlk) (s.draws + 6)

/-- A command's buffer is in contract: only a READ that the store answers, and a WRITE on a writable store, touch it. -/
def commandClear (c : CallBlock) (s : State) : Prop :=
  (c.cmd = 0x01 → s.store.fails c.blk = false → s.bufferClear c.addr) ∧
    (c.cmd = 0x02 → s.store.ro = false → s.bufferClear c.addr)

/-- The result code of a command, "the first that fires decides" (R200, R210). -/
def commandResult (c : CallBlock) (b : BlockStore) : Byte :=
  if c.cmd = 0x00 then noError
  else if c.cmd = 0x01 then (if b.fails c.blk then ioError else noError)
  else if c.cmd = 0x02 then (if b.ro then writeProtected else if b.fails c.blk then ioError else noError)
  else ioError

/-! ### Classes of operations -/

/-- The slot field of an I/O access; no other operation has one. -/
def ioSlot : Instr → Option (BitVec 3)
  | .rd0CmdDirect slot => some slot
  | .rd1CapLo slot => some slot
  | .rd2CapHi slot => some slot
  | .rd3CmdIndirect slot => some slot
  | .rd4Unmapped slot => some slot
  | .rd5Unmapped slot => some slot
  | .rd6Unmapped slot => some slot
  | .rd7Unmapped slot => some slot
  | .rd8Unmapped slot => some slot
  | .rd9Unmapped slot => some slot
  | .rd10Unmapped slot => some slot
  | .rd11Unmapped slot => some slot
  | .rd12Unmapped slot => some slot
  | .rd13Unmapped slot => some slot
  | .rd14Unmapped slot => some slot
  | .rd15Unmapped slot => some slot
  | .wr0Ignored slot _ => some slot
  | .wr1Ignored slot _ => some slot
  | .wr2Ignored slot _ => some slot
  | .wr3Ignored slot _ => some slot
  | .wr4MliLo slot _ => some slot
  | .wr5MliHi slot _ => some slot
  | .wr6Ignored slot _ => some slot
  | .wr7Ignored slot _ => some slot
  | .wr8Ignored slot _ => some slot
  | .wr9Ignored slot _ => some slot
  | .wr10Ignored slot _ => some slot
  | .wr11Ignored slot _ => some slot
  | .wr12Ignored slot _ => some slot
  | .wr13Ignored slot _ => some slot
  | .wr14Ignored slot _ => some slot
  | .wr15Ignored slot _ => some slot
  | .status _ _ _ => none
  | .read _ _ _ => none
  | .write _ _ _ => none
  | .format _ _ _ => none
  | .unsupported04To07 _ _ _ _ => none
  | .unsupported08To0F _ _ _ _ => none
  | .unsupported10To1F _ _ _ _ => none
  | .unsupported20To3F _ _ _ _ => none
  | .unsupported40To7F _ _ _ _ => none
  | .unsupported80ToFF _ _ _ _ => none
  | .nread _ _ _ => none
  | .nwrite _ _ _ => none
  | .pwron _ _ _ => none
  | .pwroff _ _ _ => none
  | .reset => none
  | .save => none
  | .load _ => none

/-- The drive of a codec operation. -/
def nibDrive : Instr → Option Nat
  | .rd0CmdDirect _ => none
  | .rd1CapLo _ => none
  | .rd2CapHi _ => none
  | .rd3CmdIndirect _ => none
  | .rd4Unmapped _ => none
  | .rd5Unmapped _ => none
  | .rd6Unmapped _ => none
  | .rd7Unmapped _ => none
  | .rd8Unmapped _ => none
  | .rd9Unmapped _ => none
  | .rd10Unmapped _ => none
  | .rd11Unmapped _ => none
  | .rd12Unmapped _ => none
  | .rd13Unmapped _ => none
  | .rd14Unmapped _ => none
  | .rd15Unmapped _ => none
  | .wr0Ignored _ _ => none
  | .wr1Ignored _ _ => none
  | .wr2Ignored _ _ => none
  | .wr3Ignored _ _ => none
  | .wr4MliLo _ _ => none
  | .wr5MliHi _ _ => none
  | .wr6Ignored _ _ => none
  | .wr7Ignored _ _ => none
  | .wr8Ignored _ _ => none
  | .wr9Ignored _ _ => none
  | .wr10Ignored _ _ => none
  | .wr11Ignored _ _ => none
  | .wr12Ignored _ _ => none
  | .wr13Ignored _ _ => none
  | .wr14Ignored _ _ => none
  | .wr15Ignored _ _ => none
  | .status _ _ _ => none
  | .read _ _ _ => none
  | .write _ _ _ => none
  | .format _ _ _ => none
  | .unsupported04To07 _ _ _ _ => none
  | .unsupported08To0F _ _ _ _ => none
  | .unsupported10To1F _ _ _ _ => none
  | .unsupported20To3F _ _ _ _ => none
  | .unsupported40To7F _ _ _ _ => none
  | .unsupported80ToFF _ _ _ _ => none
  | .nread drive _ _ => some drive
  | .nwrite drive _ _ => some drive
  | .pwron drive _ _ => some drive
  | .pwroff drive _ _ => some drive
  | .reset => none
  | .save => none
  | .load _ => none

/-- The operation is a trigger read of the card (R19). -/
def isTrigger : Instr → Bool
  | .rd0CmdDirect _ => true
  | .rd1CapLo _ => false
  | .rd2CapHi _ => false
  | .rd3CmdIndirect _ => true
  | .rd4Unmapped _ => false
  | .rd5Unmapped _ => false
  | .rd6Unmapped _ => false
  | .rd7Unmapped _ => false
  | .rd8Unmapped _ => false
  | .rd9Unmapped _ => false
  | .rd10Unmapped _ => false
  | .rd11Unmapped _ => false
  | .rd12Unmapped _ => false
  | .rd13Unmapped _ => false
  | .rd14Unmapped _ => false
  | .rd15Unmapped _ => false
  | .wr0Ignored _ _ => false
  | .wr1Ignored _ _ => false
  | .wr2Ignored _ _ => false
  | .wr3Ignored _ _ => false
  | .wr4MliLo _ _ => false
  | .wr5MliHi _ _ => false
  | .wr6Ignored _ _ => false
  | .wr7Ignored _ _ => false
  | .wr8Ignored _ _ => false
  | .wr9Ignored _ _ => false
  | .wr10Ignored _ _ => false
  | .wr11Ignored _ _ => false
  | .wr12Ignored _ _ => false
  | .wr13Ignored _ _ => false
  | .wr14Ignored _ _ => false
  | .wr15Ignored _ _ => false
  | .status _ _ _ => false
  | .read _ _ _ => false
  | .write _ _ _ => false
  | .format _ _ _ => false
  | .unsupported04To07 _ _ _ _ => false
  | .unsupported08To0F _ _ _ _ => false
  | .unsupported10To1F _ _ _ _ => false
  | .unsupported20To3F _ _ _ _ => false
  | .unsupported40To7F _ _ _ _ => false
  | .unsupported80ToFF _ _ _ _ => false
  | .nread _ _ _ => false
  | .nwrite _ _ _ => false
  | .pwron _ _ _ => false
  | .pwroff _ _ _ => false
  | .reset => false
  | .save => false
  | .load _ => false

/-- The operation may write `MLI` (R21; `RESET` by R231). -/
def writesMli : Instr → Bool
  | .rd0CmdDirect _ => false
  | .rd1CapLo _ => false
  | .rd2CapHi _ => false
  | .rd3CmdIndirect _ => false
  | .rd4Unmapped _ => false
  | .rd5Unmapped _ => false
  | .rd6Unmapped _ => false
  | .rd7Unmapped _ => false
  | .rd8Unmapped _ => false
  | .rd9Unmapped _ => false
  | .rd10Unmapped _ => false
  | .rd11Unmapped _ => false
  | .rd12Unmapped _ => false
  | .rd13Unmapped _ => false
  | .rd14Unmapped _ => false
  | .rd15Unmapped _ => false
  | .wr0Ignored _ _ => false
  | .wr1Ignored _ _ => false
  | .wr2Ignored _ _ => false
  | .wr3Ignored _ _ => false
  | .wr4MliLo _ _ => true
  | .wr5MliHi _ _ => true
  | .wr6Ignored _ _ => false
  | .wr7Ignored _ _ => false
  | .wr8Ignored _ _ => false
  | .wr9Ignored _ _ => false
  | .wr10Ignored _ _ => false
  | .wr11Ignored _ _ => false
  | .wr12Ignored _ _ => false
  | .wr13Ignored _ _ => false
  | .wr14Ignored _ _ => false
  | .wr15Ignored _ _ => false
  | .status _ _ _ => false
  | .read _ _ _ => false
  | .write _ _ _ => false
  | .format _ _ _ => false
  | .unsupported04To07 _ _ _ _ => false
  | .unsupported08To0F _ _ _ _ => false
  | .unsupported10To1F _ _ _ _ => false
  | .unsupported20To3F _ _ _ _ => false
  | .unsupported40To7F _ _ _ _ => false
  | .unsupported80ToFF _ _ _ _ => false
  | .nread _ _ _ => false
  | .nwrite _ _ _ => false
  | .pwron _ _ _ => false
  | .pwroff _ _ _ => false
  | .reset => true
  | .save => false
  | .load _ => true

/-- The operation reads `MLI` (R21), or keeps one half of it (R113, R114). -/
def readsMli : Instr → Bool
  | .rd0CmdDirect _ => false
  | .rd1CapLo _ => false
  | .rd2CapHi _ => false
  | .rd3CmdIndirect _ => true
  | .rd4Unmapped _ => false
  | .rd5Unmapped _ => false
  | .rd6Unmapped _ => false
  | .rd7Unmapped _ => false
  | .rd8Unmapped _ => false
  | .rd9Unmapped _ => false
  | .rd10Unmapped _ => false
  | .rd11Unmapped _ => false
  | .rd12Unmapped _ => false
  | .rd13Unmapped _ => false
  | .rd14Unmapped _ => false
  | .rd15Unmapped _ => false
  | .wr0Ignored _ _ => false
  | .wr1Ignored _ _ => false
  | .wr2Ignored _ _ => false
  | .wr3Ignored _ _ => false
  | .wr4MliLo _ _ => true
  | .wr5MliHi _ _ => true
  | .wr6Ignored _ _ => false
  | .wr7Ignored _ _ => false
  | .wr8Ignored _ _ => false
  | .wr9Ignored _ _ => false
  | .wr10Ignored _ _ => false
  | .wr11Ignored _ _ => false
  | .wr12Ignored _ _ => false
  | .wr13Ignored _ _ => false
  | .wr14Ignored _ _ => false
  | .wr15Ignored _ _ => false
  | .status _ _ _ => false
  | .read _ _ _ => false
  | .write _ _ _ => false
  | .format _ _ _ => false
  | .unsupported04To07 _ _ _ _ => false
  | .unsupported08To0F _ _ _ _ => false
  | .unsupported10To1F _ _ _ _ => false
  | .unsupported20To3F _ _ _ _ => false
  | .unsupported40To7F _ _ _ _ => false
  | .unsupported80ToFF _ _ _ _ => false
  | .nread _ _ _ => false
  | .nwrite _ _ _ => false
  | .pwron _ _ _ => false
  | .pwroff _ _ _ => false
  | .reset => false
  | .save => true
  | .load _ => false

/-- The operation itself may write the nibble tracks or a cursor (R43; `RESET` by R232, R233). What the shell does at a nested
access of a trigger read, a READ or a WRITE (R177) is not counted. -/
def writesDrives : Instr → Bool
  | .rd0CmdDirect _ => false
  | .rd1CapLo _ => false
  | .rd2CapHi _ => false
  | .rd3CmdIndirect _ => false
  | .rd4Unmapped _ => false
  | .rd5Unmapped _ => false
  | .rd6Unmapped _ => false
  | .rd7Unmapped _ => false
  | .rd8Unmapped _ => false
  | .rd9Unmapped _ => false
  | .rd10Unmapped _ => false
  | .rd11Unmapped _ => false
  | .rd12Unmapped _ => false
  | .rd13Unmapped _ => false
  | .rd14Unmapped _ => false
  | .rd15Unmapped _ => false
  | .wr0Ignored _ _ => false
  | .wr1Ignored _ _ => false
  | .wr2Ignored _ _ => false
  | .wr3Ignored _ _ => false
  | .wr4MliLo _ _ => false
  | .wr5MliHi _ _ => false
  | .wr6Ignored _ _ => false
  | .wr7Ignored _ _ => false
  | .wr8Ignored _ _ => false
  | .wr9Ignored _ _ => false
  | .wr10Ignored _ _ => false
  | .wr11Ignored _ _ => false
  | .wr12Ignored _ _ => false
  | .wr13Ignored _ _ => false
  | .wr14Ignored _ _ => false
  | .wr15Ignored _ _ => false
  | .status _ _ _ => false
  | .read _ _ _ => false
  | .write _ _ _ => false
  | .format _ _ _ => false
  | .unsupported04To07 _ _ _ _ => false
  | .unsupported08To0F _ _ _ _ => false
  | .unsupported10To1F _ _ _ _ => false
  | .unsupported20To3F _ _ _ _ => false
  | .unsupported40To7F _ _ _ _ => false
  | .unsupported80ToFF _ _ _ _ => false
  | .nread _ _ _ => true
  | .nwrite _ _ _ => true
  | .pwron _ _ _ => false
  | .pwroff _ _ _ => false
  | .reset => true
  | .save => false
  | .load _ => false

/-- The operation may call the store, and write guest memory from it: the trigger reads, READ and WRITE (R64). -/
def movesBlocks : Instr → Bool
  | .rd0CmdDirect _ => true
  | .rd1CapLo _ => false
  | .rd2CapHi _ => false
  | .rd3CmdIndirect _ => true
  | .rd4Unmapped _ => false
  | .rd5Unmapped _ => false
  | .rd6Unmapped _ => false
  | .rd7Unmapped _ => false
  | .rd8Unmapped _ => false
  | .rd9Unmapped _ => false
  | .rd10Unmapped _ => false
  | .rd11Unmapped _ => false
  | .rd12Unmapped _ => false
  | .rd13Unmapped _ => false
  | .rd14Unmapped _ => false
  | .rd15Unmapped _ => false
  | .wr0Ignored _ _ => false
  | .wr1Ignored _ _ => false
  | .wr2Ignored _ _ => false
  | .wr3Ignored _ _ => false
  | .wr4MliLo _ _ => false
  | .wr5MliHi _ _ => false
  | .wr6Ignored _ _ => false
  | .wr7Ignored _ _ => false
  | .wr8Ignored _ _ => false
  | .wr9Ignored _ _ => false
  | .wr10Ignored _ _ => false
  | .wr11Ignored _ _ => false
  | .wr12Ignored _ _ => false
  | .wr13Ignored _ _ => false
  | .wr14Ignored _ _ => false
  | .wr15Ignored _ _ => false
  | .status _ _ _ => false
  | .read _ _ _ => true
  | .write _ _ _ => true
  | .format _ _ _ => false
  | .unsupported04To07 _ _ _ _ => false
  | .unsupported08To0F _ _ _ _ => false
  | .unsupported10To1F _ _ _ _ => false
  | .unsupported20To3F _ _ _ _ => false
  | .unsupported40To7F _ _ _ _ => false
  | .unsupported80ToFF _ _ _ _ => false
  | .nread _ _ _ => false
  | .nwrite _ _ _ => false
  | .pwron _ _ _ => false
  | .pwroff _ _ _ => false
  | .reset => false
  | .save => false
  | .load _ => false

/-- The operation is in contract in this state: it is well formed, and what SPD will touch is clear of the card's own I/O
page, and what the shell does at its accesses is in range (R242, R246). -/
def State.inContract (s : State) (i : Instr) : Prop :=
  i.wf s.cfg = true ∧
    match i with
    | .rd0CmdDirect slot => slot = s.cfg.slot →
        s.accessesClear (directAddresses s.cfg) ∧ commandClear s.directBlock (s.afterReads (directAddresses s.cfg))
    | .rd1CapLo _ => True
    | .rd2CapHi _ => True
    | .rd3CmdIndirect slot => slot = s.cfg.slot →
        s.accessesClear s.indirectAddresses ∧ commandClear s.indirectBlock (s.afterReads s.indirectAddresses)
    | .rd4Unmapped _ => True
    | .rd5Unmapped _ => True
    | .rd6Unmapped _ => True
    | .rd7Unmapped _ => True
    | .rd8Unmapped _ => True
    | .rd9Unmapped _ => True
    | .rd10Unmapped _ => True
    | .rd11Unmapped _ => True
    | .rd12Unmapped _ => True
    | .rd13Unmapped _ => True
    | .rd14Unmapped _ => True
    | .rd15Unmapped _ => True
    | .wr0Ignored _ _ => True
    | .wr1Ignored _ _ => True
    | .wr2Ignored _ _ => True
    | .wr3Ignored _ _ => True
    | .wr4MliLo _ _ => True
    | .wr5MliHi _ _ => True
    | .wr6Ignored _ _ => True
    | .wr7Ignored _ _ => True
    | .wr8Ignored _ _ => True
    | .wr9Ignored _ _ => True
    | .wr10Ignored _ _ => True
    | .wr11Ignored _ _ => True
    | .wr12Ignored _ _ => True
    | .wr13Ignored _ _ => True
    | .wr14Ignored _ _ => True
    | .wr15Ignored _ _ => True
    | .status _ _ _ => True
    | .read _ addr blk => s.store.fails blk = false → s.bufferClear addr
    | .write _ addr _ => s.store.ro = false → s.bufferClear addr
    | .format _ _ _ => True
    | .unsupported04To07 _ _ _ _ => True
    | .unsupported08To0F _ _ _ _ => True
    | .unsupported10To1F _ _ _ _ => True
    | .unsupported20To3F _ _ _ _ => True
    | .unsupported40To7F _ _ _ _ => True
    | .unsupported80ToFF _ _ _ _ => True
    | .nread _ _ _ => True
    | .nwrite _ _ _ => True
    | .pwron _ _ _ => True
    | .pwroff _ _ _ => True
    | .reset => True
    | .save => True
    | .load _ => True

/-! ### Runs -/

/-- Operations one after another, stopping at the first fault or refusal. -/
def execAll : List Instr → State → Host.Outcome State Fault Refusal
  | [], s => .next s
  | i :: rest, s =>
    match exec i s with
    | .next t => execAll rest t
    | .fault f => .fault f
    | .refused r => .refused r

/-- A step that goes on. -/
def SafeStep (s : State) : Prop := ∃ t, step s = .next t

end Sys2Proof.Machine
end

