-- ==== Sys2Proof/Certificates/Slice0/Obligations.lean ====
section
/-! DEFINITION. Obligations.lean: the statements for the provers. Each docstring names the rule or the section of the spec it
formalises; "model's choice" marks a clause that rests on a log entry. Literals (`0x27`, `512`, `% 256`) are written out as
the spec's text has them. -/

open Sys2Proof Sys2Proof.Machine

/-! ### Encodings -/

/-- `30_encoding.md` sections 1 and 3: no bit of an encoding is dropped. -/
def Obligations.DecodeOfEncodeIsTheOperation : Prop :=
  ∀ i : Instr, decode (encode i) = .ok i

/-- `30_encoding.md` sections 1 and 3: an operation has one encoding, the words it was decoded from. -/
def Obligations.EncodeOfDecodeIsTheWords : Prop :=
  ∀ (p : Packet) (i : Instr), decode p = .ok i → encode i = p

/-- Words of `95_test_vectors.md` sections 2.1 and 3 and of `30_encoding.md` R80, R87, R101 (slots 0, 1 and 7). -/
def Obligations.WordsOfTheVectorsDecode : Prop :=
  decode (.port (.io 0x0C0F0 none)) = .ok (.rd0CmdDirect 7) ∧
  decode (.port (.io 0x0C083 none)) = .ok (.rd3CmdIndirect 0) ∧
  decode (.port (.io 0x0C0F1 none)) = .ok (.rd1CapLo 7) ∧
  decode (.port (.io 0x0C099 none)) = .ok (.rd9Unmapped 1) ∧
  decode (.port (.io 0x1C0F4 (some 0x02))) = .ok (.wr4MliLo 7 0x02) ∧
  decode (.port (.io 0x1C095 (some 0xFF))) = .ok (.wr5MliHi 1 0xFF) ∧
  decode (.port (.io 0x1C090 (some 0x02))) = .ok (.wr0Ignored 1 0x02) ∧
  decode (.cmd ⟨0x01, 0x70, 0x2000, 0x0002⟩) = .ok (.read 0x70 0x2000 0x0002) ∧
  decode (.cmd ⟨0x81, 0x70, 0x2000, 0x0002⟩) = .ok (.unsupported80ToFF 0x01 0x70 0x2000 0x0002) ∧
  decode (.port (.nib 0 0x00300 0)) = .ok (.nread 0 3 0) ∧
  decode (.port (.nib 0 0x105EE 0)) = .ok (.nwrite 0 5 0xEE) ∧
  decode (.port (.nib 0 0x105EE 1)) = .ok (.nwrite 0 261 0xEE) ∧
  decode (.port (.nib 0 0x30000 0)) = .ok (.pwroff 0 0 0) ∧
  decode (.port (.host 0b01 none)) = .ok .save ∧
  decode (.port (.host 0b10 (some 0xBEEF))) = .ok (.load 0xBEEF) ∧
  decode (.port (.io 0x0C07F none)) = .error (.notIoPage 0xC07F none)

/-- `20_memory.md` R65 and `30_encoding.md` R80: the word is `w` above the address `0xC080 + SLOT*0x10 + o`, and the card's own
page is that address range. The formula at slot 0 is the spec's decision D22. -/
def Obligations.IoWordCarriesTheAddress : Prop :=
  (∀ (w : BitVec 1) (slot : BitVec 3) (o : BitVec 4),
    (ioWord w slot o).toNat = w.toNat * 65536 + (0xC080 + slot.toNat * 0x10 + o.toNat)) ∧
  (∀ (p : Params) (a : Word),
    ownPage p a = true ↔ ∃ o : BitVec 4, a.toNat = 0xC080 + p.slot.toNat * 0x10 + o.toNat)

/-- `30_encoding.md` R81, "The block is selected when `A[15:7] = 0b110000001` and `A[6:4] = SLOT`; any other address is not the
block's and has no effect on it. Then `(w, o)` selects the handler ...; every other pair is absent. Decoding uses nothing
but `w` and `o`". What an absent pair does is the spec's decisions D3 and D4 (log entries 23 and 8); that guest memory answers an
access which is not the card's is the model's choice (log entry 13). -/
def Obligations.HandlersAreSelectedByDirectionAndOffset : Prop :=
  (∀ (s : State) (word : BitVec 17) (data : Option Byte) (rest : List Txn),
    s.latched = none → s.input = .io word data :: rest → (data.isSome = true ↔ word.extractLsb' 16 1 = 1) →
    word.extractLsb' 7 9 ≠ 0b110000001 ∨ word.extractLsb' 4 3 ≠ s.cfg.slot →
    ∃ t, step s = .next t ∧ t = { s with input := rest, nested := [], out := t.out, mem := t.mem, draws := t.draws }) ∧
  (∀ (slot : BitVec 3) (v : Byte),
    decode (.port (.io (ioWord 0 slot 0) none)) = .ok (.rd0CmdDirect slot) ∧
    decode (.port (.io (ioWord 0 slot 1) none)) = .ok (.rd1CapLo slot) ∧
    decode (.port (.io (ioWord 0 slot 2) none)) = .ok (.rd2CapHi slot) ∧
    decode (.port (.io (ioWord 0 slot 3) none)) = .ok (.rd3CmdIndirect slot) ∧
    decode (.port (.io (ioWord 1 slot 4) (some v))) = .ok (.wr4MliLo slot v) ∧
    decode (.port (.io (ioWord 1 slot 5) (some v))) = .ok (.wr5MliHi slot v)) ∧
  (∀ (s : State) (o : BitVec 4), o ≠ 0 → o ≠ 1 → o ≠ 2 → o ≠ 3 →
    ∃ i, decode (.port (.io (ioWord 0 s.cfg.slot o) none)) = .ok i ∧
      exec i s = .next { s with out := .byte (Config.draw8 s.draws), draws := s.draws + 1 }) ∧
  (∀ (s : State) (o : BitVec 4) (v : Byte), o ≠ 4 → o ≠ 5 →
    ∃ i, decode (.port (.io (ioWord 1 s.cfg.slot o) (some v))) = .ok i ∧ exec i s = .next { s with out := .silent })

/-! ### A step -/

/-- `20_memory.md` section 6 (R69): from `IDLE`, a step is the decoded operation of the next transaction, on the state in which that
transaction is taken from the input and its response and its nested accesses start empty. -/
def Obligations.StepRunsTheDecodedTransaction : Prop :=
  ∀ (s : State) (x : Txn) (rest : List Txn) (i : Instr),
    s.latched = none → s.input = x :: rest → decode (.port x) = .ok i →
    step s = exec i { s with input := rest, out := .silent, nested := [] }

/-- `41_command_dispatch.md` R130: with a call block latched (phase D), a step is its command (that it can be stepped on its own is
the model's choice, log entry 11). -/
def Obligations.StepRunsTheLatchedCommand : Prop :=
  ∀ (s : State) (c : CallBlock) (i : Instr), s.latched = some c → decode (.cmd c) = .ok i → step s = exec i s

/-- `20_memory.md` R67, `60_exceptions.md` R209: "the block starts nothing on its own"; without a transaction nothing changes. -/
def Obligations.NothingHappensWithoutATransaction : Prop :=
  ∀ s : State, s.latched = none → s.input = [] → step s = .next s

/-- `20_memory.md` section 6: transactions are taken one at a time, in the order of the input, and none of the operations looks at the
later ones. -/
def Obligations.TransactionsAreTakenInOrder : Prop :=
  (∀ (s t : State) (x : Txn) (rest : List Txn),
    s.latched = none → s.input = x :: rest → step s = .next t → t.input = rest) ∧
  (∀ (i : Instr) (s t : State) (later : List Txn),
    exec i s = .next t → exec i { s with input := later } = .next { t with input := later })

/-- `30_encoding.md` R101: the `HOST` word 3 is "unused"; what is no transaction of a format is refused by name. -/
def Obligations.UnusedAndMalformedTransactionsAreRefused : Prop :=
  ∀ (s : State) (rest : List Txn), s.latched = none →
    (∀ snapshot, s.input = .host 3 snapshot :: rest → step s = .refused .unusedHostWord) ∧
    (s.input = .host 2 none :: rest → step s = .refused .malformedTransaction) ∧
    (∀ m, s.input = .host 0 (some m) :: rest → step s = .refused .malformedTransaction) ∧
    (∀ m, s.input = .host 1 (some m) :: rest → step s = .refused .malformedTransaction) ∧
    (∀ slot o v, s.input = .io (ioWord 0 slot o) (some v) :: rest → step s = .refused .malformedTransaction) ∧
    (∀ slot o, s.input = .io (ioWord 1 slot o) none :: rest → step s = .refused .malformedTransaction)

/-! ### Reset and the invariant -/

/-- `70_reset_and_hazards.md` R231 to R236 (the spec's own decisions D15, D16): what reset leaves. The parameters, guest memory and the
store of the reset state are the model's choices (log entries 1 to 6) and are not stated here. -/
def Obligations.ResetStateIsCleared : Prop :=
  State.reset.mli = 0x0000 ∧ State.reset.latched = none ∧
  State.reset.drives.length = State.reset.cfg.ndrives ∧
  (∀ d ∈ State.reset.drives, d.pos = 0)

/-- `70_reset_and_hazards.md` R230 to R235 (decisions D15, D16): `RESET` is reconstruction: `MLI` and every cursor 0, every track
`TRK_INIT`, the sequencer `IDLE`; everything else as it was. -/
def Obligations.ResetReconstructsTheBlock : Prop :=
  ∀ s : State, ∃ t, exec .reset s = .next t ∧
    t = { s with mli := 0, drives := t.drives, latched := none, out := .silent } ∧
    t.drives.length = s.cfg.ndrives ∧
    ∀ n, n < s.cfg.ndrives → ∃ d, t.drives[n]? = some d ∧ d.pos = 0 ∧ d.tracks.length = s.cfg.ntracks ∧
      ∀ k, k < s.cfg.ntracks → ∀ p, d.byteAt k p = ((s.cfg.trkInit.getD n []).getD k []).read p

/-- The invariant holds at reset (tier 1 companion of `EveryStepKeepsTheInvariant`). -/
def Obligations.ResetStateMeetsTheInvariant : Prop :=
  State.reset.Inv

/-- `10_state.md` R24, R25, R27 and `43_nibble_codec.md` R165: between transactions SPD is in `IDLE`, `0 <= POS[d] < L`, every
drive has `NTRACKS` tracks of `L` bytes, and the memories are in canonical form (the model's representation). -/
def Obligations.EveryStepKeepsTheInvariant : Prop :=
  ∀ s t : State, s.Inv → step s = .next t → t.Inv

/-! ### The I/O page -/

/-- `40_softswitch_access.md` R111, R112 and `30_encoding.md` R91: the two capacity reads return `BsCount mod 256` and
`BsCount div 256` and change nothing, and nothing changes the count. -/
def Obligations.CapacityReadsReturnTheCount : Prop :=
  (∀ slot : BitVec 3,
    decode (.port (.io (ioWord 0 slot 1) none)) = .ok (.rd1CapLo slot) ∧
    decode (.port (.io (ioWord 0 slot 2) none)) = .ok (.rd2CapHi slot)) ∧
  (∀ s : State,
    exec (.rd1CapLo s.cfg.slot) s = .next { s with out := .byte (BitVec.ofNat 8 (s.store.count.toNat % 256)) } ∧
    exec (.rd2CapHi s.cfg.slot) s = .next { s with out := .byte (BitVec.ofNat 8 (s.store.count.toNat / 256)) }) ∧
  (∀ s t : State, step s = .next t → t.store.count = s.store.count)

/-- `40_softswitch_access.md` R113, R114: each `MLI` write replaces its half, preserves the other, and changes nothing else. -/
def Obligations.MliWritesReplaceOneHalf : Prop :=
  (∀ (slot : BitVec 3) (v : Byte),
    decode (.port (.io (ioWord 1 slot 4) (some v))) = .ok (.wr4MliLo slot v) ∧
    decode (.port (.io (ioWord 1 slot 5) (some v))) = .ok (.wr5MliHi slot v)) ∧
  (∀ (s : State) (v : Byte),
    exec (.wr4MliLo s.cfg.slot v) s =
      .next { s with mli := BitVec.ofNat 16 (s.mli.toNat / 256 * 256 + v.toNat), out := .silent } ∧
    exec (.wr5MliHi s.cfg.slot v) s =
      .next { s with mli := BitVec.ofNat 16 (v.toNat * 256 + s.mli.toNat % 256), out := .silent })

/-- `30_encoding.md` R89: after `WR 4, lo` and `WR 5, hi` in either order, with no other write of `MLI` in between,
`MLI = hi*256 + lo`; each write replaces exactly 8 bits. -/
def Obligations.MliIsAssembledFromTwoWrites : Prop :=
  (∀ (s : State) (v : Byte),
    (∃ t, exec (.wr4MliLo s.cfg.slot v) s = .next t ∧ t.mli = s.mli.extractLsb' 8 8 ++ v) ∧
    (∃ t, exec (.wr5MliHi s.cfg.slot v) s = .next t ∧ t.mli = v ++ s.mli.extractLsb' 0 8)) ∧
  (∀ (s t u : State) (lo hi : Byte) (between : List Instr), (∀ i ∈ between, writesMli i = false) →
    exec (.wr4MliLo s.cfg.slot lo) s = .next t → execAll between t = .next u →
    ∃ r, exec (.wr5MliHi s.cfg.slot hi) u = .next r ∧ r.mli.toNat = hi.toNat * 256 + lo.toNat) ∧
  (∀ (s t u : State) (lo hi : Byte) (between : List Instr), (∀ i ∈ between, writesMli i = false) →
    exec (.wr5MliHi s.cfg.slot hi) s = .next t → execAll between t = .next u →
    ∃ r, exec (.wr4MliLo s.cfg.slot lo) u = .next r ∧ r.mli.toNat = hi.toNat * 256 + lo.toNat)

/-- `40_softswitch_access.md` R115 (decisions D3, D4): a read with no handler returns a fresh draw and changes no state of the block.
It holds for every value of the draw. -/
def Obligations.UnmappedReadsReturnADraw : Prop :=
  ∀ s : State, ∀ read ∈ [Instr.rd4Unmapped, Instr.rd5Unmapped, Instr.rd6Unmapped, Instr.rd7Unmapped, Instr.rd8Unmapped,
      Instr.rd9Unmapped, Instr.rd10Unmapped, Instr.rd11Unmapped, Instr.rd12Unmapped, Instr.rd13Unmapped,
      Instr.rd14Unmapped, Instr.rd15Unmapped],
    exec (read s.cfg.slot) s = .next { s with out := .byte (Config.draw8 s.draws), draws := s.draws + 1 }

/-- `40_softswitch_access.md` R116 (decision D3): "writes are ignored"; writes at 0 and 3 start no command. -/
def Obligations.IgnoredWritesChangeNothing : Prop :=
  ∀ (s : State) (v : Byte), ∀ write ∈ [Instr.wr0Ignored, Instr.wr1Ignored, Instr.wr2Ignored, Instr.wr3Ignored, Instr.wr6Ignored,
      Instr.wr7Ignored, Instr.wr8Ignored, Instr.wr9Ignored, Instr.wr10Ignored, Instr.wr11Ignored,
      Instr.wr12Ignored, Instr.wr13Ignored, Instr.wr14Ignored, Instr.wr15Ignored],
    exec (write s.cfg.slot v) s = .next { s with out := .silent }

/-- `30_encoding.md` R81, `40_softswitch_access.md` R117: an access in another slot's page has no effect on the block, whatever the
operation: `MLI`, the tracks, the store, the sequencer and the parameters stay, and SPD makes no access. -/
def Obligations.OtherSlotsHaveNoEffect : Prop :=
  ∀ (i : Instr) (s : State) (slot : BitVec 3), ioSlot i = some slot → slot ≠ s.cfg.slot →
    ∃ t, exec i s = .next t ∧ t = { s with out := t.out, mem := t.mem, draws := t.draws }

/-- `20_memory.md` section 6 (R69(c): "every read returns the value of the latest write before it") and R73: a guest access that is
not the card's reaches guest memory: a read answers its byte, a write of plain RAM stores one byte and leaves every other byte
alone. That such an access is answered by the model's guest memory is the model's choice (log entry 13). -/
def Obligations.GuestAccessesReachGuestMemory : Prop :=
  ∀ (s : State) (word : BitVec 17) (rest : List Txn), s.latched = none →
    word.extractLsb' 7 9 ≠ 0b110000001 ∨ word.extractLsb' 4 3 ≠ s.cfg.slot →
    let a : Word := word.extractLsb' 0 16
    (word.extractLsb' 16 1 = 0 → s.input = .io word none :: rest →
      step s = .next { s with
        input := rest, nested := [], out := .byte (s.byteAt a s.draws), draws := s.draws + 1 }) ∧
    (∀ v, word.extractLsb' 16 1 = 1 → s.input = .io word (some v) :: rest →
      ∃ t, step s = .next t ∧ t = { s with input := rest, nested := [], out := .silent, mem := t.mem } ∧
        (s.mem.wf = true → isExternal s.cfg a = false → t.mem.read a.toNat = v) ∧
        (isExternal s.cfg a = true → t.mem = s.mem) ∧
        ∀ b : Word, b ≠ a → t.mem.read b.toNat = s.mem.read b.toNat)

/-! ### Commands -/

/-- `41_command_dispatch.md` R136: STATUS returns `0x00`, reads nothing further and writes nothing. -/
def Obligations.StatusReturnsNoError : Prop :=
  (∀ (unit : Byte) (addr blk : Word), decode (.cmd ⟨0x00, unit, addr, blk⟩) = .ok (.status unit addr blk)) ∧
  (∀ (unit : Byte) (addr blk : Word) (s : State),
    exec (.status unit addr blk) s = .next { s with out := .byte 0x00, latched := none })

/-- `41_command_dispatch.md` R139 (decision D13, conflict C1): FORMAT is named and not dispatched: `0x27`, nothing else. -/
def Obligations.FormatReturnsIoError : Prop :=
  (∀ (unit : Byte) (addr blk : Word), decode (.cmd ⟨0x03, unit, addr, blk⟩) = .ok (.format unit addr blk)) ∧
  (∀ (unit : Byte) (addr blk : Word) (s : State),
    exec (.format unit addr blk) s = .next { s with out := .byte 0x27, latched := none })

/-- `41_command_dispatch.md` R140: "An unsupported command code (e.g. `4`) on both the direct and indirect entry points returns
`IOError` and performs no block transfer." -/
def Obligations.UnsupportedCommandsReturnIoError : Prop :=
  (∀ c : CallBlock, 4 ≤ c.cmd.toNat →
    ∃ i, decode (.cmd c) = .ok i ∧ ∀ s : State, exec i s = .next { s with out := .byte 0x27, latched := none }) ∧
  (∀ (unit : Byte) (addr blk : Word) (s : State),
    (∀ x, exec (.unsupported04To07 x unit addr blk) s = .next { s with out := .byte 0x27, latched := none }) ∧
    (∀ x, exec (.unsupported08To0F x unit addr blk) s = .next { s with out := .byte 0x27, latched := none }) ∧
    (∀ x, exec (.unsupported10To1F x unit addr blk) s = .next { s with out := .byte 0x27, latched := none }) ∧
    (∀ x, exec (.unsupported20To3F x unit addr blk) s = .next { s with out := .byte 0x27, latched := none }) ∧
    (∀ x, exec (.unsupported40To7F x unit addr blk) s = .next { s with out := .byte 0x27, latched := none }) ∧
    (∀ x, exec (.unsupported80ToFF x unit addr blk) s = .next { s with out := .byte 0x27, latched := none })) ∧
  (∀ s : State, 4 ≤ s.directBlock.cmd.toNat → s.accessesClear (directAddresses s.cfg) →
    exec (.rd0CmdDirect s.cfg.slot) s =
      .next { s.afterReads (directAddresses s.cfg) with out := .byte 0x27, latched := none }) ∧
  (∀ s : State, 4 ≤ s.indirectBlock.cmd.toNat → s.accessesClear s.indirectAddresses →
    exec (.rd3CmdIndirect s.cfg.slot) s =
      .next { s.afterReads s.indirectAddresses with out := .byte 0x27, latched := none })

/-- `41_command_dispatch.md` R135: the routing, on all 8 bits of `cmd`; it is the execution of the decoded command. That `unit` takes
no part is the spec's decision D12 (R143), that byte 3 gives `0x27` its decision D13 (R139): log entry 16. -/
def Obligations.DispatchRoutesOnTheCommandByte : Prop :=
  ∀ (c : CallBlock) (s : State),
    dispatch c s =
      (if c.cmd = 0x00 then .next { s with out := .byte 0x00, latched := none }
       else if c.cmd = 0x01 then exec (.read c.unit c.addr c.blk) s
       else if c.cmd = 0x02 then exec (.write c.unit c.addr c.blk) s
       else .next { s with out := .byte 0x27, latched := none }) ∧
    dispatch c s = exec (decodeCommand c) s ∧
    ∀ unit : Byte, dispatch { c with unit := unit } s = dispatch c s

/-- `00_scope.md` R16(3), `20_memory.md` R53 (decision D14): "Whether a given call fails is the store's decision". A chosen answer
decides the call, for every block, wherever it stands among the answers of other calls (the first of two for one call counts); a call
with none is the reference store's. Within the capacity a read returns the block
(R53's law); beyond it, whatever the store chose. The form of the choice is the model's (log entry 9). -/
def Obligations.StoreAnswersAreTheStoresDecision : Prop :=
  ∀ (b : BlockStore) (i : Word),
    (∀ pre left rest, b.answers = pre ++ ⟨b.calls, .fail left⟩ :: rest → (∀ a ∈ pre, a.call ≠ b.calls) → b.fails i = true) ∧
    (∀ pre data rest, b.answers = pre ++ ⟨b.calls, .ok data⟩ :: rest → (∀ a ∈ pre, a.call ≠ b.calls) →
      b.fails i = false ∧ (b.count.toNat ≤ i.toNat → data.length = 512 → b.block i = data)) ∧
    ((∀ a ∈ b.answers, a.call ≠ b.calls) → (b.fails i = true ↔ b.count.toNat ≤ i.toNat)) ∧
    (i.toNat < b.count.toNat → b.block i = (List.range 512).map fun k => b.image.read (512 * i.toNat + k)) ∧
    (b.block i).length = 512

/-- `42_block_transfer.md` R151 (decisions D10, D11): READ of a block the store yields: the 512 bytes go to `dest +16 k` where that is plain
RAM, in ascending order after the store's answer; every other byte of guest memory and everything else is unchanged, but for
the codec operations that accesses outside plain RAM start (R177; log entry 30). That a write there stores nothing is the
model's (log entry 4), and so is what a store that answers `Ok` beyond its capacity returns (log entry 9). -/
def Obligations.ReadCopiesTheBlock : Prop :=
  ∀ (unit : Byte) (addr blk : Word) (s : State),
    s.mem.wf = true → s.bufferClear addr → s.store.fails blk = false →
    let n := externalCount s.cfg (bufferAddresses addr 0 512)
    ∃ t b, exec (.read unit addr blk) s = .next t ∧ s.store.block blk = b ∧
      (blk.toNat < s.store.count.toNat → ∀ k, k < 512 → b.getD k 0 = s.store.image.read (512 * blk.toNat + k)) ∧
      (∀ k, k < 512 → isExternal s.cfg (offsetBy addr k) = false → t.mem.read (offsetBy addr k).toNat = b.getD k 0) ∧
      (∀ a : Word, isExternal s.cfg a = true ∨ outsideBuffer addr a → t.mem.read a.toNat = s.mem.read a.toNat) ∧
      t = { s with
        mem := t.mem
        store := { s.store with calls := s.store.calls + 1 }
        latched := none
        out := .byte 0x00
        drives := codecRun s.cfg (s.shell.take n).flatten s.drives
        shell := s.shell.drop n
        nested :=
          ((List.range 512).map fun k => Access.memWrite (offsetBy addr k) (b.getD k 0)).reverse ++
          .bsRead blk true :: s.nested }

/-- `42_block_transfer.md` R151, R152(a), `60_exceptions.md` R214: on `Fail` the result is `0x27` and guest memory is untouched,
whatever the buffer. -/
def Obligations.FailedReadTouchesNothing : Prop :=
  ∀ (unit : Byte) (addr blk : Word) (s : State), s.store.fails blk = true →
    exec (.read unit addr blk) s = .next { s with
      store := { s.store with calls := s.store.calls + 1 }
      latched := none
      out := .byte 0x27
      nested := .bsRead blk false :: s.nested }

/-- `60_exceptions.md` R204: WRITE on a read-only store returns `0x2B`; "The store is not called and guest memory is not read." -/
def Obligations.WriteToReadOnlyStoreIsProtected : Prop :=
  ∀ (unit : Byte) (addr blk : Word) (s : State), s.store.ro = true →
    exec (.write unit addr blk) s = .next { s with out := .byte 0x2B, latched := none }

/-- `42_block_transfer.md` R153 (decisions D10, D11): WRITE that the store accepts: block `blk` becomes the 512 bytes gathered from
`src +16 k`; every other byte of the store, guest memory and everything else is unchanged, but for the codec operations that
accesses outside plain RAM start (R177; log entry 30). A store that answers `Ok` beyond its capacity has no such block (R41;
log entry 9). -/
def Obligations.WriteStoresTheBlock : Prop :=
  ∀ (unit : Byte) (addr blk : Word) (s : State),
    s.store.image.wf = true → s.store.ro = false → s.bufferClear addr → s.store.fails blk = false →
    let n := externalCount s.cfg (bufferAddresses addr 0 512)
    ∃ t, exec (.write unit addr blk) s = .next t ∧
      (blk.toNat < s.store.count.toNat →
        ∀ k, k < 512 → t.store.image.read (512 * blk.toNat + k) = s.byteAt (offsetBy addr k) (s.draws + k)) ∧
      (s.store.count.toNat ≤ blk.toNat → t.store.image = s.store.image) ∧
      (∀ x, x < 512 * blk.toNat ∨ 512 * blk.toNat + 512 ≤ x → t.store.image.read x = s.store.image.read x) ∧
      t = { s with
        store := { s.store with calls := s.store.calls + 1, image := t.store.image }
        latched := none
        out := .byte 0x00
        draws := s.draws + 512
        drives := codecRun s.cfg (s.shell.take n).flatten s.drives
        shell := s.shell.drop n
        nested :=
          .bsWrite blk true ::
          (((List.range 512).map fun k =>
            Access.memRead (offsetBy addr k) (s.byteAt (offsetBy addr k) (s.draws + k))).reverse ++ s.nested) }

/-- `42_block_transfer.md` R153, R154(b), (d), `60_exceptions.md` R214: when the store refuses the write, the gather has happened,
the result is `0x27`, and no other block changes; the block itself is "as the store leaves it": unchanged beyond the capacity or
where the failure leaves nothing (the reference store), else with the bytes the failure leaves at its start (log entry 9). -/
def Obligations.FailedWriteReturnsIoError : Prop :=
  ∀ (unit : Byte) (addr blk : Word) (s : State),
    s.store.ro = false → s.bufferClear addr → s.store.fails blk = true →
    let n := externalCount s.cfg (bufferAddresses addr 0 512)
    ∃ t, exec (.write unit addr blk) s = .next t ∧
      (∀ x, x < 512 * blk.toNat ∨ 512 * blk.toNat + 512 ≤ x → t.store.image.read x = s.store.image.read x) ∧
      (s.store.count.toNat ≤ blk.toNat ∨
          (∀ pre bytes rest, s.store.answers = pre ++ ⟨s.store.calls, .fail (some bytes)⟩ :: rest →
            ∃ a ∈ pre, a.call = s.store.calls) →
        t.store.image = s.store.image) ∧
      (∀ pre bytes rest, s.store.answers = pre ++ ⟨s.store.calls, .fail (some bytes)⟩ :: rest →
        (∀ a ∈ pre, a.call ≠ s.store.calls) → s.store.image.wf = true → blk.toNat < s.store.count.toNat → ∀ k, k < 512 →
        t.store.image.read (512 * blk.toNat + k) = bytes.getD k (s.store.image.read (512 * blk.toNat + k))) ∧
      t = { s with
        store := { s.store with calls := s.store.calls + 1, image := t.store.image }
        latched := none
        out := .byte 0x27
        draws := s.draws + 512
        drives := codecRun s.cfg (s.shell.take n).flatten s.drives
        shell := s.shell.drop n
        nested :=
          .bsWrite blk false ::
          (((List.range 512).map fun k =>
            Access.memRead (offsetBy addr k) (s.byteAt (offsetBy addr k) (s.draws + k))).reverse ++ s.nested) }

/-- `42_block_transfer.md` R155: WRITE of a block and, after any operations that do not write that block, READ of it give back the
identical 512 bytes, for an index within the capacity, two calls the store answers, and buffers in plain RAM. -/
def Obligations.WrittenBlockIsReadBack : Prop :=
  ∀ (unit unit' : Byte) (src dest blk : Word) (between : List Instr) (s t u : State),
    s.mem.wf = true → s.store.image.wf = true → s.store.ro = false → blk.toNat < s.store.count.toNat →
    s.bufferClear src → bufferPlain s.cfg src → s.store.fails blk = false →
    exec (.write unit src blk) s = .next t → execAll between t = .next u →
    (∃ after, u.nested = after ++ t.nested ∧ ∀ ok, Access.bsWrite blk ok ∉ after) →
    u.bufferClear dest → bufferPlain u.cfg dest → u.store.fails blk = false →
    t.out = .byte 0x00 ∧
    ∃ r, exec (.read unit' dest blk) u = .next r ∧ r.out = .byte 0x00 ∧
      ∀ k, k < 512 → r.mem.read (offsetBy dest k).toNat = s.mem.read (offsetBy src k).toNat

/-- `42_block_transfer.md` R150, R156: a transfer moves 512 bytes of guest memory or none, makes at most one store call, touches no
second block, and changes neither the header, `MLI` nor the parameters, nor itself a track or a cursor: those change only by the
codec operations that the shell starts at its accesses outside plain RAM (R177; log entry 30). -/
def Obligations.TransfersMoveOneBlockOrNothing : Prop :=
  ∀ (unit : Byte) (addr blk : Word) (s t : State) (i : Instr), i = .read unit addr blk ∨ i = .write unit addr blk →
    exec i s = .next t →
    (∃ mem store : List Access, t.nested.Perm (mem ++ store ++ s.nested) ∧ (mem.length = 0 ∨ mem.length = 512) ∧
      store.length ≤ 1 ∧ (∀ x ∈ mem, (∃ a v, x = .memRead a v) ∨ ∃ a v, x = .memWrite a v) ∧
      (∀ x ∈ store, (∃ ok, x = .bsRead blk ok) ∨ ∃ ok, x = .bsWrite blk ok)) ∧
    (∀ x, x < 512 * blk.toNat ∨ 512 * blk.toNat + 512 ≤ x → t.store.image.read x = s.store.image.read x) ∧
    t.store.count = s.store.count ∧ t.store.ro = s.store.ro ∧ t.mli = s.mli ∧ t.cfg = s.cfg ∧ t.input = s.input ∧
    (∃ n, n ≤ 512 ∧ (bufferPlain s.cfg addr → n = 0) ∧
      t.drives = codecRun s.cfg (s.shell.take n).flatten s.drives ∧ t.shell = s.shell.drop n)

/-- `43_nibble_codec.md` R177, `20_memory.md` R63: a codec operation that a nested access starts does what `NREAD`, `NWRITE`, `PWRON` or
`PWROFF` does to the drives, in the order of the accesses; a nested access of plain RAM starts none. That the operations started
are data of the state, one list for each access outside plain RAM, is the model's choice (log entry 30). -/
def Obligations.NestedCodecOperationsActAsOnTheirPort : Prop :=
  ∀ (ops : List CodecOp) (s : State), s.drives.length = s.cfg.ndrives → (∀ op ∈ ops, op.instr.wf s.cfg = true) →
    (∃ u, execAll (ops.map CodecOp.instr) s = .next u ∧ u.drives = codecRun s.cfg ops s.drives) ∧
    ∀ (a : Word) (rest : List (List CodecOp)), s.shell = ops :: rest → ownPage s.cfg a = false →
      (isExternal s.cfg a = true →
        (∃ v t, s.memRead a = .ok (v, t) ∧ t.drives = codecRun s.cfg ops s.drives ∧ t.shell = rest) ∧
        ∀ v, ∃ t, s.memWrite a v = .ok t ∧ t.drives = codecRun s.cfg ops s.drives ∧ t.shell = rest) ∧
      (isExternal s.cfg a = false →
        (∃ v t, s.memRead a = .ok (v, t) ∧ t.drives = s.drives ∧ t.shell = s.shell) ∧
        ∀ v, ∃ t, s.memWrite a v = .ok t ∧ t.drives = s.drives ∧ t.shell = s.shell)

/-- `43_nibble_codec.md` R171, R177, `60_exceptions.md` R208 (decision D18): a nested access that starts an `NREAD` or `NWRITE` with `q` out of
range, the first offence in the order of the accesses, faults with `QuarterTrackRange`. That the shell's operations are data is the
model's choice (log entries 18 and 30); nothing is said of the state this fault leaves, which the spec leaves open (log entry 18). -/
def Obligations.NestedQuarterTrackOutOfRangeFaults : Prop :=
  ∀ (s : State) (before after : List CodecOp) (op : CodecOp) (n q : Nat) (a : Word),
    firstOutOfRange s.cfg before = none → op = .read n q ∨ (∃ v, op = .write n q v) → 4 * s.cfg.ntracks ≤ q →
    ownPage s.cfg a = false → isExternal s.cfg a = true →
    let starts (as : List Word) : Prop :=
      s.accessesClear as ∧ s.shell[externalCount s.cfg as]? = some (before ++ op :: after)
    (∀ k, (directAddresses s.cfg)[k]? = some a → starts ((directAddresses s.cfg).take k) →
      exec (.rd0CmdDirect s.cfg.slot) s = .fault (.quarterTrackRange q)) ∧
    (∀ k, s.indirectAddresses[k]? = some a → starts (s.indirectAddresses.take k) →
      exec (.rd3CmdIndirect s.cfg.slot) s = .fault (.quarterTrackRange q)) ∧
    ∀ (unit : Byte) (addr blk : Word) (k : Nat), k < 512 → offsetBy addr k = a → starts (bufferAddresses addr 0 k) →
      (s.store.fails blk = false → exec (.read unit addr blk) s = .fault (.quarterTrackRange q)) ∧
      (s.store.ro = false → exec (.write unit addr blk) s = .fault (.quarterTrackRange q))

/-! ### Trigger reads -/

/-- `41_command_dispatch.md` R131 (decisions D5, D7, D8, D9): the direct entry reads the six bytes in order, latches the call block and
runs its command; `MLI` is not used. The codec operations that fetches outside plain RAM start (R177) are log entry 30. -/
def Obligations.DirectEntryRunsTheFetchedCommand : Prop :=
  ∀ s : State, s.accessesClear (directAddresses s.cfg) →
    let b := fun (a : Word) (k : Nat) => s.byteAt a (s.draws + k)
    let p := s.cfg
    let n := externalCount p [p.dirCmd, p.dirUnit, p.dirAddr, p.dirAddr + 1, p.dirBlk, p.dirBlk + 1]
    let c : CallBlock :=
      ⟨b p.dirCmd 0, b p.dirUnit 1, b (p.dirAddr + 1) 3 ++ b p.dirAddr 2, b (p.dirBlk + 1) 5 ++ b p.dirBlk 4⟩
    exec (.rd0CmdDirect s.cfg.slot) s = exec (decodeCommand c) { s with
      latched := some c
      draws := s.draws + 6
      drives := codecRun p (s.shell.take n).flatten s.drives
      shell := s.shell.drop n
      nested :=
        [.memRead (p.dirBlk + 1) (b (p.dirBlk + 1) 5), .memRead p.dirBlk (b p.dirBlk 4),
         .memRead (p.dirAddr + 1) (b (p.dirAddr + 1) 3), .memRead p.dirAddr (b p.dirAddr 2),
         .memRead p.dirUnit (b p.dirUnit 1), .memRead p.dirCmd (b p.dirCmd 0)] ++ s.nested }

/-- `41_command_dispatch.md` R133 (decisions D6, D7, D8, D9): the indirect entry reads the three in-line bytes at `MLI+1 .. MLI+3`
and the five bytes of the parameter block in order, latches the call block and runs its command. The codec operations that
fetches outside plain RAM start (R177) are log entry 30. -/
def Obligations.IndirectEntryRunsTheFetchedCommand : Prop :=
  ∀ s : State, s.accessesClear s.indirectAddresses →
    let b := fun (a : Word) (k : Nat) => s.byteAt a (s.draws + k)
    let pb : Word := b (s.mli + 3) 2 ++ b (s.mli + 2) 1
    let u := pb + s.cfg.pbUnit
    let a := pb + s.cfg.pbAddr
    let k := pb + s.cfg.pbBlk
    let n := externalCount s.cfg [s.mli + 1, s.mli + 2, s.mli + 3, u, a, a + 1, k, k + 1]
    let c : CallBlock := ⟨b (s.mli + 1) 0, b u 3, b (a + 1) 5 ++ b a 4, b (k + 1) 7 ++ b k 6⟩
    exec (.rd3CmdIndirect s.cfg.slot) s = exec (decodeCommand c) { s with
      latched := some c
      draws := s.draws + 8
      drives := codecRun s.cfg (s.shell.take n).flatten s.drives
      shell := s.shell.drop n
      nested :=
        [.memRead (k + 1) (b (k + 1) 7), .memRead k (b k 6), .memRead (a + 1) (b (a + 1) 5), .memRead a (b a 4),
         .memRead u (b u 3), .memRead (s.mli + 3) (b (s.mli + 3) 2), .memRead (s.mli + 2) (b (s.mli + 2) 1),
         .memRead (s.mli + 1) (b (s.mli + 1) 0)] ++ s.nested }

/-- `70_reset_and_hazards.md` R242, R246, `20_memory.md` R69: with every address SPD will touch outside the card's own page, and
every codec operation it starts in range, a trigger read completes, returns its command's result byte and leaves SPD in `IDLE`. -/
def Obligations.TriggerReadsComplete : Prop :=
  (∀ s : State, s.accessesClear (directAddresses s.cfg) →
    commandClear s.directBlock (s.afterReads (directAddresses s.cfg)) →
    ∃ t, exec (.rd0CmdDirect s.cfg.slot) s = .next t ∧ t.out = .byte (commandResult s.directBlock s.store) ∧
      t.latched = none) ∧
  (∀ s : State, s.accessesClear s.indirectAddresses →
    commandClear s.indirectBlock (s.afterReads s.indirectAddresses) →
    ∃ t, exec (.rd3CmdIndirect s.cfg.slot) s = .next t ∧ t.out = .byte (commandResult s.indirectBlock s.store) ∧
      t.latched = none)

/-- `60_exceptions.md` R200, R210 (priority): the one code a command reports, and that a trigger read of the card reports that of the
command it fetched; never `0x28` (R203; decision D12, log entry 16). -/
def Obligations.ResultCodeIsDecidedInOrder : Prop :=
  let code (c : CallBlock) (b : BlockStore) : Byte :=
    if c.cmd = 0x00 then 0x00
    else if c.cmd = 0x01 then (if b.fails c.blk then 0x27 else 0x00)
    else if c.cmd = 0x02 then (if b.ro then 0x2B else if b.fails c.blk then 0x27 else 0x00)
    else 0x27
  (∀ (c : CallBlock) (s t : State), exec (decodeCommand c) s = .next t → t.out = .byte (code c s.store)) ∧
  (∀ s t : State,
    (exec (.rd0CmdDirect s.cfg.slot) s = .next t → t.out = .byte (code s.directBlock s.store)) ∧
    (exec (.rd3CmdIndirect s.cfg.slot) s = .next t → t.out = .byte (code s.indirectBlock s.store))) ∧
  (∀ (s t : State) (i : Instr), i = .rd0CmdDirect s.cfg.slot ∨ i = .rd3CmdIndirect s.cfg.slot → exec i s = .next t →
    t.out = .byte 0x00 ∨ t.out = .byte 0x27 ∨ t.out = .byte 0x2B)

/-- `41_command_dispatch.md` R142 and `95_test_vectors.md` S7: for equal command, address and block and equal guest memory and store
the two entries give the same result byte, the same store, the same guest memory and the same accesses after the field
fetches, or fault at the same address. Only for a WRITE must the buffer be plain RAM, since other bytes are fresh draws. The codec
client is in contract (R246): whatever a nested access starts is in range. -/
def Obligations.BothEntriesGiveTheSameOutcome : Prop :=
  ∀ s s' : State, s'.cfg = s.cfg → s'.mem = s.mem → s'.store = s.store →
    addressesClear s.cfg (directAddresses s.cfg) → addressesClear s'.cfg s'.indirectAddresses →
    (∀ ops, ops ∈ s.shell ∨ ops ∈ s'.shell → firstOutOfRange s.cfg ops = none) →
    s'.indirectBlock.cmd = s.directBlock.cmd → s'.indirectBlock.addr = s.directBlock.addr →
    s'.indirectBlock.blk = s.directBlock.blk →
    (s.directBlock.cmd = 0x02 → bufferPlain s.cfg s.directBlock.addr) →
    (∃ a l l', exec (.rd0CmdDirect s.cfg.slot) s = .fault (.reentrancyViolation a l) ∧
      exec (.rd3CmdIndirect s.cfg.slot) s' = .fault (.reentrancyViolation a l')) ∨
    (∃ t t' after, exec (.rd0CmdDirect s.cfg.slot) s = .next t ∧ exec (.rd3CmdIndirect s.cfg.slot) s' = .next t' ∧
      t'.out = t.out ∧ t'.mem = t.mem ∧ t'.store = t.store ∧
      t.nested = after ++ (s.afterReads (directAddresses s.cfg)).nested ∧
      t'.nested = after ++ (s'.afterReads s'.indirectAddresses).nested)

/-- `60_exceptions.md` R207, R211 (decision D19): a transfer whose buffer reaches the card's own page faults at the first such address, with the
accesses before it done (log entry 17), and the codec operations they start (log entry 30). -/
def Obligations.TransferIntoOwnPageFaults : Prop :=
  ∀ (unit : Byte) (addr blk : Word) (s : State) (k : Nat), k < 512 →
    s.accessesClear (bufferAddresses addr 0 k) → ownPage s.cfg (offsetBy addr k) = true →
    let n := externalCount s.cfg (bufferAddresses addr 0 k)
    (s.store.fails blk = false → s.mem.wf = true → ∃ left b,
      exec (.read unit addr blk) s = .fault (.reentrancyViolation (offsetBy addr k) left) ∧ s.store.block blk = b ∧
      (∀ j, j < k → isExternal s.cfg (offsetBy addr j) = false → left.mem.read (offsetBy addr j).toNat = b.getD j 0) ∧
      (∀ a : Word, (∀ j, j < k → a ≠ offsetBy addr j) → left.mem.read a.toNat = s.mem.read a.toNat) ∧
      left = { s with
        mem := left.mem, store := { s.store with calls := s.store.calls + 1 }, nested := left.nested
        drives := codecRun s.cfg (s.shell.take n).flatten s.drives, shell := s.shell.drop n }) ∧
    (s.store.ro = false → ∃ left,
      exec (.write unit addr blk) s = .fault (.reentrancyViolation (offsetBy addr k) left) ∧
      left = { s with
        draws := s.draws + k, nested := left.nested
        drives := codecRun s.cfg (s.shell.take n).flatten s.drives, shell := s.shell.drop n })

/-- `60_exceptions.md` R207, R211 (decision D19): a field fetch in the card's own page faults, the first one in the order of the fetches, with the fetches before it
done (log entry 17). -/
def Obligations.FetchFromOwnPageFaults : Prop :=
  (∀ (s : State) (k : Nat) (a : Word), (directAddresses s.cfg)[k]? = some a → ownPage s.cfg a = true →
    s.accessesClear ((directAddresses s.cfg).take k) →
    exec (.rd0CmdDirect s.cfg.slot) s =
      .fault (.reentrancyViolation a (s.afterReads ((directAddresses s.cfg).take k)))) ∧
  (∀ (s : State) (k : Nat) (a : Word), s.indirectAddresses[k]? = some a → ownPage s.cfg a = true →
    s.accessesClear (s.indirectAddresses.take k) →
    exec (.rd3CmdIndirect s.cfg.slot) s =
      .fault (.reentrancyViolation a (s.afterReads (s.indirectAddresses.take k))))

/-! ### The codec -/

/-- `43_nibble_codec.md` R166: the byte at the cursor of track `q div 4`, then the cursor advances modulo `L`; nothing else changes. `q` is the
word's 8 bits (R101, the spec's decision D21) below the wider part ("a model with more tracks widens it"; its form is log entry 18). The fault out of range is the spec's decision
D18 (R171, R208; log entry 18). -/
def Obligations.NreadReturnsTheByteAtTheCursor : Prop :=
  (∀ (n high : Nat) (low pad : Byte),
    decode (.port (.nib n ((0b00 : BitVec 2) ++ low ++ pad) high)) = .ok (.nread n (high * 256 + low.toNat) pad)) ∧
  (∀ (n q : Nat) (pad : Byte) (s : State) (d : Drive), s.drives[n]? = some d →
    (q < 4 * s.cfg.ntracks → exec (.nread n q pad) s = .next { s with
      drives := s.drives.set n { d with pos := (d.pos + 1) % s.cfg.trackLen }
      out := .byte (d.byteAt (q / 4) d.pos) }) ∧
    (4 * s.cfg.ntracks ≤ q → exec (.nread n q pad) s = .fault (.quarterTrackRange q)))

/-- `43_nibble_codec.md` R167: `v` is stored at the cursor of track `q div 4` and nowhere else, then the cursor advances modulo `L`. The
word is R101's (decision D21) with the wider part of log entry 18. The fault out of range is the spec's decision D18 (R171, R208; log entry 18). -/
def Obligations.NwriteStoresTheByteAtTheCursor : Prop :=
  (∀ (n high : Nat) (low v : Byte),
    decode (.port (.nib n ((0b01 : BitVec 2) ++ low ++ v) high)) = .ok (.nwrite n (high * 256 + low.toNat) v)) ∧
  (∀ (n q : Nat) (v : Byte) (s : State) (d : Drive), s.drives[n]? = some d → driveOk s.cfg d = true →
    (q < 4 * s.cfg.ntracks → ∃ e : Drive,
      exec (.nwrite n q v) s = .next { s with drives := s.drives.set n e, out := .silent } ∧
      e.pos = (d.pos + 1) % s.cfg.trackLen ∧ e.tracks.length = d.tracks.length ∧
      e.byteAt (q / 4) d.pos = v ∧
      ∀ t p, (t, p) ≠ (q / 4, d.pos) → e.byteAt t p = d.byteAt t p) ∧
    (4 * s.cfg.ntracks ≤ q → exec (.nwrite n q v) s = .fault (.quarterTrackRange q)))

/-- `43_nibble_codec.md` R175, R176: the power operations are no-ops; the cursor is not reset. Their words are those of `30_encoding.md`
section 5 (R101, the spec's decision D21), and the wider part of `q` is the model's form of "a model with more tracks widens it"
(log entry 18). -/
def Obligations.PowerOperationsChangeNothing : Prop :=
  (∀ (n high : Nat) (low pad : Byte),
    decode (.port (.nib n ((0b10 : BitVec 2) ++ low ++ pad) high)) = .ok (.pwron n (high * 256 + low.toNat) pad) ∧
    decode (.port (.nib n ((0b11 : BitVec 2) ++ low ++ pad) high)) = .ok (.pwroff n (high * 256 + low.toNat) pad)) ∧
  (∀ (n q : Nat) (pad : Byte) (s : State), n < s.drives.length →
    exec (.pwron n q pad) s = .next { s with out := .silent } ∧
    exec (.pwroff n q pad) s = .next { s with out := .silent })

/-- `43_nibble_codec.md` R168: the four quarter-tracks of one track are indistinguishable. -/
def Obligations.QuarterTracksOfOneTrackAgree : Prop :=
  ∀ (n q q' : Nat) (pad v : Byte) (s : State), q / 4 = q' / 4 → q < 4 * s.cfg.ntracks →
    exec (.nread n q pad) s = exec (.nread n q' pad) s ∧ exec (.nwrite n q v) s = exec (.nwrite n q' v) s

/-- `43_nibble_codec.md` R169: "The cursor returns to the same position after exactly `L` operations (reads and writes counted together) on that
drive", and after fewer it has not; `L+1` sequential reads return the same byte on the first and the last, whatever in-range
quarter-tracks the reads between name; after `L - 1` comes 0; for `L = 1` the cursor is always 0 and a read returns the track's
one byte. -/
def Obligations.CursorWrapsAfterOneRevolution : Prop :=
  (∀ (n : Nat) (ops : List Instr) (s : State) (d : Drive), s.drives[n]? = some d → d.pos < s.cfg.trackLen →
    ops.length ≤ s.cfg.trackLen →
    (∀ i ∈ ops, ∃ (q : Nat) (v : Byte), q < 4 * s.cfg.ntracks ∧ (i = .nread n q v ∨ i = .nwrite n q v)) →
    ∃ t e, execAll ops s = .next t ∧ t.drives[n]? = some e ∧
      (e.pos = d.pos ↔ ops.length = 0 ∨ ops.length = s.cfg.trackLen)) ∧
  (∀ (n q : Nat) (pad pad' : Byte) (qs : List Nat) (s : State) (d : Drive), s.drives[n]? = some d →
    d.pos < s.cfg.trackLen → q < 4 * s.cfg.ntracks → qs.length + 1 = s.cfg.trackLen →
    (∀ x ∈ qs, x < 4 * s.cfg.ntracks) →
    ∃ t u r, exec (.nread n q pad) s = .next t ∧ execAll (qs.map fun x => .nread n x 0) t = .next u ∧
      exec (.nread n q pad') u = .next r ∧ r.out = t.out) ∧
  (∀ (n q : Nat) (v : Byte) (s t : State) (d : Drive), s.drives[n]? = some d →
    d.pos + 1 = s.cfg.trackLen ∨ s.cfg.trackLen = 1 →
    exec (.nread n q v) s = .next t ∨ exec (.nwrite n q v) s = .next t →
    ∃ e, t.drives[n]? = some e ∧ e.pos = 0) ∧
  (∀ (n q : Nat) (pad : Byte) (s : State) (d : Drive), s.drives[n]? = some d → s.cfg.trackLen = 1 → d.pos = 0 →
    q < 4 * s.cfg.ntracks → ∃ t, exec (.nread n q pad) s = .next t ∧ t.out = .byte (d.byteAt (q / 4) 0))

/-- `43_nibble_codec.md` R173: a written byte is returned by the `L`-th operation after the write, if that is an `NREAD` of the same track,
with any `L - 1` in-range operations on that drive in between. -/
def Obligations.WrittenByteComesBackAfterOneRevolution : Prop :=
  ∀ (n q q' : Nat) (v pad : Byte) (ops : List Instr) (s : State) (d : Drive),
    s.drives[n]? = some d → driveOk s.cfg d = true → q < 4 * s.cfg.ntracks → q' / 4 = q / 4 →
    ops.length + 1 = s.cfg.trackLen →
    (∀ i ∈ ops, ∃ (q : Nat) (v : Byte), q < 4 * s.cfg.ntracks ∧ (i = .nread n q v ∨ i = .nwrite n q v)) →
    ∃ t u r, exec (.nwrite n q v) s = .next t ∧ execAll ops t = .next u ∧ exec (.nread n q' pad) u = .next r ∧
      r.out = .byte v

/-- `43_nibble_codec.md` R174: "An operation on drive `d` reads and writes only `TRK[d]` and `POS[d]`." -/
def Obligations.DrivesAreIndependent : Prop :=
  ∀ (i : Instr) (n : Nat) (s t : State), nibDrive i = some n → exec i s = .next t →
    (∀ m, m ≠ n → t.drives[m]? = s.drives[m]?) ∧
    t = { s with drives := t.drives, out := t.out } ∧
    ∀ s' : State, s'.cfg = s.cfg → s'.drives[n]? = s.drives[n]? →
      ∃ t', exec i s' = .next t' ∧ t'.out = t.out ∧ t'.drives[n]? = t.drives[n]?

/-- `30_encoding.md` R101, "The drive is chosen by the port instance": there is no operation on a drive without one (the model's refusal, log
entry 10). -/
def Obligations.MissingDriveIsRefused : Prop :=
  ∀ (i : Instr) (n : Nat) (s : State), nibDrive i = some n → s.drives[n]? = none → exec i s = .refused (.noSuchDrive n)

/-! ### The host -/

/-- `44_host_hooks.md` R189, R190 (decision D20): `SAVE` returns the 16-bit value of `MLI` and changes nothing; `LOAD` writes `MLI` only. -/
def Obligations.SaveReturnsAndLoadWritesMli : Prop :=
  (∀ s : State, exec .save s = .next { s with out := .snapshot s.mli }) ∧
  (∀ (s : State) (m : Word), exec (.load m) s = .next { s with mli := m, out := .silent })

/-- `44_host_hooks.md` R190, R191: `LOAD` of a snapshot taken earlier restores `MLI`, whatever ran in between. -/
def Obligations.LoadRestoresTheSnapshot : Prop :=
  ∀ (s t u : State) (m : Word) (between : List Instr),
    exec .save s = .next t → t.out = .snapshot m → execAll between t = .next u →
    ∃ r, exec (.load m) u = .next r ∧ r.mli = s.mli ∧ r = { u with mli := r.mli, out := .silent }

/-! ### Rules about the whole machine -/

/-- `10_state.md` R21 (and R231 for `RESET`): `MLI` "is written only by I/O writes at offset 4 (low byte) and offset 5 (high byte) and by
`LOAD`". -/
def Obligations.OnlyItsWritersChangeMli : Prop :=
  ∀ (i : Instr) (s t : State), writesMli i = false → exec i s = .next t → t.mli = s.mli

/-- `10_state.md` R21: "it is read only by the indirect entry ... and by `SAVE`. No I/O read returns it": every operation that neither is
one of these nor keeps one half of it goes on alike for every value of `MLI`. -/
def Obligations.MliIsHiddenFromOtherOperations : Prop :=
  ∀ (i : Instr) (s t : State) (m : Word), readsMli i = false → exec i s = .next t →
    exec i { s with mli := m } = .next { t with mli := if writesMli i then t.mli else m }

/-- `10_state.md` R24, R25, R43: the tracks and cursors are changed by the codec's reads and writes (and `RESET`) only: by a codec
operation, or by those the shell starts at nested accesses outside plain RAM (R177; log entry 30). -/
def Obligations.OnlyTheCodecChangesDrives : Prop :=
  ∀ (i : Instr) (s t : State), writesDrives i = false → exec i s = .next t →
    ∃ n, t.drives = codecRun s.cfg (s.shell.take n).flatten s.drives ∧ t.shell = s.shell.drop n ∧
      (movesBlocks i = false ∨ s.cfg.external = [] → n = 0)

/-- `20_memory.md` R64: the card changes guest memory and the store by the trigger reads and the commands they run only, and guest
memory by a READ only. (An access of another slot's page is the guest's own.) -/
def Obligations.OnlyTransfersChangeMemoryAndStore : Prop :=
  (∀ (i : Instr) (s t : State), movesBlocks i = false → exec i s = .next t →
    t.store = s.store ∧ ((∀ slot, ioSlot i = some slot → slot = s.cfg.slot) → t.mem = s.mem)) ∧
  (∀ (unit : Byte) (addr blk : Word) (s t : State),
    (exec (.write unit addr blk) s = .next t → t.mem = s.mem) ∧
    (exec (.read unit addr blk) s = .next t → t.store.image = s.store.image)) ∧
  (∀ (s t : State), (exec (.rd0CmdDirect s.cfg.slot) s = .next t → s.directBlock.cmd ≠ 0x01 → t.mem = s.mem) ∧
    (exec (.rd3CmdIndirect s.cfg.slot) s = .next t → s.indirectBlock.cmd ≠ 0x01 → t.mem = s.mem))

/-- `00_scope.md` R9, `10_state.md` R42: the parameters and the store's header are constant for the session. -/
def Obligations.ParametersAndHeaderAreConstant : Prop :=
  ∀ s t : State, step s = .next t →
    t.cfg = s.cfg ∧ t.store.count = s.store.count ∧ t.store.ro = s.store.ro ∧ t.store.answers = s.store.answers

/-- `44_host_hooks.md` R190, `10_state.md` R26, R40: "`MLI` is all the state SPD has": an I/O access goes on alike from any two states that agree on
the parameters, `MLI` and the collaborators: guest memory, the store, the shell's work and the draws. -/
def Obligations.SpdDependsOnMliMemoryAndStoreOnly : Prop :=
  ∀ (i : Instr) (s s' t : State), (ioSlot i).isSome = true →
    s'.cfg = s.cfg → s'.mli = s.mli → s'.mem = s.mem → s'.store = s.store → s'.draws = s.draws →
    s'.shell = s.shell → exec i s = .next t →
    ∃ t', exec i s' = .next t' ∧ t'.out = t.out ∧ t'.mli = t.mli ∧ t'.mem = t.mem ∧ t'.store = t.store ∧
      t'.draws = t.draws ∧ t'.shell = t.shell ∧ ∃ after, t.nested = after ++ s.nested ∧ t'.nested = after ++ s'.nested

/-- `20_memory.md` section 6, `90_conflicts.md` C8: "all operations are synchronous and unconditionally complete" for in-contract use. -/
def Obligations.InContractTransactionsComplete : Prop :=
  ∀ (s : State) (x : Txn) (rest : List Txn) (i : Instr), s.Inv → s.input = x :: rest → decode (.port x) = .ok i →
    s.inContract i → SafeStep s
end

