-- ==== Sys2Proof/Laws/Memory.lean ====
section
/-! SUPPORT. Laws/Memory.lean: the laws of a sparse byte memory: read after write, the frame of a write, the canonical
form kept by every write, and the same for ranges of keys. -/

namespace Sys2Proof

@[simp] theorem Memory.read_nil (a : Nat) : Memory.read [] a = Memory.unlisted := rfl

theorem Memory.wfFrom_mono {lo lo' : Nat} {m : Memory} (h : m.wfFrom lo = true) (hl : lo' ≤ lo) :
    m.wfFrom lo' = true := by
  cases m with
  | nil => rfl
  | cons c rest =>
    simp only [Memory.wfFrom, Bool.and_eq_true, decide_eq_true_eq] at h ⊢
    exact ⟨⟨by omega, h.1.2⟩, h.2⟩

/-- A key below the lowest listed one is unlisted. -/
theorem Memory.read_below {lo a : Nat} {m : Memory} (h : m.wfFrom lo = true) (ha : a < lo) :
    m.read a = Memory.unlisted := by
  induction m generalizing lo with
  | nil => rfl
  | cons c rest ih =>
    simp only [Memory.wfFrom, Bool.and_eq_true, decide_eq_true_eq] at h
    rw [Memory.read, if_neg (by omega)]
    exact ih h.2 (by omega)

/-- The frame of a write: every other key reads as before. -/
theorem Memory.read_put_other {m : Memory} {a x : Nat} {v : Byte} (h : x ≠ a) : (m.put a v).read x = m.read x := by
  induction m with
  | nil =>
    by_cases hv : v = Memory.unlisted
    · simp [Memory.put, hv]
    · simp [Memory.put, hv, Memory.read, Ne.symm h]
  | cons c rest ih =>
    obtain ⟨k, b⟩ := c
    unfold Memory.put
    split
    · simp only [Memory.read, ih]
    · split
      · subst_vars
        split <;> simp [Memory.read, Ne.symm h]
      · split <;> simp [Memory.read, Ne.symm h]

/-- Read after write. -/
theorem Memory.read_put_same {m : Memory} {lo a : Nat} {v : Byte} (h : m.wfFrom lo = true) : (m.put a v).read a = v := by
  induction m generalizing lo with
  | nil =>
    by_cases hv : v = Memory.unlisted
    · simp [Memory.put, hv]
    · simp [Memory.put, hv, Memory.read]
  | cons c rest ih =>
    obtain ⟨k, b⟩ := c
    have h' := h
    simp only [Memory.wfFrom, Bool.and_eq_true, decide_eq_true_eq] at h
    unfold Memory.put
    split
    · rename_i hk
      rw [Memory.read, if_neg (by omega)]
      exact ih h.2
    · split
      · subst_vars
        split
        · rename_i hv
          rw [Memory.read_below h.2 (by omega), hv]
        · simp [Memory.read]
      · split
        · rename_i hv
          rw [Memory.read, if_neg (by omega), Memory.read_below h.2 (by omega), hv]
        · simp [Memory.read]

/-- A write keeps the canonical form. -/
theorem Memory.wfFrom_put {m : Memory} {lo a : Nat} {v : Byte} (h : m.wfFrom lo = true) (ha : lo ≤ a) :
    (m.put a v).wfFrom lo = true := by
  induction m generalizing lo with
  | nil =>
    by_cases hv : v = Memory.unlisted
    · simp [Memory.put, hv, Memory.wfFrom]
    · simp [Memory.put, hv, Memory.wfFrom, ha]
  | cons c rest ih =>
    obtain ⟨k, b⟩ := c
    have h' := h
    simp only [Memory.wfFrom, Bool.and_eq_true, decide_eq_true_eq] at h
    unfold Memory.put
    split
    · simp only [Memory.wfFrom, Bool.and_eq_true, decide_eq_true_eq]
      exact ⟨h.1, ih h.2 (by omega)⟩
    · split
      · subst_vars
        split
        · exact Memory.wfFrom_mono h.2 (by omega)
        · simp only [Memory.wfFrom, Bool.and_eq_true, decide_eq_true_eq]
          exact ⟨⟨h.1.1, by assumption⟩, h.2⟩
      · split
        · exact h'
        · simp only [Memory.wfFrom, Bool.and_eq_true, decide_eq_true_eq]
          exact ⟨⟨ha, by assumption⟩, ⟨by omega, h.1.2⟩, h.2⟩

theorem Memory.wf_put {m : Memory} {a : Nat} {v : Byte} (h : m.wf = true) : (m.put a v).wf = true :=
  Memory.wfFrom_put h (Nat.zero_le a)

theorem Memory.within_put {m : Memory} {n a : Nat} {v : Byte} (h : m.within n = true) (ha : a < n) :
    (m.put a v).within n = true := by
  induction m with
  | nil =>
    by_cases hv : v = Memory.unlisted
    · simp [Memory.put, hv, Memory.within]
    · simp [Memory.put, hv, Memory.within, ha]
  | cons c rest ih =>
    obtain ⟨k, b⟩ := c
    simp only [Memory.within, List.all_cons, Bool.and_eq_true, decide_eq_true_eq] at h ih ⊢
    unfold Memory.put
    split
    · simp only [List.all_cons, Bool.and_eq_true, decide_eq_true_eq]
      exact ⟨h.1, ih h.2⟩
    · split
      · split
        · exact h.2
        · simp only [List.all_cons, Bool.and_eq_true, decide_eq_true_eq]
          exact ⟨ha, h.2⟩
      · split
        · simp only [List.all_cons, Bool.and_eq_true, decide_eq_true_eq]
          exact h
        · simp only [List.all_cons, Bool.and_eq_true, decide_eq_true_eq]
          exact ⟨ha, h⟩

/-! ### Ranges -/

@[simp] theorem Memory.length_readRange (m : Memory) (base n : Nat) : (m.readRange base n).length = n := by
  induction n generalizing base with
  | zero => rfl
  | succ n ih => simp [Memory.readRange, ih]

theorem Memory.getElem?_readRange {m : Memory} {base n k : Nat} (h : k < n) :
    (m.readRange base n)[k]? = some (m.read (base + k)) := by
  induction n generalizing base k with
  | zero => omega
  | succ n ih =>
    cases k with
    | zero => rfl
    | succ k =>
      rw [Memory.readRange, List.getElem?_cons_succ, ih (by omega)]
      congr 2; omega

/-- The frame of a range write. -/
theorem Memory.read_putRange_other {m : Memory} {base x : Nat} {bs : List Byte} (h : x < base ∨ base + bs.length ≤ x) :
    (m.putRange base bs).read x = m.read x := by
  induction bs generalizing m base with
  | nil => rfl
  | cons b bs ih =>
    simp only [List.length_cons] at h
    rw [Memory.putRange, ih (by omega), Memory.read_put_other (by omega)]

/-- Read after a range write. -/
theorem Memory.read_putRange {m : Memory} {base k : Nat} {bs : List Byte} {v : Byte} (h : m.wf = true) (hk : bs[k]? = some v) :
    (m.putRange base bs).read (base + k) = v := by
  induction bs generalizing m base k with
  | nil => simp at hk
  | cons b bs ih =>
    cases k with
    | zero =>
      simp only [List.getElem?_cons_zero, Option.some.injEq] at hk
      rw [Memory.putRange, Memory.read_putRange_other (by omega), Nat.add_zero, Memory.read_put_same (lo := 0) h, hk]
    | succ k =>
      rw [List.getElem?_cons_succ] at hk
      rw [Memory.putRange, show base + (k + 1) = base + 1 + k by omega]
      exact ih (Memory.wf_put h) hk

theorem Memory.wf_putRange {m : Memory} {base : Nat} {bs : List Byte} (h : m.wf = true) : (m.putRange base bs).wf = true := by
  induction bs generalizing m base with
  | nil => exact h
  | cons b bs ih => exact ih (Memory.wf_put h)

theorem Memory.within_putRange {m : Memory} {base n : Nat} {bs : List Byte} (h : m.within n = true)
    (hb : base + bs.length ≤ n) : (m.putRange base bs).within n = true := by
  induction bs generalizing m base with
  | nil => exact h
  | cons b bs ih =>
    simp only [List.length_cons] at hb
    exact ih (Memory.within_put h (by omega)) (by omega)

/-- Two canonical memories that read alike everywhere are equal. -/
theorem Memory.ext_of_read {m m' : Memory} {lo : Nat} (h : m.wfFrom lo = true) (h' : m'.wfFrom lo = true)
    (hr : ∀ a, m.read a = m'.read a) : m = m' := by
  induction m generalizing m' lo with
  | nil =>
    cases m' with
    | nil => rfl
    | cons c rest =>
      simp only [Memory.wfFrom, Bool.and_eq_true, decide_eq_true_eq] at h'
      exact absurd (by simpa [Memory.read] using (hr c.1).symm) h'.1.2
  | cons c rest ih =>
    simp only [Memory.wfFrom, Bool.and_eq_true, decide_eq_true_eq] at h
    cases m' with
    | nil => exact absurd (by simpa [Memory.read] using hr c.1) h.1.2
    | cons c' rest' =>
      simp only [Memory.wfFrom, Bool.and_eq_true, decide_eq_true_eq] at h'
      have hk : c.1 = c'.1 := by
        rcases Nat.lt_trichotomy c.1 c'.1 with hlt | heq | hgt
        · have := hr c.1
          rw [Memory.read, if_pos rfl, Memory.read, if_neg (by omega), Memory.read_below h'.2 (by omega)] at this
          exact absurd this h.1.2
        · exact heq
        · have := hr c'.1
          rw [Memory.read, if_neg (by omega), Memory.read_below h.2 (by omega), Memory.read, if_pos rfl] at this
          exact absurd this.symm h'.1.2
      have hb : c.2 = c'.2 := by
        have := hr c.1
        rwa [Memory.read, if_pos rfl, Memory.read, if_pos hk.symm] at this
      have hrest : rest = rest' := by
        refine ih h.2 (by rw [hk]; exact h'.2) fun a => ?_
        by_cases ha : a = c.1
        · rw [Memory.read_below h.2 (by omega), Memory.read_below h'.2 (by omega)]
        · have := hr a
          rwa [Memory.read, if_neg (Ne.symm ha), Memory.read, if_neg (by omega)] at this
      rw [hrest, Prod.ext hk hb]

end Sys2Proof
end

