-- ==== Sys2Proof/Laws/State.lean ====
section
/-! SUPPORT. Laws/State.lean: one lemma per field per update of `State` and `Drive`, true by `rfl`. -/

namespace Sys2Proof.Machine

@[simp] theorem State.reply_cfg (s : State) (r : Response) : (s.reply r).cfg = s.cfg := rfl
@[simp] theorem State.reply_mli (s : State) (r : Response) : (s.reply r).mli = s.mli := rfl
@[simp] theorem State.reply_drives (s : State) (r : Response) : (s.reply r).drives = s.drives := rfl
@[simp] theorem State.reply_mem (s : State) (r : Response) : (s.reply r).mem = s.mem := rfl
@[simp] theorem State.reply_store (s : State) (r : Response) : (s.reply r).store = s.store := rfl
@[simp] theorem State.reply_latched (s : State) (r : Response) : (s.reply r).latched = s.latched := rfl
@[simp] theorem State.reply_input (s : State) (r : Response) : (s.reply r).input = s.input := rfl
@[simp] theorem State.reply_out (s : State) (r : Response) : (s.reply r).out = r := rfl
@[simp] theorem State.reply_nested (s : State) (r : Response) : (s.reply r).nested = s.nested := rfl
@[simp] theorem State.reply_draws (s : State) (r : Response) : (s.reply r).draws = s.draws := rfl
@[simp] theorem State.reply_shell (s : State) (r : Response) : (s.reply r).shell = s.shell := rfl

@[simp] theorem State.finish_cfg (s : State) (code : Byte) : (s.finish code).cfg = s.cfg := rfl
@[simp] theorem State.finish_mli (s : State) (code : Byte) : (s.finish code).mli = s.mli := rfl
@[simp] theorem State.finish_drives (s : State) (code : Byte) : (s.finish code).drives = s.drives := rfl
@[simp] theorem State.finish_mem (s : State) (code : Byte) : (s.finish code).mem = s.mem := rfl
@[simp] theorem State.finish_store (s : State) (code : Byte) : (s.finish code).store = s.store := rfl
@[simp] theorem State.finish_latched (s : State) (code : Byte) : (s.finish code).latched = none := rfl
@[simp] theorem State.finish_input (s : State) (code : Byte) : (s.finish code).input = s.input := rfl
@[simp] theorem State.finish_out (s : State) (code : Byte) : (s.finish code).out = .byte code := rfl
@[simp] theorem State.finish_nested (s : State) (code : Byte) : (s.finish code).nested = s.nested := rfl
@[simp] theorem State.finish_draws (s : State) (code : Byte) : (s.finish code).draws = s.draws := rfl
@[simp] theorem State.finish_shell (s : State) (code : Byte) : (s.finish code).shell = s.shell := rfl

@[simp] theorem State.latch_cfg (s : State) (c : CallBlock) : (s.latch c).cfg = s.cfg := rfl
@[simp] theorem State.latch_mli (s : State) (c : CallBlock) : (s.latch c).mli = s.mli := rfl
@[simp] theorem State.latch_drives (s : State) (c : CallBlock) : (s.latch c).drives = s.drives := rfl
@[simp] theorem State.latch_mem (s : State) (c : CallBlock) : (s.latch c).mem = s.mem := rfl
@[simp] theorem State.latch_store (s : State) (c : CallBlock) : (s.latch c).store = s.store := rfl
@[simp] theorem State.latch_latched (s : State) (c : CallBlock) : (s.latch c).latched = some c := rfl
@[simp] theorem State.latch_input (s : State) (c : CallBlock) : (s.latch c).input = s.input := rfl
@[simp] theorem State.latch_out (s : State) (c : CallBlock) : (s.latch c).out = s.out := rfl
@[simp] theorem State.latch_nested (s : State) (c : CallBlock) : (s.latch c).nested = s.nested := rfl
@[simp] theorem State.latch_draws (s : State) (c : CallBlock) : (s.latch c).draws = s.draws := rfl
@[simp] theorem State.latch_shell (s : State) (c : CallBlock) : (s.latch c).shell = s.shell := rfl

@[simp] theorem State.note_cfg (s : State) (a : Access) : (s.note a).cfg = s.cfg := rfl
@[simp] theorem State.note_mli (s : State) (a : Access) : (s.note a).mli = s.mli := rfl
@[simp] theorem State.note_drives (s : State) (a : Access) : (s.note a).drives = s.drives := rfl
@[simp] theorem State.note_mem (s : State) (a : Access) : (s.note a).mem = s.mem := rfl
@[simp] theorem State.note_store (s : State) (a : Access) : (s.note a).store = s.store := rfl
@[simp] theorem State.note_latched (s : State) (a : Access) : (s.note a).latched = s.latched := rfl
@[simp] theorem State.note_input (s : State) (a : Access) : (s.note a).input = s.input := rfl
@[simp] theorem State.note_out (s : State) (a : Access) : (s.note a).out = s.out := rfl
@[simp] theorem State.note_nested (s : State) (a : Access) : (s.note a).nested = a :: s.nested := rfl
@[simp] theorem State.note_draws (s : State) (a : Access) : (s.note a).draws = s.draws := rfl
@[simp] theorem State.note_shell (s : State) (a : Access) : (s.note a).shell = s.shell := rfl

@[simp] theorem State.setDrive_cfg (s : State) (n : Nat) (d : Drive) : (s.setDrive n d).cfg = s.cfg := rfl
@[simp] theorem State.setDrive_mli (s : State) (n : Nat) (d : Drive) : (s.setDrive n d).mli = s.mli := rfl
@[simp] theorem State.setDrive_drives (s : State) (n : Nat) (d : Drive) : (s.setDrive n d).drives = s.drives.set n d := rfl
@[simp] theorem State.setDrive_mem (s : State) (n : Nat) (d : Drive) : (s.setDrive n d).mem = s.mem := rfl
@[simp] theorem State.setDrive_store (s : State) (n : Nat) (d : Drive) : (s.setDrive n d).store = s.store := rfl
@[simp] theorem State.setDrive_latched (s : State) (n : Nat) (d : Drive) : (s.setDrive n d).latched = s.latched := rfl
@[simp] theorem State.setDrive_input (s : State) (n : Nat) (d : Drive) : (s.setDrive n d).input = s.input := rfl
@[simp] theorem State.setDrive_out (s : State) (n : Nat) (d : Drive) : (s.setDrive n d).out = s.out := rfl
@[simp] theorem State.setDrive_nested (s : State) (n : Nat) (d : Drive) : (s.setDrive n d).nested = s.nested := rfl
@[simp] theorem State.setDrive_draws (s : State) (n : Nat) (d : Drive) : (s.setDrive n d).draws = s.draws := rfl
@[simp] theorem State.setDrive_shell (s : State) (n : Nat) (d : Drive) : (s.setDrive n d).shell = s.shell := rfl

@[simp] theorem State.openBusRead_cfg (s : State) : s.openBusRead.cfg = s.cfg := rfl
@[simp] theorem State.openBusRead_mli (s : State) : s.openBusRead.mli = s.mli := rfl
@[simp] theorem State.openBusRead_drives (s : State) : s.openBusRead.drives = s.drives := rfl
@[simp] theorem State.openBusRead_mem (s : State) : s.openBusRead.mem = s.mem := rfl
@[simp] theorem State.openBusRead_store (s : State) : s.openBusRead.store = s.store := rfl
@[simp] theorem State.openBusRead_latched (s : State) : s.openBusRead.latched = s.latched := rfl
@[simp] theorem State.openBusRead_input (s : State) : s.openBusRead.input = s.input := rfl
@[simp] theorem State.openBusRead_out (s : State) : s.openBusRead.out = .byte (Config.draw8 s.draws) := rfl
@[simp] theorem State.openBusRead_nested (s : State) : s.openBusRead.nested = s.nested := rfl
@[simp] theorem State.openBusRead_draws (s : State) : s.openBusRead.draws = s.draws + 1 := rfl
@[simp] theorem State.openBusRead_shell (s : State) : s.openBusRead.shell = s.shell := rfl

@[simp] theorem State.guestRead_cfg (s : State) (a : Word) : (s.guestRead a).cfg = s.cfg := rfl
@[simp] theorem State.guestRead_mli (s : State) (a : Word) : (s.guestRead a).mli = s.mli := rfl
@[simp] theorem State.guestRead_drives (s : State) (a : Word) : (s.guestRead a).drives = s.drives := rfl
@[simp] theorem State.guestRead_mem (s : State) (a : Word) : (s.guestRead a).mem = s.mem := rfl
@[simp] theorem State.guestRead_store (s : State) (a : Word) : (s.guestRead a).store = s.store := rfl
@[simp] theorem State.guestRead_latched (s : State) (a : Word) : (s.guestRead a).latched = s.latched := rfl
@[simp] theorem State.guestRead_input (s : State) (a : Word) : (s.guestRead a).input = s.input := rfl
@[simp] theorem State.guestRead_out (s : State) (a : Word) : (s.guestRead a).out = .byte (s.byteAt a s.draws) := rfl
@[simp] theorem State.guestRead_nested (s : State) (a : Word) : (s.guestRead a).nested = s.nested := rfl
@[simp] theorem State.guestRead_draws (s : State) (a : Word) : (s.guestRead a).draws = s.draws + 1 := rfl
@[simp] theorem State.guestRead_shell (s : State) (a : Word) : (s.guestRead a).shell = s.shell := rfl

@[simp] theorem State.guestWrite_cfg (s : State) (a : Word) (v : Byte) : (s.guestWrite a v).cfg = s.cfg := rfl
@[simp] theorem State.guestWrite_mli (s : State) (a : Word) (v : Byte) : (s.guestWrite a v).mli = s.mli := rfl
@[simp] theorem State.guestWrite_drives (s : State) (a : Word) (v : Byte) : (s.guestWrite a v).drives = s.drives := rfl
@[simp] theorem State.guestWrite_mem (s : State) (a : Word) (v : Byte) : (s.guestWrite a v).mem = s.memAfter a v := rfl
@[simp] theorem State.guestWrite_store (s : State) (a : Word) (v : Byte) : (s.guestWrite a v).store = s.store := rfl
@[simp] theorem State.guestWrite_latched (s : State) (a : Word) (v : Byte) : (s.guestWrite a v).latched = s.latched := rfl
@[simp] theorem State.guestWrite_input (s : State) (a : Word) (v : Byte) : (s.guestWrite a v).input = s.input := rfl
@[simp] theorem State.guestWrite_out (s : State) (a : Word) (v : Byte) : (s.guestWrite a v).out = .silent := rfl
@[simp] theorem State.guestWrite_nested (s : State) (a : Word) (v : Byte) : (s.guestWrite a v).nested = s.nested := rfl
@[simp] theorem State.guestWrite_draws (s : State) (a : Word) (v : Byte) : (s.guestWrite a v).draws = s.draws := rfl
@[simp] theorem State.guestWrite_shell (s : State) (a : Word) (v : Byte) : (s.guestWrite a v).shell = s.shell := rfl

@[simp] theorem State.accept_cfg (s : State) (rest : List Txn) : (s.accept rest).cfg = s.cfg := rfl
@[simp] theorem State.accept_mli (s : State) (rest : List Txn) : (s.accept rest).mli = s.mli := rfl
@[simp] theorem State.accept_drives (s : State) (rest : List Txn) : (s.accept rest).drives = s.drives := rfl
@[simp] theorem State.accept_mem (s : State) (rest : List Txn) : (s.accept rest).mem = s.mem := rfl
@[simp] theorem State.accept_store (s : State) (rest : List Txn) : (s.accept rest).store = s.store := rfl
@[simp] theorem State.accept_latched (s : State) (rest : List Txn) : (s.accept rest).latched = s.latched := rfl
@[simp] theorem State.accept_input (s : State) (rest : List Txn) : (s.accept rest).input = rest := rfl
@[simp] theorem State.accept_out (s : State) (rest : List Txn) : (s.accept rest).out = .silent := rfl
@[simp] theorem State.accept_nested (s : State) (rest : List Txn) : (s.accept rest).nested = [] := rfl
@[simp] theorem State.accept_draws (s : State) (rest : List Txn) : (s.accept rest).draws = s.draws := rfl
@[simp] theorem State.accept_shell (s : State) (rest : List Txn) : (s.accept rest).shell = s.shell := rfl

@[simp] theorem Drive.withByte_pos (d : Drive) (t p : Nat) (v : Byte) : (d.withByte t p v).pos = d.pos := rfl
@[simp] theorem Drive.withByte_tracks (d : Drive) (t p : Nat) (v : Byte) : (d.withByte t p v).tracks = d.tracks.set t
    ((d.tracks.getD t []).put p v) := rfl
@[simp] theorem Drive.advance_pos (d : Drive) (p : Params) : (d.advance p).pos = nextPos p d.pos := rfl
@[simp] theorem Drive.advance_tracks (d : Drive) (p : Params) : (d.advance p).tracks = d.tracks := rfl

theorem driveOk_iff {p : Params} {d : Drive} :
    driveOk p d = true ↔ d.pos < p.trackLen ∧ d.tracks.length = p.ntracks ∧
      ∀ m ∈ d.tracks, m.wf = true ∧ m.within p.trackLen = true := by
  simp [driveOk, and_assoc]

theorem paramsOk_iff {p : Params} :
    paramsOk p = true ↔ 1 ≤ p.ndrives ∧ 1 ≤ p.ntracks ∧ 1 ≤ p.trackLen ∧
      ∀ ts ∈ p.trkInit, ∀ m ∈ ts, m.wf = true ∧ m.within p.trackLen = true := by
  simp [paramsOk, and_assoc]

/-! What a byte read answers depends only on the parameters, guest memory and the draw. -/

theorem State.byteAt_congr {s t : State} (hc : t.cfg = s.cfg) (hm : t.mem = s.mem) (a : Word) (n : Nat) :
    t.byteAt a n = s.byteAt a n := by
  unfold State.byteAt
  rw [hc, hm]

theorem State.byteAt_plain {s : State} {a : Word} (h : isExternal s.cfg a = false) (n : Nat) :
    s.byteAt a n = s.mem.read a.toNat := by
  simp [State.byteAt, h]

/-! ### What the shell does at nested accesses -/

@[simp] theorem State.startedN_cfg (s : State) (n : Nat) : (s.startedN n).cfg = s.cfg := rfl
@[simp] theorem State.startedN_mli (s : State) (n : Nat) : (s.startedN n).mli = s.mli := rfl
@[simp] theorem State.startedN_mem (s : State) (n : Nat) : (s.startedN n).mem = s.mem := rfl
@[simp] theorem State.startedN_store (s : State) (n : Nat) : (s.startedN n).store = s.store := rfl
@[simp] theorem State.startedN_latched (s : State) (n : Nat) : (s.startedN n).latched = s.latched := rfl
@[simp] theorem State.startedN_input (s : State) (n : Nat) : (s.startedN n).input = s.input := rfl
@[simp] theorem State.startedN_out (s : State) (n : Nat) : (s.startedN n).out = s.out := rfl
@[simp] theorem State.startedN_nested (s : State) (n : Nat) : (s.startedN n).nested = s.nested := rfl
@[simp] theorem State.startedN_draws (s : State) (n : Nat) : (s.startedN n).draws = s.draws := rfl
@[simp] theorem State.startedN_drives (s : State) (n : Nat) :
    (s.startedN n).drives = codecRun s.cfg (s.shell.take n).flatten s.drives := rfl
@[simp] theorem State.startedN_shell (s : State) (n : Nat) : (s.startedN n).shell = s.shell.drop n := rfl

theorem codecRun_append (p : Params) (a b : List CodecOp) (ds : List Drive) :
    codecRun p (a ++ b) ds = codecRun p b (codecRun p a ds) :=
  List.foldl_append

@[simp] theorem codecRun_nil (p : Params) (ds : List Drive) : codecRun p [] ds = ds := rfl

@[simp] theorem State.startedN_zero (s : State) : s.startedN 0 = s := rfl

theorem State.startedN_add (s : State) (m n : Nat) : s.startedN (m + n) = (s.startedN m).startedN n := by
  simp [State.startedN, List.take_add, codecRun_append, List.drop_drop]

@[simp] theorem externalCount_nil (p : Params) : externalCount p [] = 0 := rfl

theorem externalCount_cons (p : Params) (a : Word) (as : List Word) :
    externalCount p (a :: as) = externalCount p [a] + externalCount p as := by
  simp [externalCount, List.countP_cons, Nat.add_comm]

theorem externalCount_append (p : Params) (as bs : List Word) :
    externalCount p (as ++ bs) = externalCount p as + externalCount p bs := List.countP_append

theorem externalCount_plain {p : Params} {as : List Word} (h : ∀ a ∈ as, isExternal p a = false) : externalCount p as = 0 := by
  simpa [externalCount, List.countP_eq_zero] using h

/-- Everything one nested access starts. -/
theorem State.started_eq (a : Word) (s : State) : s.started a = s.startedN (externalCount s.cfg [a]) := by
  unfold State.started externalCount
  split
  · next h =>
    rw [List.countP_cons_of_pos h]
    cases hs : s.shell <;> simp [State.startedN, hs]
  · next h =>
    rw [List.countP_cons_of_neg h]
    rfl

theorem State.startedOps_eq (a : Word) (s : State) : s.startedOps a = (s.shell.take (externalCount s.cfg [a])).flatten := by
  unfold State.startedOps externalCount
  split
  · next h =>
    rw [List.countP_cons_of_pos h]
    cases s.shell <;> simp
  · next h =>
    rw [List.countP_cons_of_neg h]
    rfl

@[simp] theorem State.started_cfg (s : State) (a : Word) : (s.started a).cfg = s.cfg := by
  rw [State.started_eq]; rfl
@[simp] theorem State.started_mli (s : State) (a : Word) : (s.started a).mli = s.mli := by
  rw [State.started_eq]; rfl
@[simp] theorem State.started_mem (s : State) (a : Word) : (s.started a).mem = s.mem := by
  rw [State.started_eq]; rfl
@[simp] theorem State.started_store (s : State) (a : Word) : (s.started a).store = s.store := by
  rw [State.started_eq]; rfl
@[simp] theorem State.started_latched (s : State) (a : Word) : (s.started a).latched = s.latched := by
  rw [State.started_eq]; rfl
@[simp] theorem State.started_input (s : State) (a : Word) : (s.started a).input = s.input := by
  rw [State.started_eq]; rfl
@[simp] theorem State.started_out (s : State) (a : Word) : (s.started a).out = s.out := by
  rw [State.started_eq]; rfl
@[simp] theorem State.started_nested (s : State) (a : Word) : (s.started a).nested = s.nested := by
  rw [State.started_eq]; rfl
@[simp] theorem State.started_draws (s : State) (a : Word) : (s.started a).draws = s.draws := by
  rw [State.started_eq]; rfl

/-! ### Reads one after another -/

/-- The draws used and the accesses noted; with the shell's work, everything a list of reads does. -/
theorem State.afterReads_eq (as : List Word) (s : State) :
    s.afterReads as = { s.startedN (externalCount s.cfg as) with
      draws := s.draws + as.length
      nested := (as.zipIdx.map fun x => Access.memRead x.1 (s.byteAt x.1 (s.draws + x.2))).reverse ++ s.nested } := by
  suffices h : ∀ (s t : State) (n : Nat), t.cfg = s.cfg → t.mem = s.mem → t.draws = s.draws + n →
      t.afterReads as = { t.startedN (externalCount t.cfg as) with
        draws := t.draws + as.length
        nested := ((as.zipIdx n).map fun x => Access.memRead x.1 (s.byteAt x.1 (s.draws + x.2))).reverse ++ t.nested } from
    h s s 0 rfl rfl rfl
  intro s
  induction as with
  | nil => intro t n _ _ _; rfl
  | cons a as ih =>
    intro t n hc hm hd
    rw [State.afterReads, ih _ (n + 1) (by simpa using hc) (by simpa using hm) (by show t.draws + 1 = _; omega)]
    rw [externalCount_cons, State.startedN_add, ← State.started_eq]
    simp only [State.startedN, State.started_cfg, List.length_cons, List.zipIdx_cons, List.map_cons, List.reverse_cons,
      List.append_assoc, List.cons_append, List.nil_append, hd, State.byteAt_congr hc hm]
    congr 1
    omega

@[simp] theorem State.afterReads_cfg (as : List Word) (s : State) : (s.afterReads as).cfg = s.cfg := by
  rw [State.afterReads_eq]; rfl
@[simp] theorem State.afterReads_mli (as : List Word) (s : State) : (s.afterReads as).mli = s.mli := by
  rw [State.afterReads_eq]; rfl
@[simp] theorem State.afterReads_mem (as : List Word) (s : State) : (s.afterReads as).mem = s.mem := by
  rw [State.afterReads_eq]; rfl
@[simp] theorem State.afterReads_store (as : List Word) (s : State) : (s.afterReads as).store = s.store := by
  rw [State.afterReads_eq]; rfl
@[simp] theorem State.afterReads_latched (as : List Word) (s : State) : (s.afterReads as).latched = s.latched := by
  rw [State.afterReads_eq]; rfl
@[simp] theorem State.afterReads_input (as : List Word) (s : State) : (s.afterReads as).input = s.input := by
  rw [State.afterReads_eq]; rfl
@[simp] theorem State.afterReads_out (as : List Word) (s : State) : (s.afterReads as).out = s.out := by
  rw [State.afterReads_eq]; rfl
@[simp] theorem State.afterReads_draws (as : List Word) (s : State) : (s.afterReads as).draws = s.draws + as.length := by
  rw [State.afterReads_eq]
@[simp] theorem State.afterReads_drives (as : List Word) (s : State) :
    (s.afterReads as).drives = codecRun s.cfg (s.shell.take (externalCount s.cfg as)).flatten s.drives := by
  rw [State.afterReads_eq]; rfl
@[simp] theorem State.afterReads_shell (as : List Word) (s : State) :
    (s.afterReads as).shell = s.shell.drop (externalCount s.cfg as) := by
  rw [State.afterReads_eq]; rfl
theorem State.afterReads_nested_eq (as : List Word) (s : State) : (s.afterReads as).nested =
    (as.zipIdx.map fun x => Access.memRead x.1 (s.byteAt x.1 (s.draws + x.2))).reverse ++ s.nested := by
  rw [State.afterReads_eq]

end Sys2Proof.Machine
end

