-- ==== Sys2Proof/Laws/Access.lean ====
section
/-! SUPPORT. Laws/Access.lean: what the nested accesses of SPD can do: a guest read or write either faults in the card's own I/O
page or has its one effect, and a gather or a scatter is that, address by address. -/

namespace Sys2Proof.Machine

/-! ### Bytes, words and addresses -/

@[simp] theorem lowByte_joinBytes (hi lo : Byte) : lowByte (joinBytes hi lo) = lo := by
  unfold lowByte joinBytes
  rw [BitVec.extractLsb'_append_eq_of_add_le (by omega)]
  simp

@[simp] theorem highByte_joinBytes (hi lo : Byte) : highByte (joinBytes hi lo) = hi := by
  unfold highByte joinBytes
  rw [BitVec.extractLsb'_append_eq_of_le (by omega)]
  simp

theorem joinBytes_high_low (v : Word) : joinBytes (highByte v) (lowByte v) = v := by
  unfold highByte lowByte joinBytes
  rw [BitVec.extractLsb'_append_extractLsb'_eq_extractLsb' (by omega)]
  exact BitVec.extractLsb'_eq_self

/-- Within one block the buffer addresses are distinct, wrap or not. -/
theorem offsetBy_inj {base : Word} {j k : Nat} (hj : j < blockSize) (hk : k < blockSize) (h : offsetBy base j = offsetBy base k) :
    j = k := by
  unfold offsetBy blockSize at *
  have := congrArg BitVec.toNat h
  simp only [BitVec.toNat_add, BitVec.toNat_ofNat] at this
  have := base.isLt
  omega

@[simp] theorem offsetBy_zero (base : Word) : offsetBy base 0 = base := by
  simp [offsetBy]

/-! ### In contract: own page and shell -/

theorem firstOutOfRange_append {p : Params} {a b : List CodecOp} :
    firstOutOfRange p (a ++ b) = none ↔ firstOutOfRange p a = none ∧ firstOutOfRange p b = none := by
  simp [firstOutOfRange, List.findSome?_append]

theorem firstOutOfRange_flatten {p : Params} {l : List (List CodecOp)} :
    firstOutOfRange p l.flatten = none ↔ ∀ ops ∈ l, firstOutOfRange p ops = none := by
  induction l with
  | nil => simp [firstOutOfRange]
  | cons a l ih => simp [firstOutOfRange_append, ih]

theorem State.shellInRange_iff {n : Nat} {s : State} :
    s.shellInRange n ↔ firstOutOfRange s.cfg (s.shell.take n).flatten = none :=
  firstOutOfRange_flatten.symm

theorem State.shellInRange_congr {s t : State} (hc : t.cfg = s.cfg) (hs : t.shell = s.shell) (n : Nat) :
    t.shellInRange n ↔ s.shellInRange n := by
  simp [State.shellInRange, hc, hs]

/-- Only the parameters and the shell decide whether accesses are in contract. -/
theorem State.accessesClear_congr {s t : State} (hc : t.cfg = s.cfg) (hs : t.shell = s.shell) (as : List Word) :
    t.accessesClear as ↔ s.accessesClear as := by
  simp [State.accessesClear, State.shellInRange_congr hc hs, hc]

theorem State.accessesClear_one {a : Word} {s : State} :
    s.accessesClear [a] ↔ ownPage s.cfg a = false ∧ firstOutOfRange s.cfg (s.startedOps a) = none := by
  simp [State.accessesClear, addressesClear, State.shellInRange_iff, State.startedOps_eq]

theorem State.accessesClear_append {as bs : List Word} {s : State} :
    s.accessesClear (as ++ bs) ↔ s.accessesClear as ∧ (s.afterReads as).accessesClear bs := by
  simp only [State.accessesClear, addressesClear, State.shellInRange_iff, externalCount_append, State.afterReads_cfg,
    State.afterReads_shell, List.take_add, List.flatten_append, firstOutOfRange_append, List.mem_append, or_imp, forall_and]
  tauto

theorem State.accessesClear_cons {a : Word} {as : List Word} {s : State} :
    s.accessesClear (a :: as) ↔ s.accessesClear [a] ∧ (s.afterReads [a]).accessesClear as :=
  State.accessesClear_append (as := [a])

/-! ### One access -/

theorem State.memRead_clear {a : Word} {s : State} (h : s.accessesClear [a]) :
    s.memRead a = .ok (s.byteAt a s.draws, s.afterReads [a]) := by
  obtain ⟨h, hr⟩ := State.accessesClear_one.1 h
  simp [State.memRead, State.afterReads, h, hr]

theorem State.memRead_own {a : Word} {s : State} (h : ownPage s.cfg a = true) :
    s.memRead a = .error (.reentrancyViolation a s) := by
  simp [State.memRead, h]

theorem State.memRead_outOfRange {a : Word} {s : State} {q : Nat} (h : ownPage s.cfg a = false)
    (hq : firstOutOfRange s.cfg (s.startedOps a) = some q) : s.memRead a = .error (.quarterTrackRange q) := by
  simp [State.memRead, h, hq]

/-- Everything a guest read can do. -/
theorem State.memRead_ok {a : Word} {s t : State} {v : Byte} (h : s.memRead a = .ok (v, t)) :
    s.accessesClear [a] ∧ v = s.byteAt a s.draws ∧ t = s.afterReads [a] := by
  have hc : s.accessesClear [a] := by
    rw [State.accessesClear_one]
    unfold State.memRead at h
    split at h
    · cases h
    next hp =>
    split at h
    · cases h
    next hr =>
    exact ⟨by simpa using hp, hr⟩
  rw [State.memRead_clear hc] at h
  simp only [Except.ok.injEq, Prod.mk.injEq] at h
  exact ⟨hc, h.1.symm, h.2.symm⟩

/-- The state after a guest write. -/
def State.afterWrite (a : Word) (v : Byte) (s : State) : State :=
  { s.started a with mem := s.memAfter a v, nested := .memWrite a v :: s.nested }

@[simp] theorem State.afterWrite_cfg (a : Word) (v : Byte) (s : State) : (s.afterWrite a v).cfg = s.cfg := by
  simp [State.afterWrite]
theorem State.afterWrite_shell (a : Word) (v : Byte) (s : State) : (s.afterWrite a v).shell = (s.afterReads [a]).shell := by
  simp [State.afterWrite, State.started_eq]

theorem State.memWrite_clear {a : Word} {v : Byte} {s : State} (h : s.accessesClear [a]) :
    s.memWrite a v = .ok (s.afterWrite a v) := by
  obtain ⟨h, hr⟩ := State.accessesClear_one.1 h
  simp [State.memWrite, State.afterWrite, h, hr]

theorem State.memWrite_own {a : Word} {v : Byte} {s : State} (h : ownPage s.cfg a = true) :
    s.memWrite a v = .error (.reentrancyViolation a s) := by
  simp [State.memWrite, h]

theorem State.memWrite_outOfRange {a : Word} {v : Byte} {s : State} {q : Nat} (h : ownPage s.cfg a = false)
    (hq : firstOutOfRange s.cfg (s.startedOps a) = some q) : s.memWrite a v = .error (.quarterTrackRange q) := by
  simp [State.memWrite, h, hq]

/-- Everything a guest write can do. -/
theorem State.memWrite_ok {a : Word} {v : Byte} {s t : State} (h : s.memWrite a v = .ok t) :
    s.accessesClear [a] ∧ t = s.afterWrite a v := by
  have hc : s.accessesClear [a] := by
    rw [State.accessesClear_one]
    unfold State.memWrite at h
    split at h
    · cases h
    next hp =>
    split at h
    · cases h
    next hr =>
    exact ⟨by simpa using hp, hr⟩
  rw [State.memWrite_clear hc] at h
  simp only [Except.ok.injEq] at h
  exact ⟨hc, h.symm⟩

theorem State.afterReads_append (as bs : List Word) (s : State) :
    s.afterReads (as ++ bs) = (s.afterReads as).afterReads bs := by
  induction as generalizing s with
  | nil => rfl
  | cons a as ih => exact ih _

theorem State.byteAt_afterReads (as : List Word) (s : State) (a : Word) (n : Nat) :
    (s.afterReads as).byteAt a n = s.byteAt a n :=
  State.byteAt_congr (by simp) (by simp) a n

/-! ### Two-byte fields -/

theorem State.memReadField_clear {a : Word} {s : State} (h : s.accessesClear [a, offsetBy a 1]) :
    s.memReadField a = .ok (s.fieldAt a s.draws, s.afterReads [a, offsetBy a 1]) := by
  obtain ⟨h, h1⟩ := State.accessesClear_cons.1 h
  unfold State.memReadField
  rw [State.memRead_clear h]
  simp only
  rw [State.memRead_clear h1]
  simp only [State.byteAt_afterReads, State.afterReads_draws, List.length_singleton, State.fieldAt]
  rw [← State.afterReads_append]
  rfl

theorem State.memReadField_ok {a : Word} {s t : State} {v : Word} (h : s.memReadField a = .ok (v, t)) :
    s.accessesClear [a, offsetBy a 1] ∧ v = s.fieldAt a s.draws ∧ t = s.afterReads [a, offsetBy a 1] := by
  have hc : s.accessesClear [a, offsetBy a 1] := by
    unfold State.memReadField at h
    split at h
    · cases h
    next h1 =>
    split at h
    · cases h
    next h2 =>
    obtain ⟨a1, -, rfl⟩ := State.memRead_ok h1
    exact State.accessesClear_cons.2 ⟨a1, (State.memRead_ok h2).1⟩
  rw [State.memReadField_clear hc] at h
  simp only [Except.ok.injEq, Prod.mk.injEq] at h
  exact ⟨hc, h.1.symm, h.2.symm⟩

/-! ### Fetches -/

/-- The direct entry's accesses, one after another. -/
theorem State.accessesClear_direct {s : State} : s.accessesClear (directAddresses s.cfg) ↔
    s.accessesClear [s.cfg.dirCmd] ∧ (s.afterReads [s.cfg.dirCmd]).accessesClear [s.cfg.dirUnit] ∧
      ((s.afterReads [s.cfg.dirCmd]).afterReads [s.cfg.dirUnit]).accessesClear [s.cfg.dirAddr, offsetBy s.cfg.dirAddr 1] ∧
      (((s.afterReads [s.cfg.dirCmd]).afterReads [s.cfg.dirUnit]).afterReads [s.cfg.dirAddr, offsetBy s.cfg.dirAddr 1]).accessesClear
        [s.cfg.dirBlk, offsetBy s.cfg.dirBlk 1] := by
  rw [← State.accessesClear_append, ← State.accessesClear_append, ← State.accessesClear_append]
  rfl

/-- The indirect entry's accesses, one after another. -/
theorem State.accessesClear_indirect {s : State} : s.accessesClear s.indirectAddresses ↔
    let pb := s.indirectPointer
    let s1 := s.afterReads [offsetBy s.mli 1]
    let s2 := s1.afterReads [offsetBy s.mli 2, offsetBy (offsetBy s.mli 2) 1]
    let s3 := s2.afterReads [pb + s.cfg.pbUnit]
    let s4 := s3.afterReads [pb + s.cfg.pbAddr, offsetBy (pb + s.cfg.pbAddr) 1]
    s.accessesClear [offsetBy s.mli 1] ∧ s1.accessesClear [offsetBy s.mli 2, offsetBy (offsetBy s.mli 2) 1] ∧
      s2.accessesClear [pb + s.cfg.pbUnit] ∧ s3.accessesClear [pb + s.cfg.pbAddr, offsetBy (pb + s.cfg.pbAddr) 1] ∧
      s4.accessesClear [pb + s.cfg.pbBlk, offsetBy (pb + s.cfg.pbBlk) 1] := by
  simp only
  rw [← State.accessesClear_append, ← State.accessesClear_append, ← State.accessesClear_append, ← State.accessesClear_append]
  rfl

/-- Everything the direct entry's fetches can do when none of them faults. -/
theorem State.fetchDirect_clear {s : State} (h : s.accessesClear (directAddresses s.cfg)) :
    s.fetchDirect = .ok (s.directBlock, s.afterReads (directAddresses s.cfg)) := by
  obtain ⟨h1, h2, h3, h4⟩ := State.accessesClear_direct.1 h
  unfold State.fetchDirect
  rw [State.memRead_clear h1]
  simp only
  rw [State.memRead_clear h2]
  simp only
  rw [State.memReadField_clear h3]
  simp only
  rw [State.memReadField_clear h4]
  simp only [← State.afterReads_append, State.byteAt_afterReads, State.fieldAt, State.afterReads_draws, List.length_append,
    List.length_cons, List.length_nil]
  rfl

theorem State.fieldAt_afterReads_pointer (s : State) :
    (s.afterReads [offsetBy s.mli 1]).fieldAt (offsetBy s.mli 2) (s.afterReads [offsetBy s.mli 1]).draws =
      s.indirectPointer := by
  simp [State.indirectPointer, State.fieldAt, State.byteAt_afterReads]

/-- Everything the indirect entry's fetches can do when none of them faults. -/
theorem State.fetchIndirect_clear {s : State} (h : s.accessesClear s.indirectAddresses) :
    s.fetchIndirect = .ok (s.indirectBlock, s.afterReads s.indirectAddresses) := by
  obtain ⟨h1, h2, h3, h4, h5⟩ := State.accessesClear_indirect.1 h
  unfold State.fetchIndirect
  rw [State.memRead_clear h1]
  simp only
  rw [State.memReadField_clear h2]
  simp only [State.fieldAt_afterReads_pointer]
  rw [State.memRead_clear h3]
  simp only
  rw [State.memReadField_clear h4]
  simp only
  rw [State.memReadField_clear h5]
  simp only [← State.afterReads_append, State.byteAt_afterReads, State.fieldAt, State.afterReads_draws, List.length_append,
    List.length_cons, List.length_nil]
  rfl

theorem State.fetchDirect_ok {s t : State} {c : CallBlock} (h : s.fetchDirect = .ok (c, t)) :
    s.accessesClear (directAddresses s.cfg) ∧ c = s.directBlock ∧ t = s.afterReads (directAddresses s.cfg) := by
  have hc : s.accessesClear (directAddresses s.cfg) := by
    unfold State.fetchDirect at h
    split at h
    · cases h
    next h1 =>
    split at h
    · cases h
    next h2 =>
    split at h
    · cases h
    next h3 =>
    split at h
    · cases h
    next h4 =>
    obtain ⟨a1, -, rfl⟩ := State.memRead_ok h1
    obtain ⟨a2, -, rfl⟩ := State.memRead_ok h2
    obtain ⟨a3, -, rfl⟩ := State.memReadField_ok h3
    exact State.accessesClear_direct.2 ⟨a1, a2, a3, (State.memReadField_ok h4).1⟩
  rw [State.fetchDirect_clear hc] at h
  simp only [Except.ok.injEq, Prod.mk.injEq] at h
  exact ⟨hc, h.1.symm, h.2.symm⟩

theorem State.fetchIndirect_ok {s t : State} {c : CallBlock} (h : s.fetchIndirect = .ok (c, t)) :
    s.accessesClear s.indirectAddresses ∧ c = s.indirectBlock ∧ t = s.afterReads s.indirectAddresses := by
  have hc : s.accessesClear s.indirectAddresses := by
    unfold State.fetchIndirect at h
    split at h
    · cases h
    next h1 =>
    split at h
    · cases h
    next h2 =>
    split at h
    · cases h
    next h3 =>
    split at h
    · cases h
    next h4 =>
    split at h
    · cases h
    next h5 =>
    obtain ⟨a1, -, rfl⟩ := State.memRead_ok h1
    obtain ⟨a2, rfl, rfl⟩ := State.memReadField_ok h2
    rw [State.fieldAt_afterReads_pointer] at h3 h4 h5
    obtain ⟨a3, -, rfl⟩ := State.memRead_ok h3
    obtain ⟨a4, -, rfl⟩ := State.memReadField_ok h4
    exact State.accessesClear_indirect.2 ⟨a1, a2, a3, a4, (State.memReadField_ok h5).1⟩
  rw [State.fetchIndirect_clear hc] at h
  simp only [Except.ok.injEq, Prod.mk.injEq] at h
  exact ⟨hc, h.1.symm, h.2.symm⟩

/-! A fetch faults as its first faulting access does, with the accesses before it done. -/

theorem State.memReadField_first {a : Word} {s : State} {f : Fault} (h : s.memRead a = .error f) :
    s.memReadField a = .error f := by
  rw [State.memReadField, h]

theorem State.memReadField_second {a : Word} {s : State} {f : Fault} (hc : s.accessesClear [a])
    (h : (s.afterReads [a]).memRead (offsetBy a 1) = .error f) : s.memReadField a = .error f := by
  rw [State.memReadField, State.memRead_clear hc]
  simp only
  rw [h]

theorem State.afterReads_split (a b : Word) (as : List Word) (s : State) :
    s.afterReads (a :: b :: as) = (s.afterReads [a]).afterReads (b :: as) := rfl

theorem State.accessesClear_split {a b : Word} {as : List Word} {s : State} :
    s.accessesClear (a :: b :: as) ↔ s.accessesClear [a] ∧ (s.afterReads [a]).accessesClear (b :: as) :=
  State.accessesClear_cons

theorem State.fetchDirect_fault {s : State} {k : Nat} {a : Word} {f : Fault} (hk : (directAddresses s.cfg)[k]? = some a)
    (hc : s.accessesClear ((directAddresses s.cfg).take k))
    (hf : (s.afterReads ((directAddresses s.cfg).take k)).memRead a = .error f) : s.fetchDirect = .error f := by
  have hlt : k < 6 := (List.getElem?_eq_some_iff.1 hk).1
  unfold State.fetchDirect
  interval_cases k <;>
    simp only [directAddresses, List.getElem?_cons_succ, List.getElem?_cons_zero, Option.some.injEq] at hk <;> subst hk <;>
    simp only [directAddresses, List.take_succ_cons, List.take_zero, State.accessesClear_split, State.afterReads_split] at hc hf
  · rw [show s.memRead s.cfg.dirCmd = .error f from hf]
  · rw [State.memRead_clear hc]
    simp only
    rw [hf]
  · rw [State.memRead_clear hc.1]
    simp only
    rw [State.memRead_clear hc.2]
    simp only
    rw [State.memReadField_first hf]
  · rw [State.memRead_clear hc.1]
    simp only
    rw [State.memRead_clear hc.2.1]
    simp only
    rw [State.memReadField_second hc.2.2 hf]
  · rw [State.memRead_clear hc.1]
    simp only
    rw [State.memRead_clear hc.2.1]
    simp only
    rw [State.memReadField_clear (State.accessesClear_split.2 hc.2.2)]
    simp only [State.afterReads_split]
    rw [State.memReadField_first hf]
  · rw [State.memRead_clear hc.1]
    simp only
    rw [State.memRead_clear hc.2.1]
    simp only
    rw [State.memReadField_clear (State.accessesClear_split.2 ⟨hc.2.2.1, hc.2.2.2.1⟩)]
    simp only [State.afterReads_split]
    rw [State.memReadField_second hc.2.2.2.2 hf]

theorem State.fetchIndirect_fault {s : State} {k : Nat} {a : Word} {f : Fault} (hk : s.indirectAddresses[k]? = some a)
    (hc : s.accessesClear (s.indirectAddresses.take k))
    (hf : (s.afterReads (s.indirectAddresses.take k)).memRead a = .error f) : s.fetchIndirect = .error f := by
  have hlt : k < 8 := (List.getElem?_eq_some_iff.1 hk).1
  unfold State.fetchIndirect
  interval_cases k <;>
    simp only [State.indirectAddresses, List.getElem?_cons_succ, List.getElem?_cons_zero, Option.some.injEq] at hk <;>
    subst hk <;>
    simp only [State.indirectAddresses, List.take_succ_cons, List.take_zero, State.accessesClear_split,
      State.afterReads_split] at hc hf
  · rw [show s.memRead (offsetBy s.mli 1) = .error f from hf]
  · rw [State.memRead_clear hc]
    simp only
    rw [State.memReadField_first hf]
  · rw [State.memRead_clear hc.1]
    simp only
    rw [State.memReadField_second hc.2 hf]
  all_goals
    rw [State.memRead_clear hc.1]
    simp only
    rw [State.memReadField_clear (State.accessesClear_split.2 ⟨hc.2.1, by first | exact hc.2.2.1 | exact hc.2.2⟩)]
    simp only [State.fieldAt_afterReads_pointer, State.afterReads_split]
  · rw [show State.memRead (s.indirectPointer + s.cfg.pbUnit) _ = .error f from hf]
  all_goals
    rw [State.memRead_clear (by first | exact hc.2.2.2.1 | exact hc.2.2.2)]
    simp only
  · rw [State.memReadField_first hf]
  · rw [State.memReadField_second hc.2.2.2.2 hf]
  · rw [State.memReadField_clear (State.accessesClear_split.2 hc.2.2.2.2)]
    simp only [State.afterReads_split]
    rw [State.memReadField_first hf]
  · rw [State.memReadField_clear (State.accessesClear_split.2 ⟨hc.2.2.2.2.1, hc.2.2.2.2.2.1⟩)]
    simp only [State.afterReads_split]
    rw [State.memReadField_second hc.2.2.2.2.2.2 hf]

/-! ### Gather -/

/-- The bytes a gather of `n` addresses from `base +16 k` on answers. -/
def State.gathered (s : State) (base : Word) (k n : Nat) : List Byte :=
  (List.range n).map fun j => s.byteAt (offsetBy base (k + j)) (s.draws + j)

@[simp] theorem length_bufferAddresses (base : Word) (k n : Nat) : (bufferAddresses base k n).length = n := by
  simp [bufferAddresses]

theorem bufferAddresses_succ (base : Word) (k n : Nat) :
    bufferAddresses base k (n + 1) = offsetBy base k :: bufferAddresses base (k + 1) n := rfl

theorem bufferAddresses_take (base : Word) (k : Nat) {j n : Nat} (h : j ≤ n) :
    (bufferAddresses base k n).take j = bufferAddresses base k j := by
  induction n generalizing k j with
  | zero => simp [Nat.le_zero.1 h, bufferAddresses]
  | succ n ih =>
    cases j with
    | zero => rfl
    | succ j => rw [bufferAddresses_succ, List.take_succ_cons, ih _ (by omega), bufferAddresses_succ]

theorem mem_bufferAddresses {base a : Word} {n : Nat} : a ∈ bufferAddresses base 0 n ↔ ∃ j, j < n ∧ offsetBy base j = a := by
  simp [bufferAddresses]

@[simp] theorem State.length_gathered (s : State) (base : Word) (k n : Nat) : (s.gathered base k n).length = n := by
  simp [State.gathered]

theorem State.getElem?_gathered (s : State) (base : Word) {k n j : Nat} (h : j < n) :
    (s.gathered base k n)[j]? = some (s.byteAt (offsetBy base (k + j)) (s.draws + j)) := by
  simp [State.gathered, h]

theorem State.gathered_succ (s : State) (base : Word) (k n : Nat) :
    s.gathered base k (n + 1) =
      s.byteAt (offsetBy base k) s.draws :: (s.afterReads [offsetBy base k]).gathered base (k + 1) n := by
  simp only [State.gathered, List.range_succ_eq_map, List.map_cons, List.map_map, State.byteAt_afterReads,
    State.afterReads_draws, List.length_singleton, Nat.add_zero]
  congr 1
  apply List.map_congr_left
  intro j _
  simp only [Function.comp_apply, Nat.succ_eq_add_one]
  rw [show k + (j + 1) = k + 1 + j by omega, show s.draws + (j + 1) = s.draws + 1 + j by omega]

theorem State.gather_clear {base : Word} {k n : Nat} {s : State} (h : s.accessesClear (bufferAddresses base k n)) :
    s.gather base k n = .ok (s.gathered base k n, s.afterReads (bufferAddresses base k n)) := by
  induction n generalizing k s with
  | zero => rfl
  | succ n ih =>
    obtain ⟨h0, h⟩ := State.accessesClear_cons.1 (bufferAddresses_succ base k n ▸ h)
    rw [State.gather, State.memRead_clear h0]
    simp only
    rw [ih h, State.gathered_succ]
    rfl

/-- Everything a gather can do. -/
theorem State.gather_ok {base : Word} {k n : Nat} {s t : State} {bs : List Byte} (h : s.gather base k n = .ok (bs, t)) :
    s.accessesClear (bufferAddresses base k n) ∧ bs = s.gathered base k n ∧ t = s.afterReads (bufferAddresses base k n) := by
  have hc : s.accessesClear (bufferAddresses base k n) := by
    induction n generalizing k s bs with
    | zero => exact ⟨by simp [addressesClear, bufferAddresses], by simp [State.shellInRange, bufferAddresses]⟩
    | succ n ih =>
      rw [State.gather] at h
      split at h
      · cases h
      next h1 =>
      split at h
      · cases h
      next h2 =>
      simp only [Except.ok.injEq, Prod.mk.injEq] at h
      obtain ⟨a1, -, rfl⟩ := State.memRead_ok h1
      rw [bufferAddresses_succ]
      exact State.accessesClear_cons.2 ⟨a1, ih (h.2 ▸ h2)⟩
  rw [State.gather_clear hc] at h
  simp only [Except.ok.injEq, Prod.mk.injEq] at h
  exact ⟨hc, h.1.symm, h.2.symm⟩

/-- A gather faults as its first faulting read does, with the reads before it done. -/
theorem State.gather_fault {base : Word} {k n j : Nat} {s : State} {f : Fault} (hj : j < n)
    (hc : s.accessesClear (bufferAddresses base k j))
    (hf : (s.afterReads (bufferAddresses base k j)).memRead (offsetBy base (k + j)) = .error f) :
    s.gather base k n = .error f := by
  induction n generalizing k j s with
  | zero => omega
  | succ n ih =>
    rw [State.gather]
    cases j with
    | zero =>
      have hf : s.memRead (offsetBy base k) = .error f := hf
      rw [hf]
    | succ j =>
      obtain ⟨h0, hc⟩ := State.accessesClear_cons.1 (bufferAddresses_succ base k j ▸ hc)
      rw [State.memRead_clear h0]
      simp only
      rw [ih (k := k + 1) (j := j) (by omega) hc (by rw [Nat.add_assoc, Nat.add_comm 1 j]; exact hf)]

/-! ### Scatter -/

/-- Guest memory after writing bytes at `base +16 k ..`. -/
def scatterMem (p : Params) (base : Word) (k : Nat) : List Byte → Memory → Memory
  | [], m => m
  | b :: bs, m =>
    scatterMem p base (k + 1) bs (if isExternal p (offsetBy base k) then m else m.put (offsetBy base k).toNat b)

/-- The nested accesses of a scatter, newest first. -/
def scatterAccesses (base : Word) (k : Nat) (bs : List Byte) : List Access :=
  ((bs.zipIdx k).map fun p => Access.memWrite (offsetBy base p.2) p.1).reverse

/-- The state after a scatter. -/
def State.scattered (base : Word) (k : Nat) (bs : List Byte) (s : State) : State :=
  { s.startedN (externalCount s.cfg (bufferAddresses base k bs.length)) with
    mem := scatterMem s.cfg base k bs s.mem
    nested := scatterAccesses base k bs ++ s.nested }

@[simp] theorem State.scattered_cfg (base : Word) (k : Nat) (bs : List Byte) (s : State) : (s.scattered base k bs).cfg =
    s.cfg := rfl
@[simp] theorem State.scattered_mli (base : Word) (k : Nat) (bs : List Byte) (s : State) : (s.scattered base k bs).mli =
    s.mli := rfl
@[simp] theorem State.scattered_drives (base : Word) (k : Nat) (bs : List Byte) (s : State) : (s.scattered base k bs).drives =
    codecRun s.cfg (s.shell.take (externalCount s.cfg (bufferAddresses base k bs.length))).flatten s.drives := rfl
@[simp] theorem State.scattered_shell (base : Word) (k : Nat) (bs : List Byte) (s : State) : (s.scattered base k bs).shell =
    s.shell.drop (externalCount s.cfg (bufferAddresses base k bs.length)) := rfl
@[simp] theorem State.scattered_mem (base : Word) (k : Nat) (bs : List Byte) (s : State) : (s.scattered base k bs).mem =
    scatterMem s.cfg base k bs s.mem := rfl
@[simp] theorem State.scattered_latched (base : Word) (k : Nat) (bs : List Byte) (s : State) :
    (s.scattered base k bs).latched = s.latched := rfl
@[simp] theorem State.scattered_input (base : Word) (k : Nat) (bs : List Byte) (s : State) : (s.scattered base k bs).input =
    s.input := rfl
@[simp] theorem State.scattered_out (base : Word) (k : Nat) (bs : List Byte) (s : State) : (s.scattered base k bs).out =
    s.out := rfl
@[simp] theorem State.scattered_draws (base : Word) (k : Nat) (bs : List Byte) (s : State) : (s.scattered base k bs).draws =
    s.draws := rfl
@[simp] theorem State.scattered_store (base : Word) (k : Nat) (bs : List Byte) (s : State) : (s.scattered base k bs).store =
    s.store := rfl
@[simp] theorem State.scattered_nested (base : Word) (k : Nat) (bs : List Byte) (s : State) : (s.scattered base k bs).nested =
    scatterAccesses base k bs ++ s.nested := rfl

theorem State.scattered_cons (base : Word) (k : Nat) (b : Byte) (bs : List Byte) (s : State) :
    s.scattered base k (b :: bs) = State.scattered base (k + 1) bs (s.afterWrite (offsetBy base k) b) := by
  simp only [State.scattered, List.length_cons, bufferAddresses_succ]
  rw [externalCount_cons, State.startedN_add, ← State.started_eq]
  simp [State.startedN, State.afterWrite, scatterMem, scatterAccesses, State.memAfter]

theorem State.scatter_clear {base : Word} {k : Nat} {bs : List Byte} {s : State}
    (h : s.accessesClear (bufferAddresses base k bs.length)) : s.scatter base k bs = .ok (s.scattered base k bs) := by
  induction bs generalizing k s with
  | nil => rfl
  | cons b bs ih =>
    obtain ⟨h0, h⟩ := State.accessesClear_cons.1 (bufferAddresses_succ base k bs.length ▸ h)
    rw [State.scatter, State.memWrite_clear h0]
    simp only
    rw [ih ((State.accessesClear_congr (by simp) (State.afterWrite_shell ..) _).2 h), State.scattered_cons]

/-- Everything a scatter can do. -/
theorem State.scatter_ok {base : Word} {k : Nat} {bs : List Byte} {s t : State} (h : s.scatter base k bs = .ok t) :
    s.accessesClear (bufferAddresses base k bs.length) ∧ t = s.scattered base k bs := by
  have hc : s.accessesClear (bufferAddresses base k bs.length) := by
    induction bs generalizing k s with
    | nil => exact ⟨by simp [addressesClear, bufferAddresses], by simp [State.shellInRange, bufferAddresses]⟩
    | cons b bs ih =>
      rw [State.scatter] at h
      split at h
      · cases h
      next h1 =>
      obtain ⟨a1, rfl⟩ := State.memWrite_ok h1
      rw [List.length_cons, bufferAddresses_succ]
      exact State.accessesClear_cons.2 ⟨a1, (State.accessesClear_congr (by simp) (State.afterWrite_shell ..) _).1 (ih h)⟩
  rw [State.scatter_clear hc] at h
  simp only [Except.ok.injEq] at h
  exact ⟨hc, h.symm⟩

/-- A scatter faults as its first faulting write does, with the writes before it done. -/
theorem State.scatter_fault {base : Word} {k j : Nat} {bs : List Byte} {s : State} {f : Fault} (hj : j < bs.length)
    (hc : s.accessesClear (bufferAddresses base k j))
    (hf : ∀ b, (s.scattered base k (bs.take j)).memWrite (offsetBy base (k + j)) b = .error f) :
    s.scatter base k bs = .error f := by
  induction bs generalizing k j s with
  | nil => simp at hj
  | cons b bs ih =>
    rw [State.scatter]
    cases j with
    | zero =>
      have hf : s.memWrite (offsetBy base k) b = .error f := hf b
      rw [hf]
    | succ j =>
      obtain ⟨h0, hc⟩ := State.accessesClear_cons.1 (bufferAddresses_succ base k j ▸ hc)
      rw [State.memWrite_clear h0]
      refine ih (k := k + 1) (j := j) (by simpa using hj)
        ((State.accessesClear_congr (by simp) (State.afterWrite_shell ..) _).2 hc) fun b' => ?_
      rw [Nat.add_assoc, Nat.add_comm 1 j, ← State.scattered_cons]
      exact hf b'

theorem wf_scatterMem {p : Params} {base : Word} {k : Nat} {bs : List Byte} {m : Memory} (h : m.wf = true) :
    (scatterMem p base k bs m).wf = true := by
  induction bs generalizing k m with
  | nil => exact h
  | cons b bs ih =>
    refine ih ?_
    split
    · exact h
    · exact Memory.wf_put h

theorem within_scatterMem {p : Params} {base : Word} {k : Nat} {bs : List Byte} {m : Memory} (h : m.within 65536 = true) :
    (scatterMem p base k bs m).within 65536 = true := by
  induction bs generalizing k m with
  | nil => exact h
  | cons b bs ih =>
    refine ih ?_
    split
    · exact h
    · exact Memory.within_put h (offsetBy base k).isLt

/-- The frame of a scatter: an address it does not write, or one that is not plain RAM, reads as before. -/
theorem read_scatterMem_other {p : Params} {base x : Word} {k : Nat} {bs : List Byte} {m : Memory}
    (h : isExternal p x = true ∨ ∀ j, j < bs.length → x ≠ offsetBy base (k + j)) :
    (scatterMem p base k bs m).read x.toNat = m.read x.toNat := by
  induction bs generalizing k m with
  | nil => rfl
  | cons b bs ih =>
    rw [scatterMem, ih]
    · split
      · rfl
      · next hx =>
        refine Memory.read_put_other fun he => ?_
        have he : x = offsetBy base k := BitVec.eq_of_toNat_eq he
        rcases h with h | h
        · exact hx (he ▸ h)
        · exact h 0 (by simp) (by simpa using he)
    · rcases h with h | h
      · exact .inl h
      · exact .inr fun j hj => by
          simpa [Nat.add_assoc, Nat.add_comm 1 j] using h (j + 1) (by simpa using hj)

/-- A scatter of at most one block stores each byte at its address, where that is plain RAM. -/
theorem read_scatterMem {p : Params} {base : Word} {k j : Nat} {bs : List Byte} {m : Memory} {v : Byte} (hm : m.wf = true)
    (hk : k + bs.length ≤ blockSize) (hx : isExternal p (offsetBy base (k + j)) = false) (hv : bs[j]? = some v) :
    (scatterMem p base k bs m).read (offsetBy base (k + j)).toNat = v := by
  induction bs generalizing k j m with
  | nil => simp at hv
  | cons b bs ih =>
    simp only [List.length_cons] at hk
    cases j with
    | zero =>
      simp only [List.getElem?_cons_zero, Option.some.injEq] at hv
      simp only [Nat.add_zero] at hx ⊢
      rw [scatterMem, read_scatterMem_other, hx]
      · rw [if_neg (by simp), Memory.read_put_same (lo := 0) hm, hv]
      · refine .inr fun i hi he => ?_
        have := offsetBy_inj (by omega) (by omega) he
        omega
    | succ j =>
      rw [List.getElem?_cons_succ] at hv
      have e : k + (j + 1) = k + 1 + j := by omega
      rw [e] at hx ⊢
      rw [scatterMem]
      refine ih ?_ (by omega) hx hv
      split
      · exact hm
      · exact Memory.wf_put hm

/-! ### The Block Store -/

/-- The state after a `BsRead`, whatever it answered. -/
def State.afterBsRead (i : Word) (s : State) : State :=
  { s with
    store := { s.store with calls := s.store.calls + 1 }
    nested := .bsRead i (!s.store.fails i) :: s.nested }

@[simp] theorem State.afterBsRead_cfg (i : Word) (s : State) : (s.afterBsRead i).cfg = s.cfg := rfl
@[simp] theorem State.afterBsRead_mli (i : Word) (s : State) : (s.afterBsRead i).mli = s.mli := rfl
@[simp] theorem State.afterBsRead_drives (i : Word) (s : State) : (s.afterBsRead i).drives = s.drives := rfl
@[simp] theorem State.afterBsRead_mem (i : Word) (s : State) : (s.afterBsRead i).mem = s.mem := rfl
@[simp] theorem State.afterBsRead_latched (i : Word) (s : State) : (s.afterBsRead i).latched = s.latched := rfl
@[simp] theorem State.afterBsRead_input (i : Word) (s : State) : (s.afterBsRead i).input = s.input := rfl
@[simp] theorem State.afterBsRead_out (i : Word) (s : State) : (s.afterBsRead i).out = s.out := rfl
@[simp] theorem State.afterBsRead_draws (i : Word) (s : State) : (s.afterBsRead i).draws = s.draws := rfl
@[simp] theorem State.afterBsRead_shell (i : Word) (s : State) : (s.afterBsRead i).shell = s.shell := rfl
@[simp] theorem State.afterBsRead_store (i : Word) (s : State) : (s.afterBsRead i).store = { s.store with calls :=
    s.store.calls + 1 } := rfl
@[simp] theorem State.afterBsRead_nested (i : Word) (s : State) : (s.afterBsRead i).nested = .bsRead i (!s.store.fails i) ::
    s.nested := rfl

theorem State.bsRead_eq (i : Word) (s : State) :
    s.bsRead i = (if s.store.fails i then none else some (s.store.block i), s.afterBsRead i) := by
  unfold State.bsRead State.afterBsRead
  split <;> rfl

@[simp] theorem BlockStore.length_block (b : BlockStore) (i : Word) : (b.block i).length = blockSize := by
  simp [BlockStore.block]

theorem BlockStore.getElem?_block (b : BlockStore) (i : Word) {k : Nat} (h : k < blockSize) :
    (b.block i)[k]? = some (b.blockByte i k) := by
  simp [BlockStore.block, h]

/-- The law of R53: within the capacity a read returns the block. -/
theorem BlockStore.blockByte_within {b : BlockStore} {i : Word} (h : i.toNat < b.count.toNat) (k : Nat) :
    b.blockByte i k = b.image.read (blockSize * i.toNat + k) := by
  simp [BlockStore.blockByte, h]

/-- The chosen answer is the first one for this call, wherever it stands. -/
theorem BlockStore.answer_eq_some {b : BlockStore} {r : StoreReply} :
    b.answer = some r ↔ ∃ pre rest, b.answers = pre ++ ⟨b.calls, r⟩ :: rest ∧ ∀ a ∈ pre, a.call ≠ b.calls := by
  simp only [BlockStore.answer, Option.map_eq_some_iff, List.find?_eq_some_iff_append]
  constructor
  · rintro ⟨⟨call, reply⟩, ⟨hc, pre, rest, h, hp⟩, rfl⟩
    obtain rfl : call = b.calls := by simpa using hc
    exact ⟨pre, rest, h, fun a ha => by simpa using hp a ha⟩
  · rintro ⟨pre, rest, h, hp⟩
    exact ⟨_, ⟨by simp, pre, rest, h, fun a ha => by simpa using hp a ha⟩, rfl⟩

theorem BlockStore.fails_fail {b : BlockStore} {left : Option (List Byte)} (h : b.answer = some (.fail left)) (i : Word) :
    b.fails i = true := by
  simp [BlockStore.fails, h]

theorem BlockStore.fails_ok {b : BlockStore} {data : List Byte} (h : b.answer = some (.ok data)) (i : Word) :
    b.fails i = false := by
  simp [BlockStore.fails, h]

theorem BlockStore.fails_reference {b : BlockStore} (h : b.answer = none) (i : Word) :
    b.fails i = decide (b.count.toNat ≤ i.toNat) := by
  unfold BlockStore.fails
  rw [h]

theorem BlockStore.imageWith_within {b : BlockStore} {i : Word} (h : i.toNat < b.count.toNat) (bytes : List Byte) :
    b.imageWith i bytes = b.image.putRange (blockSize * i.toNat) (bytes.take blockSize) := by
  simp [BlockStore.imageWith, h]

theorem BlockStore.imageWith_beyond {b : BlockStore} {i : Word} (h : b.count.toNat ≤ i.toNat) (bytes : List Byte) :
    b.imageWith i bytes = b.image := by
  simp [BlockStore.imageWith, Nat.not_lt.2 h]

theorem BlockStore.imageWith_other {b : BlockStore} {i : Word} {bytes : List Byte} {x : Nat}
    (h : x < blockSize * i.toNat ∨ blockSize * i.toNat + blockSize ≤ x) : (b.imageWith i bytes).read x = b.image.read x := by
  unfold BlockStore.imageWith
  split
  · refine Memory.read_putRange_other ?_
    rw [List.length_take]
    omega
  · rfl

theorem BlockStore.imageWith_read {b : BlockStore} {i : Word} {bytes : List Byte} {k : Nat} {v : Byte} (hw : b.image.wf = true)
    (hi : i.toNat < b.count.toNat) (hk : k < blockSize) (hv : bytes[k]? = some v) :
    (b.imageWith i bytes).read (blockSize * i.toNat + k) = v := by
  rw [BlockStore.imageWith_within hi]
  exact Memory.read_putRange hw (by rw [List.getElem?_take, if_pos hk, hv])

theorem BlockStore.wf_imageWith {b : BlockStore} {i : Word} {bytes : List Byte} (hw : b.image.wf = true) :
    (b.imageWith i bytes).wf = true := by
  unfold BlockStore.imageWith
  split
  · exact Memory.wf_putRange hw
  · exact hw

theorem BlockStore.within_imageWith {b : BlockStore} {i : Word} {bytes : List Byte}
    (hw : b.image.within (blockSize * b.count.toNat) = true) :
    (b.imageWith i bytes).within (blockSize * b.count.toNat) = true := by
  unfold BlockStore.imageWith
  split
  · refine Memory.within_putRange hw ?_
    rw [List.length_take]
    unfold blockSize
    omega
  · exact hw

/-- Everything a failed write leaves: the image, or the image with bytes written into the block. -/
theorem BlockStore.imageAfterFail_cases (b : BlockStore) (i : Word) :
    b.imageAfterFail i = b.image ∨ ∃ bytes, b.imageAfterFail i = b.imageWith i bytes := by
  unfold BlockStore.imageAfterFail
  split
  · exact .inr ⟨_, rfl⟩
  · exact .inl rfl
  · exact .inl rfl
  · exact .inl rfl

theorem BlockStore.imageAfterFail_other {b : BlockStore} {i : Word} {x : Nat}
    (h : x < blockSize * i.toNat ∨ blockSize * i.toNat + blockSize ≤ x) : (b.imageAfterFail i).read x = b.image.read x := by
  rcases b.imageAfterFail_cases i with e | ⟨bytes, e⟩ <;> rw [e]
  exact BlockStore.imageWith_other h

theorem BlockStore.wf_imageAfterFail {b : BlockStore} {i : Word} (hw : b.image.wf = true) : (b.imageAfterFail i).wf = true := by
  rcases b.imageAfterFail_cases i with e | ⟨bytes, e⟩ <;> rw [e]
  · exact hw
  · exact BlockStore.wf_imageWith hw

theorem BlockStore.within_imageAfterFail {b : BlockStore} {i : Word} (hw : b.image.within (blockSize * b.count.toNat) = true) :
    (b.imageAfterFail i).within (blockSize * b.count.toNat) = true := by
  rcases b.imageAfterFail_cases i with e | ⟨bytes, e⟩ <;> rw [e]
  · exact hw
  · exact BlockStore.within_imageWith hw

end Sys2Proof.Machine
end

