-- ==== Sys2Proof/Laws/Exec.lean ====
section
/-! SUPPORT. Laws/Exec.lean: what each meaning can do, said once: an equation where it is unconditional, an inversion lemma where
it may fault. -/

namespace Sys2Proof.Machine

/-! ### The ports -/

theorem State.onCardRead_own {slot : BitVec 3} {o : BitVec 4} {s : State} {f : State → Host.Outcome State Fault Refusal}
    (h : slot = s.cfg.slot) : s.onCardRead slot o f = f s := by
  simp [State.onCardRead, h]

theorem State.onCardRead_other {slot : BitVec 3} {o : BitVec 4} {s : State} {f : State → Host.Outcome State Fault Refusal}
    (h : slot ≠ s.cfg.slot) : s.onCardRead slot o f = .next (s.guestRead (ioAddress slot o)) := by
  simp [State.onCardRead, h]

theorem State.onCardWrite_own {slot : BitVec 3} {o : BitVec 4} {v : Byte} {s : State}
    {f : State → Host.Outcome State Fault Refusal} (h : slot = s.cfg.slot) : s.onCardWrite slot o v f = f s := by
  simp [State.onCardWrite, h]

theorem State.onCardWrite_other {slot : BitVec 3} {o : BitVec 4} {v : Byte} {s : State}
    {f : State → Host.Outcome State Fault Refusal} (h : slot ≠ s.cfg.slot) :
    s.onCardWrite slot o v f = .next (s.guestWrite (ioAddress slot o) v) := by
  simp [State.onCardWrite, h]

/-- Everything an I/O read can do: its handler at this card, guest memory elsewhere. -/
theorem State.onCardRead_cases {slot : BitVec 3} {o : BitVec 4} {s : State} {f : State → Host.Outcome State Fault Refusal}
    {r : Host.Outcome State Fault Refusal} (h : s.onCardRead slot o f = r) :
    slot = s.cfg.slot ∧ f s = r ∨ slot ≠ s.cfg.slot ∧ r = .next (s.guestRead (ioAddress slot o)) := by
  by_cases hs : slot = s.cfg.slot
  · rw [State.onCardRead_own hs] at h
    exact .inl ⟨hs, h⟩
  · rw [State.onCardRead_other hs] at h
    exact .inr ⟨hs, h.symm⟩

theorem State.memAfter_external {s : State} {a : Word} {v : Byte} (h : isExternal s.cfg a = true) : s.memAfter a v = s.mem := by
  simp [State.memAfter, h]

theorem State.memAfter_same {s : State} {a : Word} {v : Byte} (hw : s.mem.wf = true) (h : isExternal s.cfg a = false) :
    (s.memAfter a v).read a.toNat = v := by
  simp only [State.memAfter, h, Bool.false_eq_true, if_false]
  exact Memory.read_put_same (lo := 0) hw

theorem State.memAfter_other {s : State} {a b : Word} {v : Byte} (h : b ≠ a) : (s.memAfter a v).read b.toNat =
    s.mem.read b.toNat := by
  unfold State.memAfter
  split
  · rfl
  · exact Memory.read_put_other fun e => h (BitVec.eq_of_toNat_eq e)

theorem State.wf_memAfter {s : State} {a : Word} {v : Byte} (hw : s.mem.wf = true) : (s.memAfter a v).wf = true := by
  unfold State.memAfter
  split
  · exact hw
  · exact Memory.wf_put hw

theorem State.within_memAfter {s : State} {a : Word} {v : Byte} (hw : s.mem.within 65536 = true) :
    (s.memAfter a v).within 65536 = true := by
  unfold State.memAfter
  split
  · exact hw
  · exact Memory.within_put hw a.isLt

theorem State.onDrive_some {n : Nat} {s : State} {d : Drive} {f : Drive → Host.Outcome State Fault Refusal}
    (h : s.drives[n]? = some d) : s.onDrive n f = f d := by
  simp [State.onDrive, h]

theorem State.onDrive_none {n : Nat} {s : State} {f : Drive → Host.Outcome State Fault Refusal}
    (h : s.drives[n]? = none) : s.onDrive n f = .refused (.noSuchDrive n) := by
  simp [State.onDrive, h]

/-- If a codec operation goes on, its drive exists. -/
theorem State.onDrive_next {n : Nat} {s t : State} {f : Drive → Host.Outcome State Fault Refusal}
    (h : s.onDrive n f = .next t) : ∃ d, s.drives[n]? = some d ∧ f d = .next t := by
  unfold State.onDrive at h
  split at h
  · cases h
  · next d hd => exact ⟨d, hd, h⟩

/-! ### The transfers -/

/-- The state after a READ that the store answered with its block. -/
def State.afterCopy (blk dest : Word) (s : State) : State :=
  ((s.afterBsRead blk).scattered dest 0 (s.store.block blk)).finish noError

/-- The state after a gather for a WRITE and the store's answer. -/
def State.afterStore (blk src : Word) (s : State) : State :=
  (((s.afterReads (bufferAddresses src 0 blockSize)).bsWrite blk (s.gathered src 0 blockSize)).2).finish
    (if s.store.fails blk then ioError else noError)

@[simp] theorem State.afterCopy_cfg (blk dest : Word) (s : State) : (s.afterCopy blk dest).cfg = s.cfg := by simp [State.afterCopy]
@[simp] theorem State.afterCopy_mli (blk dest : Word) (s : State) : (s.afterCopy blk dest).mli = s.mli := by simp [State.afterCopy]
@[simp] theorem State.afterCopy_drives (blk dest : Word) (s : State) : (s.afterCopy blk dest).drives =
    codecRun s.cfg (s.shell.take (externalCount s.cfg (bufferAddresses dest 0 blockSize))).flatten s.drives := by
  simp [State.afterCopy]
@[simp] theorem State.afterCopy_shell (blk dest : Word) (s : State) : (s.afterCopy blk dest).shell =
    s.shell.drop (externalCount s.cfg (bufferAddresses dest 0 blockSize)) := by
  simp [State.afterCopy]
@[simp] theorem State.afterCopy_mem (blk dest : Word) (s : State) : (s.afterCopy blk dest).mem = scatterMem s.cfg dest 0
    (s.store.block blk) s.mem := by simp [State.afterCopy]
@[simp] theorem State.afterCopy_latched (blk dest : Word) (s : State) : (s.afterCopy blk dest).latched = none := by
  simp [State.afterCopy]
@[simp] theorem State.afterCopy_input (blk dest : Word) (s : State) : (s.afterCopy blk dest).input = s.input := by
  simp [State.afterCopy]
@[simp] theorem State.afterCopy_out (blk dest : Word) (s : State) : (s.afterCopy blk dest).out = .byte noError := by
  simp [State.afterCopy]
@[simp] theorem State.afterCopy_draws (blk dest : Word) (s : State) : (s.afterCopy blk dest).draws = s.draws := by
  simp [State.afterCopy]
@[simp] theorem State.afterCopy_store (blk dest : Word) (s : State) : (s.afterCopy blk dest).store = { s.store with calls :=
    s.store.calls + 1 } := by simp [State.afterCopy]
@[simp] theorem State.afterCopy_nested (blk dest : Word) (s : State) : (s.afterCopy blk dest).nested = scatterAccesses dest 0
    (s.store.block blk) ++ .bsRead blk (!s.store.fails blk) :: s.nested := by simp [State.afterCopy]

@[simp] theorem State.afterStore_cfg (blk src : Word) (s : State) : (s.afterStore blk src).cfg = s.cfg := by
  simp [State.afterStore, State.bsWrite]
@[simp] theorem State.afterStore_mli (blk src : Word) (s : State) : (s.afterStore blk src).mli = s.mli := by
  simp [State.afterStore, State.bsWrite]
@[simp] theorem State.afterStore_drives (blk src : Word) (s : State) : (s.afterStore blk src).drives =
    codecRun s.cfg (s.shell.take (externalCount s.cfg (bufferAddresses src 0 blockSize))).flatten s.drives := by
  simp [State.afterStore, State.bsWrite]
@[simp] theorem State.afterStore_shell (blk src : Word) (s : State) : (s.afterStore blk src).shell =
    s.shell.drop (externalCount s.cfg (bufferAddresses src 0 blockSize)) := by
  simp [State.afterStore, State.bsWrite]
@[simp] theorem State.afterStore_mem (blk src : Word) (s : State) : (s.afterStore blk src).mem = s.mem := by
  simp [State.afterStore, State.bsWrite]
@[simp] theorem State.afterStore_latched (blk src : Word) (s : State) : (s.afterStore blk src).latched = none := by
  simp [State.afterStore, State.bsWrite]
@[simp] theorem State.afterStore_input (blk src : Word) (s : State) : (s.afterStore blk src).input = s.input := by
  simp [State.afterStore, State.bsWrite]
@[simp] theorem State.afterStore_out (blk src : Word) (s : State) : (s.afterStore blk src).out = .byte
    (if s.store.fails blk then ioError else noError) := by simp [State.afterStore, State.bsWrite]
@[simp] theorem State.afterStore_draws (blk src : Word) (s : State) : (s.afterStore blk src).draws = s.draws + blockSize := by
  simp [State.afterStore, State.bsWrite]
@[simp] theorem State.afterStore_store (blk src : Word) (s : State) : (s.afterStore blk src).store = { s.store with
      calls := s.store.calls + 1
      image := if s.store.fails blk then s.store.imageAfterFail blk else s.store.imageWith blk (s.gathered src 0 blockSize) } := by
  simp [State.afterStore, State.bsWrite]
@[simp] theorem State.afterStore_nested (blk src : Word) (s : State) : (s.afterStore blk src).nested = .bsWrite blk
    (!s.store.fails blk) :: (s.afterReads (bufferAddresses src 0 blockSize)).nested := by simp [State.afterStore,
    State.bsWrite]

theorem State.readBlock_fail {blk dest : Word} {s : State} (h : s.store.fails blk = true) :
    s.readBlock blk dest = .next ((s.afterBsRead blk).finish ioError) := by
  rw [State.readBlock, State.bsRead_eq, h]
  rfl

theorem State.readBlock_ok {blk dest : Word} {s : State} (h : s.store.fails blk = false) (hc : s.bufferClear dest) :
    s.readBlock blk dest = .next (s.afterCopy blk dest) := by
  rw [State.readBlock, State.bsRead_eq, h]
  simp only [Bool.false_eq_true, if_false]
  rw [State.scatter_clear (by simpa using (State.accessesClear_congr (by simp) (by simp) _).2 hc)]
  rfl

/-- A READ faults as its first faulting write does, with the accesses before it done. -/
theorem State.readBlock_fault {blk dest : Word} {s : State} {j : Nat} {f : Fault} (h : s.store.fails blk = false)
    (hj : j < blockSize) (hc : s.accessesClear (bufferAddresses dest 0 j))
    (hf : ∀ b, ((s.afterBsRead blk).scattered dest 0 ((s.store.block blk).take j)).memWrite (offsetBy dest j) b = .error f) :
    s.readBlock blk dest = .fault f := by
  rw [State.readBlock, State.bsRead_eq, h]
  simp only [Bool.false_eq_true, if_false]
  rw [State.scatter_fault (j := j) (by simpa using hj) ((State.accessesClear_congr (by simp) (by simp) _).2 hc)
    (by rw [Nat.zero_add]; exact hf)]

/-- Everything a READ can do when it goes on. -/
theorem State.readBlock_next {blk dest : Word} {s t : State} (h : s.readBlock blk dest = .next t) :
    s.store.fails blk = true ∧ t = (s.afterBsRead blk).finish ioError ∨
      s.store.fails blk = false ∧ s.bufferClear dest ∧ t = s.afterCopy blk dest := by
  cases hf : s.store.fails blk with
  | true =>
    rw [State.readBlock_fail hf] at h
    cases h
    exact .inl ⟨rfl, rfl⟩
  | false =>
    have hc : s.bufferClear dest := by
      rw [State.readBlock, State.bsRead_eq, hf] at h
      simp only [Bool.false_eq_true, if_false] at h
      split at h
      · cases h
      next h2 =>
      have := (State.scatter_ok h2).1
      rw [BlockStore.length_block] at this
      exact (State.accessesClear_congr (State.afterBsRead_cfg ..) (State.afterBsRead_shell ..) _).1 this
    rw [State.readBlock_ok hf hc] at h
    exact .inr ⟨rfl, hc, (Host.Outcome.next.inj h).symm⟩

theorem State.writeBlock_protected {blk src : Word} {s : State} (h : s.store.ro = true) :
    s.writeBlock blk src = .next (s.finish writeProtected) := by
  simp [State.writeBlock, State.bsRO, h]

theorem State.writeBlock_clear {blk src : Word} {s : State} (h : s.store.ro = false) (hc : s.bufferClear src) :
    s.writeBlock blk src = .next (s.afterStore blk src) := by
  rw [State.writeBlock, State.bsRO, h]
  simp only [Bool.false_eq_true, if_false]
  rw [State.gather_clear hc]
  simp only [State.afterStore, State.bsWrite, State.afterReads_store]
  cases s.store.fails blk <;> rfl

/-- A WRITE faults as its first faulting read does, with the reads before it done. -/
theorem State.writeBlock_fault {blk src : Word} {s : State} {j : Nat} {f : Fault} (h : s.store.ro = false) (hj : j < blockSize)
    (hc : s.accessesClear (bufferAddresses src 0 j))
    (hf : (s.afterReads (bufferAddresses src 0 j)).memRead (offsetBy src j) = .error f) : s.writeBlock blk src = .fault f := by
  rw [State.writeBlock, State.bsRO, h]
  simp only [Bool.false_eq_true, if_false]
  rw [State.gather_fault (j := j) hj hc (by rw [Nat.zero_add]; exact hf)]

/-- Everything a WRITE can do when it goes on. -/
theorem State.writeBlock_next {blk src : Word} {s t : State} (h : s.writeBlock blk src = .next t) :
    s.store.ro = true ∧ t = s.finish writeProtected ∨
      s.store.ro = false ∧ s.bufferClear src ∧ t = s.afterStore blk src := by
  cases hr : s.store.ro with
  | true =>
    rw [State.writeBlock_protected hr] at h
    cases h
    exact .inl ⟨rfl, rfl⟩
  | false =>
    have hc : s.bufferClear src := by
      rw [State.writeBlock, State.bsRO, hr] at h
      simp only [Bool.false_eq_true, if_false] at h
      split at h
      · cases h
      next h2 =>
      exact (State.gather_ok h2).1
    rw [State.writeBlock_clear hr hc] at h
    exact .inr ⟨rfl, hc, (Host.Outcome.next.inj h).symm⟩

/-! ### Dispatch -/

/-- Routing on the byte is executing the decoded command. -/
theorem dispatch_eq_exec (c : CallBlock) (s : State) : dispatch c s = exec (decodeCommand c) s := by
  unfold dispatch decodeCommand
  split
  · rfl
  split
  · rfl
  split
  · rfl
  split
  · rfl
  split
  · rfl
  split
  · rfl
  split
  · rfl
  split
  · rfl
  split <;> rfl

theorem dispatch_status {c : CallBlock} (h : c.cmd = 0x00) (s : State) : dispatch c s = .next (s.finish noError) := by
  unfold dispatch
  rw [if_pos h]
  rfl

theorem dispatch_read {c : CallBlock} (h : c.cmd = 0x01) (s : State) : dispatch c s = s.readBlock c.blk c.addr := by
  unfold dispatch
  rw [if_neg (by rw [h]; decide), if_pos h]
  rfl

theorem dispatch_write {c : CallBlock} (h : c.cmd = 0x02) (s : State) : dispatch c s = s.writeBlock c.blk c.addr := by
  unfold dispatch
  rw [if_neg (by rw [h]; decide), if_neg (by rw [h]; decide), if_pos h]
  rfl

theorem dispatch_other {c : CallBlock} (h0 : c.cmd ≠ 0x00) (h1 : c.cmd ≠ 0x01) (h2 : c.cmd ≠ 0x02) (s : State) :
    dispatch c s = .next (s.finish ioError) := by
  unfold dispatch
  rw [if_neg h0, if_neg h1, if_neg h2]
  split
  · rfl
  split
  · rfl
  split
  · rfl
  split
  · rfl
  split
  · rfl
  split <;> rfl

/-- Everything a command can do when it goes on. -/
theorem dispatch_next {c : CallBlock} {s t : State} (h : dispatch c s = .next t) :
    c.cmd = 0x01 ∧ s.store.fails c.blk = true ∧ t = (s.afterBsRead c.blk).finish ioError ∨
      c.cmd = 0x01 ∧ s.store.fails c.blk = false ∧ s.bufferClear c.addr ∧ t = s.afterCopy c.blk c.addr ∨
      c.cmd = 0x02 ∧ s.store.ro = false ∧ s.bufferClear c.addr ∧ t = s.afterStore c.blk c.addr ∨
      (c.cmd = 0x00 ∧ t = s.finish noError ∨ c.cmd = 0x02 ∧ s.store.ro = true ∧ t = s.finish writeProtected ∨
        c.cmd ≠ 0x00 ∧ c.cmd ≠ 0x01 ∧ c.cmd ≠ 0x02 ∧ t = s.finish ioError) := by
  by_cases h0 : c.cmd = 0x00
  · rw [dispatch_status h0] at h
    cases h
    simp [h0]
  by_cases h1 : c.cmd = 0x01
  · rw [dispatch_read h1] at h
    rcases State.readBlock_next h with h | h
    · exact .inl ⟨h1, h⟩
    · exact .inr (.inl ⟨h1, h⟩)
  by_cases h2 : c.cmd = 0x02
  · rw [dispatch_write h2] at h
    rcases State.writeBlock_next h with h | h
    · exact .inr (.inr (.inr (.inr (.inl ⟨h2, h⟩))))
    · exact .inr (.inr (.inl ⟨h2, h⟩))
  · rw [dispatch_other h0 h1 h2] at h
    exact .inr (.inr (.inr (.inr (.inr ⟨h0, h1, h2, (Host.Outcome.next.inj h).symm⟩))))

/-! ### Trigger reads -/

theorem execRd0_clear {slot : BitVec 3} {s : State} (hs : slot = s.cfg.slot) (h : s.accessesClear (directAddresses s.cfg)) :
    execRd0CmdDirect slot s = dispatch s.directBlock ((s.afterReads (directAddresses s.cfg)).latch s.directBlock) := by
  rw [execRd0CmdDirect, State.onCardRead_own hs, State.fetchDirect_clear h]
  rfl

theorem execRd3_clear {slot : BitVec 3} {s : State} (hs : slot = s.cfg.slot) (h : s.accessesClear s.indirectAddresses) :
    execRd3CmdIndirect slot s = dispatch s.indirectBlock ((s.afterReads s.indirectAddresses).latch s.indirectBlock) := by
  rw [execRd3CmdIndirect, State.onCardRead_own hs, State.fetchIndirect_clear h]
  rfl

/-- Everything the direct entry can do when it goes on. -/
theorem execRd0_next {slot : BitVec 3} {s t : State} (h : execRd0CmdDirect slot s = .next t) :
    slot ≠ s.cfg.slot ∧ t = s.guestRead (ioAddress slot 0) ∨
      slot = s.cfg.slot ∧ s.accessesClear (directAddresses s.cfg) ∧
        dispatch s.directBlock ((s.afterReads (directAddresses s.cfg)).latch s.directBlock) = .next t := by
  rcases State.onCardRead_cases h with ⟨hs, h⟩ | ⟨hs, h⟩
  · unfold runFetched at h
    split at h
    · cases h
    next h1 =>
    obtain ⟨hc, rfl, rfl⟩ := State.fetchDirect_ok h1
    exact .inr ⟨hs, hc, h⟩
  · cases h
    exact .inl ⟨hs, rfl⟩

/-- Everything the indirect entry can do when it goes on. -/
theorem execRd3_next {slot : BitVec 3} {s t : State} (h : execRd3CmdIndirect slot s = .next t) :
    slot ≠ s.cfg.slot ∧ t = s.guestRead (ioAddress slot 3) ∨
      slot = s.cfg.slot ∧ s.accessesClear s.indirectAddresses ∧
        dispatch s.indirectBlock ((s.afterReads s.indirectAddresses).latch s.indirectBlock) = .next t := by
  rcases State.onCardRead_cases h with ⟨hs, h⟩ | ⟨hs, h⟩
  · unfold runFetched at h
    split at h
    · cases h
    next h1 =>
    obtain ⟨hc, rfl, rfl⟩ := State.fetchIndirect_ok h1
    exact .inr ⟨hs, hc, h⟩
  · cases h
    exact .inl ⟨hs, rfl⟩

/-! ### The codec -/

theorem quarterTrackOut_false {p : Params} {q : Nat} (h : q < 4 * p.ntracks) : quarterTrackOut p q = false := by
  simpa [quarterTrackOut, stepsPerTrack] using h

theorem trackOf_lt {p : Params} {q : Nat} (h : quarterTrackOut p q = false) : trackOf q < p.ntracks := by
  have h : q < 4 * p.ntracks := by simpa [quarterTrackOut, stepsPerTrack] using h
  simp only [trackOf, stepsPerTrack]
  omega

/-- Read after write at the cursor of a track of the drive. -/
theorem Drive.byteAt_withByte_same {p : Params} {d : Drive} {t : Nat} {v : Byte} (h : driveOk p d = true) (ht : t < p.ntracks) :
    (d.withByte t d.pos v).byteAt t d.pos = v := by
  obtain ⟨-, hl, hw⟩ := driveOk_iff.1 h
  have ht : t < d.tracks.length := by omega
  unfold Drive.byteAt
  rw [Drive.withByte_tracks, List.getD_eq_getElem _ _ (by simpa using ht), List.getElem_set_self,
    List.getD_eq_getElem _ _ ht]
  exact Memory.read_put_same (lo := 0) (hw _ (List.getElem_mem ht)).1

/-- The frame of a track write: every other byte of every track reads as before. -/
theorem Drive.byteAt_withByte_other {d : Drive} {t t' p p' : Nat} {v : Byte} (h : (t', p') ≠ (t, p)) :
    (d.withByte t p v).byteAt t' p' = d.byteAt t' p' := by
  unfold Drive.byteAt
  rw [Drive.withByte_tracks]
  by_cases ht : t' = t
  · subst ht
    have hp : p' ≠ p := fun e => h (by rw [e])
    by_cases hl : t' < d.tracks.length
    · rw [List.getD_eq_getElem _ _ (by simpa using hl), List.getElem_set_self, Memory.read_put_other hp]
    · rw [List.set_eq_of_length_le (by omega)]
  · simp [List.getD_eq_getElem?_getD, Ne.symm ht]

/-- Everything `NREAD` can do when it goes on. -/
theorem execNread_next {n q : Nat} {pad : Byte} {s t : State} (h : execNread n q pad s = .next t) :
    ∃ d, s.drives[n]? = some d ∧ quarterTrackOut s.cfg q = false ∧
      t = (s.setDrive n (d.advance s.cfg)).reply (.byte (d.byteAt (trackOf q) d.pos)) := by
  obtain ⟨d, hd, h⟩ := State.onDrive_next h
  split at h
  · cases h
  next hq =>
  cases h
  exact ⟨d, hd, by simpa using hq, rfl⟩

/-- Everything `NWRITE` can do when it goes on. -/
theorem execNwrite_next {n q : Nat} {v : Byte} {s t : State} (h : execNwrite n q v s = .next t) :
    ∃ d, s.drives[n]? = some d ∧ quarterTrackOut s.cfg q = false ∧
      t = (s.setDrive n ((d.withByte (trackOf q) d.pos v).advance s.cfg)).reply .silent := by
  obtain ⟨d, hd, h⟩ := State.onDrive_next h
  split at h
  · cases h
  next hq =>
  cases h
  exact ⟨d, hd, by simpa using hq, rfl⟩

theorem nextPos_lt {p : Params} (h : 1 ≤ p.trackLen) (pos : Nat) : nextPos p pos < p.trackLen :=
  Nat.mod_lt _ h

/-- `k` advances of the cursor. -/
theorem iterate_nextPos (p : Params) (pos k : Nat) (h : pos < p.trackLen) : (nextPos p)^[k] pos = (pos + k) % p.trackLen := by
  induction k with
  | zero => simp [Nat.mod_eq_of_lt h]
  | succ k ih => rw [Function.iterate_succ_apply', ih, nextPos, Nat.mod_add_mod, Nat.add_assoc]

theorem driveOk_advance {p : Params} {d : Drive} (hl : 1 ≤ p.trackLen) (h : driveOk p d = true) :
    driveOk p (d.advance p) = true :=
  driveOk_iff.2 ⟨nextPos_lt hl _, (driveOk_iff.1 h).2⟩

theorem driveOk_withByte {p : Params} {d : Drive} {t : Nat} {v : Byte} (h : driveOk p d = true) :
    driveOk p (d.withByte t d.pos v) = true := by
  obtain ⟨hp, hl, hm⟩ := driveOk_iff.1 h
  refine driveOk_iff.2 ⟨hp, by simpa using hl, fun m hmem => ?_⟩
  rw [Drive.withByte_tracks] at hmem
  rcases List.mem_or_eq_of_mem_set hmem with hmem | rfl
  · exact hm _ hmem
  · by_cases ht : t < d.tracks.length
    · have := hm _ (List.getElem_mem ht)
      rw [List.getD_eq_getElem _ _ ht]
      exact ⟨Memory.wf_put this.1, Memory.within_put this.2 hp⟩
    · rw [List.getD_eq_default _ _ (by omega)]
      exact ⟨Memory.wf_put rfl, Memory.within_put rfl hp⟩

/-! ### Codec operations of the shell -/

@[simp] theorem length_codecEffect (p : Params) (ds : List Drive) (op : CodecOp) : (codecEffect p ds op).length = ds.length := by
  cases op <;> simp [codecEffect]

@[simp] theorem length_codecRun (p : Params) (ops : List CodecOp) (ds : List Drive) :
    (codecRun p ops ds).length = ds.length := by
  induction ops generalizing ds with
  | nil => rfl
  | cons op ops ih => exact (ih _).trans (length_codecEffect ..)

theorem modify_getElem? {ds : List Drive} {n : Nat} {d : Drive} (h : ds[n]? = some d) (f : Drive → Drive) :
    ds.modify n f = ds.set n (f d) := by
  obtain ⟨hn, rfl⟩ := List.getElem?_eq_some_iff.1 h
  apply List.ext_getElem?
  intro k
  by_cases hk : n = k
  · subst hk
    simp [hn]
  · simp [hk]

theorem mem_modify {ds : List Drive} {n : Nat} {f : Drive → Drive} {e : Drive} (h : e ∈ ds.modify n f) :
    e ∈ ds ∨ ∃ d ∈ ds, e = f d := by
  cases hd : ds[n]? with
  | none =>
    rw [List.modify_eq_self (by simpa using hd)] at h
    exact .inl h
  | some d =>
    rw [modify_getElem? hd] at h
    rcases List.mem_or_eq_of_mem_set h with h | h
    · exact .inl h
    · exact .inr ⟨d, List.mem_of_getElem? hd, h⟩

/-- What the shell starts keeps every drive's shape. -/
theorem driveOk_codecEffect {p : Params} {ds : List Drive} (hl : 1 ≤ p.trackLen) (h : ∀ d ∈ ds, driveOk p d = true)
    (op : CodecOp) : ∀ d ∈ codecEffect p ds op, driveOk p d = true := by
  intro e he
  cases op with
  | read n q =>
    rcases mem_modify he with he | ⟨d, hd, rfl⟩
    · exact h _ he
    · exact driveOk_advance hl (h _ hd)
  | write n q v =>
    rcases mem_modify he with he | ⟨d, hd, rfl⟩
    · exact h _ he
    · exact driveOk_advance hl (driveOk_withByte (h _ hd))
  | powerOn n => exact h _ he
  | powerOff n => exact h _ he

theorem driveOk_codecRun {p : Params} {ops : List CodecOp} {ds : List Drive} (hl : 1 ≤ p.trackLen)
    (h : ∀ d ∈ ds, driveOk p d = true) : ∀ d ∈ codecRun p ops ds, driveOk p d = true := by
  induction ops generalizing ds with
  | nil => exact h
  | cons op ops ih => exact ih (driveOk_codecEffect hl h op)

/-- A codec operation of the shell has the effect on the drives that its port operation has. -/
theorem exec_codecOp {op : CodecOp} {s : State} (hd : s.drives.length = s.cfg.ndrives) (hw : op.instr.wf s.cfg = true) :
    ∃ r, exec op.instr s = .next { s with drives := codecEffect s.cfg s.drives op, out := r } := by
  cases op <;> simp only [CodecOp.instr, Instr.wf, Params.hasDrive, Params.hasQuarterTrack, Bool.and_eq_true,
    decide_eq_true_eq] at hw
  case read n q =>
    obtain ⟨d, hn⟩ : ∃ d, s.drives[n]? = some d := ⟨_, List.getElem?_eq_getElem (hd ▸ hw.1)⟩
    simp only [CodecOp.instr, exec, execNread, State.onDrive_some hn, quarterTrackOut_false hw.2, codecEffect,
      modify_getElem? hn]
    exact ⟨_, rfl⟩
  case write n q v =>
    obtain ⟨d, hn⟩ : ∃ d, s.drives[n]? = some d := ⟨_, List.getElem?_eq_getElem (hd ▸ hw.1)⟩
    simp only [CodecOp.instr, exec, execNwrite, State.onDrive_some hn, quarterTrackOut_false hw.2, codecEffect,
      modify_getElem? hn]
    exact ⟨_, rfl⟩
  all_goals
    have hn := List.getElem?_eq_getElem (hd ▸ hw)
    simp only [CodecOp.instr, exec, execPwron, execPwroff, State.onDrive_some hn]
    exact ⟨_, rfl⟩

theorem CodecOp.inRange_of_wf {p : Params} {op : CodecOp} (h : op.instr.wf p = true) : op.outOfRange p = none := by
  cases op <;> simp_all [CodecOp.instr, Instr.wf, Params.hasQuarterTrack, CodecOp.outOfRange, quarterTrackOut, stepsPerTrack]

theorem firstOutOfRange_of_wf {p : Params} {ops : List CodecOp} (h : ∀ op ∈ ops, op.instr.wf p = true) :
    firstOutOfRange p ops = none := by
  rw [firstOutOfRange, List.findSome?_eq_none_iff]
  exact fun op ho => CodecOp.inRange_of_wf (h op ho)

/-- An I/O access of another slot's page is a guest access of guest memory, whatever the operation. -/
theorem exec_otherSlot {i : Instr} {slot : BitVec 3} (h : ioSlot i = some slot) :
    (∃ o, ∀ s : State, slot ≠ s.cfg.slot → exec i s = .next (s.guestRead (ioAddress slot o))) ∨
      ∃ o v, ∀ s : State, slot ≠ s.cfg.slot → exec i s = .next (s.guestWrite (ioAddress slot o) v) := by
  cases i <;> simp only [ioSlot, Option.some.injEq, reduceCtorEq] at h <;> subst h <;>
    simp only [exec, execRd0CmdDirect, execRd3CmdIndirect, execRd4Unmapped, execRd5Unmapped, execRd6Unmapped,
      execRd7Unmapped, execRd8Unmapped, execRd9Unmapped, execRd10Unmapped, execRd11Unmapped, execRd12Unmapped,
      execRd13Unmapped, execRd14Unmapped, execRd15Unmapped, execWr0Ignored, execWr1Ignored, execWr2Ignored,
      execWr3Ignored, execWr6Ignored, execWr7Ignored, execWr8Ignored, execWr9Ignored, execWr10Ignored, execWr11Ignored,
      execWr12Ignored, execWr13Ignored, execWr14Ignored, execWr15Ignored, execRd1CapLo, execRd2CapHi, execWr4MliLo,
      execWr5MliHi] <;>
    first
      | exact .inl ⟨_, fun s hs => State.onCardRead_other hs⟩
      | exact .inr ⟨_, _, fun s hs => State.onCardWrite_other hs⟩

/-- Every codec operation acts on its drive. -/
theorem exec_nib {i : Instr} {n : Nat} (h : nibDrive i = some n) : 
    ∃ f : State → Drive → Host.Outcome State Fault Refusal, ∀ s, exec i s = s.onDrive n (f s) := by
  cases i <;> simp only [nibDrive, Option.some.injEq, reduceCtorEq] at h <;> subst h <;>
    simp only [exec, execNread, execNwrite, execPwron, execPwroff] <;>
    exact ⟨fun s d => _, fun _ => rfl⟩

/-- Everything an I/O access other than a trigger read can do at this card: it goes on, and changes at most `MLI`, the response
and the draws. -/
theorem exec_ioPlain {i : Instr} {s : State} (h : ioSlot i = some s.cfg.slot) (ht : isTrigger i = false) :
    ∃ m r n, exec i s = .next { s with mli := m, out := r, draws := n } ∧ (writesMli i = false → m = s.mli) := by
  cases i <;> simp only [ioSlot, isTrigger, Option.some.injEq, reduceCtorEq] at h ht <;> subst h <;>
    (
      simp only [exec, execRd4Unmapped, execRd5Unmapped, execRd6Unmapped, execRd7Unmapped, execRd8Unmapped,
        execRd9Unmapped, execRd10Unmapped, execRd11Unmapped, execRd12Unmapped, execRd13Unmapped, execRd14Unmapped,
        execRd15Unmapped, execWr0Ignored, execWr1Ignored, execWr2Ignored, execWr3Ignored, execWr6Ignored,
        execWr7Ignored, execWr8Ignored, execWr9Ignored, execWr10Ignored, execWr11Ignored, execWr12Ignored,
        execWr13Ignored, execWr14Ignored, execWr15Ignored, execRd1CapLo, execRd2CapHi, execWr4MliLo, execWr5MliHi,
            State.onCardRead_own,
        State.onCardWrite_own]
      exact ⟨_, _, _, rfl, by first | exact fun _ => rfl | simp [writesMli]⟩)

/-- The same as an inversion, for any slot. -/
theorem exec_ioPlain_next {i : Instr} {slot : BitVec 3} {s t : State} (h : ioSlot i = some slot) (ht : isTrigger i = false)
    (hx : exec i s = .next t) :
    slot = s.cfg.slot ∧ (∃ m r n, t = { s with mli := m, out := r, draws := n } ∧ (writesMli i = false → m = s.mli)) ∨
      slot ≠ s.cfg.slot ∧ ((∃ o, t = s.guestRead (ioAddress slot o)) ∨ ∃ o v, t = s.guestWrite (ioAddress slot o) v) := by
  by_cases hs : slot = s.cfg.slot
  · obtain ⟨m, r, n, e, hm⟩ := exec_ioPlain (hs ▸ h) ht
    exact .inl ⟨hs, m, r, n, Host.Outcome.next.inj (hx.symm.trans e), hm⟩
  · rcases exec_otherSlot h with ⟨o, e⟩ | ⟨o, v, e⟩
    · exact .inr ⟨hs, .inl ⟨o, Host.Outcome.next.inj (hx.symm.trans (e s hs))⟩⟩
    · exact .inr ⟨hs, .inr ⟨o, v, Host.Outcome.next.inj (hx.symm.trans (e s hs))⟩⟩

/-- Everything a codec operation can do when it goes on: it changes at most its own drive and the response. -/
theorem exec_nib_next {i : Instr} {n : Nat} {s t : State} (h : nibDrive i = some n) (hx : exec i s = .next t) :
    ∃ d e r, s.drives[n]? = some d ∧ t = { s with drives := s.drives.set n e, out := r } ∧ (writesDrives i = false → e = d) := by
  cases i <;> simp only [nibDrive, Option.some.injEq, reduceCtorEq] at h <;> subst h
  case nread q pad =>
    obtain ⟨d, hd, -, rfl⟩ := execNread_next (pad := pad) hx
    exact ⟨d, _, _, hd, rfl, by simp [writesDrives]⟩
  case nwrite =>
    obtain ⟨d, hd, -, rfl⟩ := execNwrite_next hx
    exact ⟨d, _, _, hd, rfl, by simp [writesDrives]⟩
  all_goals
    obtain ⟨d, hd, hx⟩ := State.onDrive_next hx
    cases hx
    refine ⟨d, d, .silent, hd, ?_, fun _ => rfl⟩
    obtain ⟨hn, rfl⟩ := List.getElem?_eq_some_iff.1 hd
    rw [List.set_getElem_self]
    rfl

theorem append_ne {n m : Nat} (a : BitVec n) (x : BitVec m) {b : BitVec (n + m)} (h : b.extractLsb' m n ≠ a) : a ++ x ≠ b := by
  rintro rfl
  rw [BitVec.extractLsb'_append_eq_of_le (by omega)] at h
  simp at h

/-- A command is the dispatch of its call block. -/
theorem exec_command {i : Instr} {c : CallBlock} (h : encode i = .cmd c) (s : State) : exec i s = dispatch c s := by
  cases i <;> simp only [encode, encodeRead, encodeWrite, encodeNib, Packet.cmd.injEq, reduceCtorEq] at h <;> subst h
  case status => rfl
  case read unit addr blk => exact (dispatch_read (c := ⟨1, unit, addr, blk⟩) rfl s).symm
  case write unit addr blk => exact (dispatch_write (c := ⟨2, unit, addr, blk⟩) rfl s).symm
  case format => rfl
  all_goals
    rw [dispatch_other (append_ne _ _ (by decide)) (append_ne _ _ (by decide)) (append_ne _ _ (by decide))]
    rfl

/-- The operations that are neither an I/O access, nor a command, nor the codec's are the host's. -/
theorem instr_cases (i : Instr) :
    (∃ slot, ioSlot i = some slot) ∨ (∃ c, encode i = .cmd c) ∨ (∃ n, nibDrive i = some n) ∨
      i = .reset ∨ i = .save ∨ ∃ m, i = .load m := by
  cases i <;> simp [ioSlot, encode, encodeNib, nibDrive]

/-! ### A step -/

/-- A step from `IDLE` with a decodable transaction at the head of the input. -/
theorem step_port {s : State} {t : Txn} {rest : List Txn} {i : Instr} (hl : s.latched = none) (hi : s.input = t :: rest)
    (hd : decode (.port t) = .ok i) : step s = exec i (s.accept rest) := by
  simp [step, hl, hi, runPacket, hd]

theorem step_latched {s : State} {c : CallBlock} (hl : s.latched = some c) : step s = exec (decodeCommand c) s := by
  simp [step, hl, runPacket, decode]

theorem step_empty {s : State} (hl : s.latched = none) (hi : s.input = []) : step s = .next s := by
  simp [step, hl, hi]

/-- Everything a step can do when it goes on. -/
theorem step_next {s t : State} (h : step s = .next t) :
    (∃ c, s.latched = some c ∧ exec (decodeCommand c) s = .next t) ∨
      (s.latched = none ∧ s.input = [] ∧ t = s) ∨
      (s.latched = none ∧ ∃ x rest, s.input = x :: rest ∧
        ((∃ i, decode (.port x) = .ok i ∧ exec i (s.accept rest) = .next t) ∨
          (∃ a, decode (.port x) = .error (.notIoPage a none) ∧ t = (s.accept rest).guestRead a) ∨
          ∃ a v, decode (.port x) = .error (.notIoPage a (some v)) ∧ t = (s.accept rest).guestWrite a v)) := by
  cases hl : s.latched with
  | some c => exact .inl ⟨c, rfl, step_latched hl ▸ h⟩
  | none =>
    cases hi : s.input with
    | nil =>
      rw [step_empty hl hi] at h
      cases h
      exact .inr (.inl ⟨rfl, rfl, rfl⟩)
    | cons x rest =>
      refine .inr (.inr ⟨rfl, x, rest, rfl, ?_⟩)
      simp only [step, hl, hi, runPacket] at h
      split at h
      · next i hd => exact .inl ⟨i, hd, h⟩
      · next e hd =>
        cases e with
        | notIoPage a data =>
          cases data with
          | none => cases h; exact .inr (.inl ⟨a, hd, rfl⟩)
          | some v => cases h; exact .inr (.inr ⟨a, v, hd, rfl⟩)
        | _ => cases h

end Sys2Proof.Machine
end

