-- ==== Sys2Proof/Laws/Congr.lean ====
section
/-! SUPPORT. Laws/Congr.lean: what the trigger reads and the commands depend on: the parameters, guest memory, the store, the
shell and the draws (and `MLI` for the indirect entry), and nothing else of the state. -/

namespace Sys2Proof.Machine

/-- The reads of a buffer, newest first. -/
theorem State.afterReads_buffer_nested (addr : Word) (s : State) (n : Nat) : (s.afterReads (bufferAddresses addr 0 n)).nested =
    ((List.range n).map fun k => Access.memRead (offsetBy addr k) (s.byteAt (offsetBy addr k)
        (s.draws + k))).reverse ++ s.nested := by
  rw [State.afterReads_nested_eq]
  congr 2
  apply List.ext_getElem?
  intro k
  by_cases hk : k < n
  · simp [bufferAddresses, hk]
  · simp [bufferAddresses, hk]

/-- A WRITE changes nothing but these fields. -/
theorem State.afterStore_eq (blk addr : Word) (s : State) : s.afterStore blk addr =
    { s.startedN (externalCount s.cfg (bufferAddresses addr 0 blockSize)) with
      store := (s.afterStore blk addr).store
      latched := none
      out := .byte (if s.store.fails blk then ioError else noError)
      nested := (s.afterStore blk addr).nested
      draws := s.draws + blockSize } := by
  simp only [State.afterStore_store, State.afterStore_nested]
  simp [State.afterStore, State.bsWrite, State.afterReads_eq, State.finish]

theorem State.gathered_congr {s s' : State} (hc : s'.cfg = s.cfg) (hm : s'.mem = s.mem) (hd : s'.draws = s.draws) (b : Word)
    (k n : Nat) : s'.gathered b k n = s.gathered b k n := by
  unfold State.gathered
  apply List.map_congr_left
  intro j _
  rw [State.byteAt_congr hc hm, hd]

theorem State.byteAt_congr_fun {s s' : State} (hc : s'.cfg = s.cfg) (hm : s'.mem = s.mem) : s'.byteAt = s.byteAt := by
  funext a n; exact State.byteAt_congr hc hm a n
/-- A command goes on alike from two states that agree on the parameters, guest memory, the store, the shell and the draws; the
codec operations it starts are the same. -/
theorem dispatch_congr {c : CallBlock} {s s' t : State} (hc : s'.cfg = s.cfg) (hm : s'.mem = s.mem) (hs : s'.store = s.store)
    (hd : s'.draws = s.draws) (hsh : s'.shell = s.shell) (hx : dispatch c s = .next t) :
    ∃ after ops, t.nested = after ++ s.nested ∧ t.drives = codecRun s.cfg ops s.drives ∧ dispatch c s' = .next { s' with
      out := t.out, mem := t.mem, store := t.store, draws := t.draws, latched := none, nested := after ++ s'.nested,
      drives := codecRun s.cfg ops s'.drives, shell := t.shell } := by
  have hb : ∀ a, s'.bufferClear a ↔ s.bufferClear a := fun a => State.accessesClear_congr hc hsh _
  rcases dispatch_next hx with ⟨h, f, rfl⟩ | ⟨h, f, b, rfl⟩ | ⟨h, f, b, rfl⟩ | ⟨h, rfl⟩ | ⟨h, f, rfl⟩ | ⟨h, h1, h2, rfl⟩
  · refine ⟨[_], [], rfl, rfl, ?_⟩
    rw [dispatch_read h, State.readBlock_fail (hs ▸ f)]
    simp [State.finish, State.afterBsRead, hs, hd, hm, hsh]
  · refine ⟨scatterAccesses c.addr 0 (s.store.block c.blk) ++ [.bsRead c.blk (!s.store.fails c.blk)], _, by simp,
      State.afterCopy_drives .., ?_⟩
    rw [dispatch_read h, State.readBlock_ok (hs ▸ f) ((hb _).2 b)]
    simp [State.afterCopy, State.finish, State.scattered, State.startedN, State.afterBsRead, hs, hd, hm, hc, hsh]
  · have e := State.afterReads_buffer_nested c.addr s blockSize
    refine ⟨.bsWrite c.blk (!s.store.fails c.blk) :: _, _, by rw [State.afterStore_nested, e]; rfl,
      State.afterStore_drives .., ?_⟩
    rw [dispatch_write h, State.writeBlock_clear (hs ▸ f) ((hb _).2 b), State.afterStore_eq]
    have e' := State.afterReads_buffer_nested c.addr s' blockSize
    rw [State.byteAt_congr_fun hc hm, hd] at e'
    rw [State.afterStore_nested, e']
    simp only [State.afterStore_store, State.afterStore_out, State.afterStore_draws, State.afterStore_mem,
        State.afterStore_shell, State.startedN, hs, hd, hm, hc, hsh, State.gathered_congr hc hm hd]
    rfl
  · exact ⟨[], [], rfl, rfl, by rw [dispatch_status h]; simp [State.finish, hm, hs, hd, hsh]⟩
  · exact ⟨[], [], rfl, rfl, by
      rw [dispatch_write h, State.writeBlock_protected (hs ▸ f)]; simp [State.finish, hm, hs, hd, hsh]⟩
  · exact ⟨[], [], rfl, rfl, by rw [dispatch_other h h1 h2]; simp [State.finish, hm, hs, hd, hsh]⟩

theorem State.directBlock_congr {s s' : State} (hc : s'.cfg = s.cfg) (hm : s'.mem = s.mem) (hd : s'.draws = s.draws) :
    s'.directBlock = s.directBlock := by
  simp [State.directBlock, State.fieldAt, State.byteAt_congr_fun hc hm, hc, hd]
theorem State.indirectPointer_congr {s s' : State} (hc : s'.cfg = s.cfg) (hm : s'.mem = s.mem) (hd : s'.draws = s.draws) (hl :
    s'.mli = s.mli) : s'.indirectPointer = s.indirectPointer := by
  simp [State.indirectPointer, State.fieldAt, State.byteAt_congr_fun hc hm, hd, hl]
theorem State.indirectAddresses_congr {s s' : State} (hc : s'.cfg = s.cfg) (hm : s'.mem = s.mem) (hd : s'.draws = s.draws)
    (hl : s'.mli = s.mli) : s'.indirectAddresses = s.indirectAddresses := by
  simp [State.indirectAddresses, State.indirectPointer_congr hc hm hd hl, hc, hl]
theorem State.indirectBlock_congr {s s' : State} (hc : s'.cfg = s.cfg) (hm : s'.mem = s.mem) (hd : s'.draws = s.draws) (hl :
    s'.mli = s.mli) : s'.indirectBlock = s.indirectBlock := by
  simp [State.indirectBlock, State.fieldAt, State.byteAt_congr_fun hc hm, State.indirectPointer_congr hc hm hd hl, hc, hd, hl]

theorem State.afterReads_nested_congr {s s' : State} (hc : s'.cfg = s.cfg) (hm : s'.mem = s.mem) (hd : s'.draws = s.draws)
    (as : List Word) : ∃ l, (s.afterReads as).nested = l ++ s.nested ∧ (s'.afterReads as).nested = l ++ s'.nested := by
  refine ⟨_, State.afterReads_nested_eq as s, ?_⟩
  rw [State.afterReads_nested_eq, State.byteAt_congr_fun hc hm, hd]

/-- The same for a command after its field fetches. -/
theorem dispatch_afterReads_congr {as : List Word} {c : CallBlock} {s s' t : State} (hc : s'.cfg = s.cfg) (hm : s'.mem = s.mem)
    (hs : s'.store = s.store) (hd : s'.draws = s.draws) (hsh : s'.shell = s.shell)
    (hx : dispatch c ((s.afterReads as).latch c) = .next t) :
    ∃ after ops, t.nested = after ++ s.nested ∧ t.drives = codecRun s.cfg ops s.drives ∧
      dispatch c ((s'.afterReads as).latch c) = .next { s' with
        out := t.out, mem := t.mem, store := t.store, draws := t.draws, latched := none, nested := after ++ s'.nested,
        drives := codecRun s.cfg ops s'.drives, shell := t.shell } := by
  obtain ⟨l, ops, h1, hdr, h2⟩ := dispatch_congr (s' := (s'.afterReads as).latch c) (by simpa) (by simpa) (by simpa) (by simpa)
    (by simp [hc, hsh]) hx
  obtain ⟨l2, h3, h4⟩ := State.afterReads_nested_congr hc hm hd as
  refine ⟨l ++ l2, (s.shell.take (externalCount s.cfg as)).flatten ++ ops, ?_, ?_, ?_⟩
  · rw [h1, State.latch_nested, h3, List.append_assoc]
  · rw [hdr, codecRun_append]
    simp
  · rw [h2, State.latch_nested, h4, codecRun_append]
    simp [State.latch, State.afterReads_eq, State.startedN, hc, hsh]

end Sys2Proof.Machine
end

