-- ==== Sys2Proof/Laws/Encoding.lean ====
section
/-! SUPPORT. Laws/Encoding.lean: the fields of the words `ioWord` and `nibWord` build, and that a word is rebuilt from its fields. -/

namespace Sys2Proof

theorem extract_low_append {n m : Nat} (a : BitVec n) (b : BitVec m) : (a ++ b).extractLsb' 0 m = b := by
  rw [BitVec.extractLsb'_append_eq_of_add_le (by omega)]
  simp

theorem extract_high_append {n m : Nat} (a : BitVec n) (b : BitVec m) : (a ++ b).extractLsb' m n = a := by
  rw [BitVec.extractLsb'_append_eq_of_le (by omega)]
  simp

/-- The fields of an `IO` word. -/
theorem ioWord_fields : ∀ (w : BitVec 1) (slot : BitVec 3) (o : BitVec 4),
    (ioWord w slot o).extractLsb' 16 1 = w ∧ (ioWord w slot o).extractLsb' 7 9 = ioPageBits ∧
      (ioWord w slot o).extractLsb' 4 3 = slot ∧ (ioWord w slot o).extractLsb' 0 4 = o := by
  decide

/-- An `IO` word of an I/O page is its fields. -/
theorem ioWord_of_fields {w : BitVec 17} (h : w.extractLsb' 7 9 = ioPageBits) :
    ioWord (w.extractLsb' 16 1) (w.extractLsb' 4 3) (w.extractLsb' 0 4) = w := by
  unfold ioWord
  rw [← h, BitVec.extractLsb'_append_extractLsb'_eq_extractLsb' (by omega),
    BitVec.extractLsb'_append_extractLsb'_eq_extractLsb' (by omega),
    BitVec.extractLsb'_append_extractLsb'_eq_extractLsb' (by omega)]
  exact BitVec.extractLsb'_eq_self

/-- The fields of a `NIB` word. -/
theorem nibWord_fields (pp : BitVec 2) (q d : Byte) :
    (nibWord pp q d).extractLsb' 16 2 = pp ∧ (nibWord pp q d).extractLsb' 8 8 = q ∧ (nibWord pp q d).extractLsb' 0 8 = d := by
  unfold nibWord
  refine ⟨?_, ?_, extract_low_append _ _⟩
  · rw [BitVec.extractLsb'_append_eq_of_le (by omega)]
    exact extract_high_append pp q
  · rw [BitVec.extractLsb'_append_eq_of_le (by omega)]
    exact extract_low_append pp q

/-- A `NIB` word is its fields. -/
theorem nibWord_of_fields (w : BitVec 18) : nibWord (w.extractLsb' 16 2) (w.extractLsb' 8 8) (w.extractLsb' 0 8) = w := by
  unfold nibWord
  rw [BitVec.extractLsb'_append_extractLsb'_eq_extractLsb' (by omega),
    BitVec.extractLsb'_append_extractLsb'_eq_extractLsb' (by omega)]
  exact BitVec.extractLsb'_eq_self

/-- The quarter-track is its high part above the 8 bits of the word. -/
theorem nibQuarterTrack_nibWord (pp : BitVec 2) (q : Nat) (d : Byte) :
    nibQuarterTrack (nibWord pp (BitVec.ofNat 8 q) d) (q / 256) = q := by
  rw [nibQuarterTrack, (nibWord_fields _ _ _).2.1, BitVec.toNat_ofNat]
  omega

theorem nibQuarterTrack_high (w : BitVec 18) (qHigh : Nat) : nibQuarterTrack w qHigh / 256 = qHigh := by
  have := (w.extractLsb' 8 8).isLt
  unfold nibQuarterTrack
  omega

theorem nibQuarterTrack_low (w : BitVec 18) (qHigh : Nat) : BitVec.ofNat 8 (nibQuarterTrack w qHigh) = w.extractLsb' 8 8 := by
  apply BitVec.eq_of_toNat_eq
  have := (w.extractLsb' 8 8).isLt
  rw [BitVec.toNat_ofNat, nibQuarterTrack]
  omega

/-- A `NIB` transaction is rebuilt from its operation, quarter-track and byte. -/
theorem encodeNib_of_fields (drive : Nat) (w : BitVec 18) (qHigh : Nat) :
    encodeNib drive (w.extractLsb' 16 2) (nibQuarterTrack w qHigh) (w.extractLsb' 0 8) = .port (.nib drive w qHigh) := by
  rw [encodeNib, nibQuarterTrack_low, nibQuarterTrack_high, nibWord_of_fields]

end Sys2Proof
end

