-- ==== Sys2Proof/Laws/PerInstr.lean ====
section
/-! SUPPORT. Laws/PerInstr.lean: for every constructor of `Instr`, that its words stand on the port of its format, with the fixed bits and
the data that format has (R80, R87, R101). -/

namespace Sys2Proof.Laws.PortOfFormat

/-- The words of `i` are a well-formed transaction (or call block) of its format: an `IO` word has the page bits, carries data
exactly when `w` is 1, and its slot bits are the slot of `i`; a `NIB` word stands at the drive of `i`; a `HOST` word is not the
unused one and carries a snapshot exactly for `LOAD`; a call block belongs to no port. -/
def Statement (i : Instr) : Prop :=
  match encode i with
  | .port (.io word data) =>
    word.extractLsb' 7 9 = ioPageBits ∧ data.isSome = (word.extractLsb' 16 1 == 1) ∧
      Machine.ioSlot i = some (word.extractLsb' 4 3) ∧ Machine.nibDrive i = none
  | .port (.nib drive _ _) => Machine.ioSlot i = none ∧ Machine.nibDrive i = some drive
  | .port (.host word snapshot) =>
    word ≠ 3 ∧ snapshot.isSome = (word == 2) ∧ Machine.ioSlot i = none ∧ Machine.nibDrive i = none
  | .cmd _ => Machine.ioSlot i = none ∧ Machine.nibDrive i = none

theorem of_read {i : Instr} {slot : BitVec 3} {o : BitVec 4} (h : encode i = encodeRead slot o)
    (hs : Machine.ioSlot i = some slot) (hn : Machine.nibDrive i = none) : Statement i := by
  obtain ⟨hw, hp, hslot, -⟩ := ioWord_fields 0 slot o
  simp only [Statement, h, encodeRead]
  exact ⟨hp, by rw [hw]; rfl, by rw [hs, hslot], hn⟩

theorem of_write {i : Instr} {slot : BitVec 3} {o : BitVec 4} {v : Byte} (h : encode i = encodeWrite slot o v)
    (hs : Machine.ioSlot i = some slot) (hn : Machine.nibDrive i = none) : Statement i := by
  obtain ⟨hw, hp, hslot, -⟩ := ioWord_fields 1 slot o
  simp only [Statement, h, encodeWrite]
  exact ⟨hp, by rw [hw]; rfl, by rw [hs, hslot], hn⟩

theorem rd0CmdDirect (slot : BitVec 3) : Statement (.rd0CmdDirect slot) := of_read rfl rfl rfl
theorem rd1CapLo (slot : BitVec 3) : Statement (.rd1CapLo slot) := of_read rfl rfl rfl
theorem rd2CapHi (slot : BitVec 3) : Statement (.rd2CapHi slot) := of_read rfl rfl rfl
theorem rd3CmdIndirect (slot : BitVec 3) : Statement (.rd3CmdIndirect slot) := of_read rfl rfl rfl
theorem rd4Unmapped (slot : BitVec 3) : Statement (.rd4Unmapped slot) := of_read rfl rfl rfl
theorem rd5Unmapped (slot : BitVec 3) : Statement (.rd5Unmapped slot) := of_read rfl rfl rfl
theorem rd6Unmapped (slot : BitVec 3) : Statement (.rd6Unmapped slot) := of_read rfl rfl rfl
theorem rd7Unmapped (slot : BitVec 3) : Statement (.rd7Unmapped slot) := of_read rfl rfl rfl
theorem rd8Unmapped (slot : BitVec 3) : Statement (.rd8Unmapped slot) := of_read rfl rfl rfl
theorem rd9Unmapped (slot : BitVec 3) : Statement (.rd9Unmapped slot) := of_read rfl rfl rfl
theorem rd10Unmapped (slot : BitVec 3) : Statement (.rd10Unmapped slot) := of_read rfl rfl rfl
theorem rd11Unmapped (slot : BitVec 3) : Statement (.rd11Unmapped slot) := of_read rfl rfl rfl
theorem rd12Unmapped (slot : BitVec 3) : Statement (.rd12Unmapped slot) := of_read rfl rfl rfl
theorem rd13Unmapped (slot : BitVec 3) : Statement (.rd13Unmapped slot) := of_read rfl rfl rfl
theorem rd14Unmapped (slot : BitVec 3) : Statement (.rd14Unmapped slot) := of_read rfl rfl rfl
theorem rd15Unmapped (slot : BitVec 3) : Statement (.rd15Unmapped slot) := of_read rfl rfl rfl
theorem wr0Ignored (slot : BitVec 3) (v : Byte) : Statement (.wr0Ignored slot v) := of_write rfl rfl rfl
theorem wr1Ignored (slot : BitVec 3) (v : Byte) : Statement (.wr1Ignored slot v) := of_write rfl rfl rfl
theorem wr2Ignored (slot : BitVec 3) (v : Byte) : Statement (.wr2Ignored slot v) := of_write rfl rfl rfl
theorem wr3Ignored (slot : BitVec 3) (v : Byte) : Statement (.wr3Ignored slot v) := of_write rfl rfl rfl
theorem wr4MliLo (slot : BitVec 3) (v : Byte) : Statement (.wr4MliLo slot v) := of_write rfl rfl rfl
theorem wr5MliHi (slot : BitVec 3) (v : Byte) : Statement (.wr5MliHi slot v) := of_write rfl rfl rfl
theorem wr6Ignored (slot : BitVec 3) (v : Byte) : Statement (.wr6Ignored slot v) := of_write rfl rfl rfl
theorem wr7Ignored (slot : BitVec 3) (v : Byte) : Statement (.wr7Ignored slot v) := of_write rfl rfl rfl
theorem wr8Ignored (slot : BitVec 3) (v : Byte) : Statement (.wr8Ignored slot v) := of_write rfl rfl rfl
theorem wr9Ignored (slot : BitVec 3) (v : Byte) : Statement (.wr9Ignored slot v) := of_write rfl rfl rfl
theorem wr10Ignored (slot : BitVec 3) (v : Byte) : Statement (.wr10Ignored slot v) := of_write rfl rfl rfl
theorem wr11Ignored (slot : BitVec 3) (v : Byte) : Statement (.wr11Ignored slot v) := of_write rfl rfl rfl
theorem wr12Ignored (slot : BitVec 3) (v : Byte) : Statement (.wr12Ignored slot v) := of_write rfl rfl rfl
theorem wr13Ignored (slot : BitVec 3) (v : Byte) : Statement (.wr13Ignored slot v) := of_write rfl rfl rfl
theorem wr14Ignored (slot : BitVec 3) (v : Byte) : Statement (.wr14Ignored slot v) := of_write rfl rfl rfl
theorem wr15Ignored (slot : BitVec 3) (v : Byte) : Statement (.wr15Ignored slot v) := of_write rfl rfl rfl
theorem status (unit : Byte) (addr blk : Word) : Statement (.status unit addr blk) := ⟨rfl, rfl⟩
theorem read (unit : Byte) (addr blk : Word) : Statement (.read unit addr blk) := ⟨rfl, rfl⟩
theorem write (unit : Byte) (addr blk : Word) : Statement (.write unit addr blk) := ⟨rfl, rfl⟩
theorem format (unit : Byte) (addr blk : Word) : Statement (.format unit addr blk) := ⟨rfl, rfl⟩
theorem unsupported04To07 (x : BitVec 2) (unit : Byte) (addr blk : Word) : Statement (.unsupported04To07 x unit addr blk) :=
    ⟨rfl, rfl⟩
theorem unsupported08To0F (x : BitVec 3) (unit : Byte) (addr blk : Word) : Statement (.unsupported08To0F x unit addr blk) :=
    ⟨rfl, rfl⟩
theorem unsupported10To1F (x : BitVec 4) (unit : Byte) (addr blk : Word) : Statement (.unsupported10To1F x unit addr blk) :=
    ⟨rfl, rfl⟩
theorem unsupported20To3F (x : BitVec 5) (unit : Byte) (addr blk : Word) : Statement (.unsupported20To3F x unit addr blk) :=
    ⟨rfl, rfl⟩
theorem unsupported40To7F (x : BitVec 6) (unit : Byte) (addr blk : Word) : Statement (.unsupported40To7F x unit addr blk) :=
    ⟨rfl, rfl⟩
theorem unsupported80ToFF (x : BitVec 7) (unit : Byte) (addr blk : Word) : Statement (.unsupported80ToFF x unit addr blk) :=
    ⟨rfl, rfl⟩
theorem nread (drive q : Nat) (v : Byte) : Statement (.nread drive q v) := ⟨rfl, rfl⟩
theorem nwrite (drive q : Nat) (v : Byte) : Statement (.nwrite drive q v) := ⟨rfl, rfl⟩
theorem pwron (drive q : Nat) (v : Byte) : Statement (.pwron drive q v) := ⟨rfl, rfl⟩
theorem pwroff (drive q : Nat) (v : Byte) : Statement (.pwroff drive q v) := ⟨rfl, rfl⟩
theorem reset : Statement .reset := ⟨by decide, rfl, rfl, rfl⟩
theorem save : Statement .save := ⟨by decide, rfl, rfl, rfl⟩
theorem load (snapshot : Word) : Statement (.load snapshot) := ⟨by decide, rfl, rfl, rfl⟩

end Sys2Proof.Laws.PortOfFormat
end

