-- ==== Sys2Proof/Tests/Slice0.lean ====
section
/-! SUPPORT. Tests/Slice0.lean: the model's own tests. Expected results are the spec's: words from `30_encoding.md` R80, R87, R101 and
`opcode_table.json`, steps from the vectors of `95_test_vectors.md` (named V.. below) and its programs (P1 to P5). The theorems
named `witness_` show, for each obligation with hypotheses, a concrete state and operands that meet all of them together. -/

namespace Sys2Proof.Tests

open Sys2Proof Sys2Proof.Machine

/-! ### Helpers -/

/-- One field of the state an outcome goes on in. -/
def goesOn {A : Type} (r : Host.Outcome State Fault Refusal) (f : State → A) : Option A :=
  match r with
  | .next t => some (f t)
  | .fault _ => none
  | .refused _ => none

/-- The address of a reentrancy fault and one field of the state it leaves. -/
def faultsAt {A : Type} (r : Host.Outcome State Fault Refusal) (f : State → A) : Option (Word × A) :=
  match r with
  | .fault (.reentrancyViolation a left) => some (a, f left)
  | _ => none

/-- Bytes in guest memory from an address on. -/
def withBytes (a : Nat) (bs : List Byte) (s : State) : State := { s with mem := s.mem.putRange a bs }

/-- The geometry of the vectors V60 to V69: `L = 4`, `NTRACKS = 2`, one drive, in slot 7. -/
def smallCfg : Params := { Params.default with
  slot := 7, ndrives := 1, ntracks := 2, trackLen := 4,
  trkInit := [[[(0, 0xD5), (1, 0xAA), (2, 0x96), (3, 0xFF)], [(0, 0x11), (1, 0x22), (2, 0x33), (3, 0x44)]]] }

/-- The machine of the vectors: slot 7, small geometry, `BsCount = 0x0640`, writable, memory zero. -/
def small : State := { State.reset with cfg := smallCfg, drives := freshDrives smallCfg }

/-- The same with the cursor elsewhere. -/
def smallAt (pos : Nat) : State := { small with drives := small.drives.map fun d => { d with pos := pos } }

/-- Bytes 0, 1, 2, 254, 255, 256 and 511 of block 2 of V40, `BS.block[2][k] = (3k+1) mod 256`; the others zero. -/
def pattern : Memory := [(1024, 0x01), (1025, 0x04), (1026, 0x07), (1278, 0xFB), (1279, 0xFE), (1280, 0x01), (1535, 0xFE)]

/-- The machine with that block. -/
def loaded : State := { small with store := { small.store with image := pattern } }

/-- The call block of V20 in the direct locations, with another command byte. -/
def direct (cmd : Byte) (s : State) : State := withBytes 0x42 [cmd, 0x70, 0x00, 0x20, 0x02, 0x00] s

theorem clear_of_all {p : Params} {as : List Word} (h : (as.all fun a => !ownPage p a) = true) : addressesClear p as := by
  intro a ha
  simpa using List.all_eq_true.1 h a ha

/-- With no work of the shell waiting, the own page alone decides. -/
theorem accesses_of_all {s : State} {as : List Word} (hs : s.shell = []) (h : (as.all fun a => !ownPage s.cfg a) = true) :
    s.accessesClear as :=
  ⟨clear_of_all h, by simp [State.shellInRange, hs]⟩

/-- The quarter-track of a range fault. -/
def rangeFault (r : Host.Outcome State Fault Refusal) : Option Nat :=
  match r with
  | .fault (.quarterTrackRange q) => some q
  | _ => none

/-- The machine with a floppy card's page at `0xC400 ..`, and what the drive shell does at the next access there. -/
def floppy (ops : List CodecOp) : State :=
  { small with cfg := { smallCfg with external := [⟨0xC400, 0xC4FF⟩] }, shell := [ops] }

/-! ### WellFormed: one ill-formed term for each check -/

theorem test_wf_nread_drive : (Instr.nread 2 0 0).wf Params.default = false ∧ (Instr.nread 1 0 0).wf Params.default = true := by decide

theorem test_wf_nwrite_drive : (Instr.nwrite 2 0 0).wf Params.default = false ∧ (Instr.nwrite 1 0 0).wf Params.default = true := by decide

theorem test_wf_pwron_drive : (Instr.pwron 2 0 0).wf Params.default = false ∧ (Instr.pwron 1 0 0).wf Params.default = true := by decide

theorem test_wf_pwroff_drive : (Instr.pwroff 2 0 0).wf Params.default = false ∧ (Instr.pwroff 1 0 0).wf Params.default = true := by decide

theorem test_wf_nread_range : (Instr.nread 0 140 0).wf Params.default = false ∧ (Instr.nread 0 139 0).wf Params.default = true := by decide

theorem test_wf_nwrite_range : (Instr.nwrite 0 140 0).wf Params.default = false ∧ (Instr.nwrite 0 139 0).wf Params.default = true := by decide

/-! ### Decode: one word of every row, written out from the table's pattern -/

theorem test_decode_rd0CmdDirect : decode (.port (.io 0b01100000011010000 none)) = .ok (.rd0CmdDirect 5) := by decide

theorem test_decode_rd1CapLo : decode (.port (.io 0b01100000011010001 none)) = .ok (.rd1CapLo 5) := by decide

theorem test_decode_rd2CapHi : decode (.port (.io 0b01100000011010010 none)) = .ok (.rd2CapHi 5) := by decide

theorem test_decode_rd3CmdIndirect : decode (.port (.io 0b01100000011010011 none)) = .ok (.rd3CmdIndirect 5) := by decide

theorem test_decode_rd4Unmapped : decode (.port (.io 0b01100000011010100 none)) = .ok (.rd4Unmapped 5) := by decide

theorem test_decode_rd5Unmapped : decode (.port (.io 0b01100000011010101 none)) = .ok (.rd5Unmapped 5) := by decide

theorem test_decode_rd6Unmapped : decode (.port (.io 0b01100000011010110 none)) = .ok (.rd6Unmapped 5) := by decide

theorem test_decode_rd7Unmapped : decode (.port (.io 0b01100000011010111 none)) = .ok (.rd7Unmapped 5) := by decide

theorem test_decode_rd8Unmapped : decode (.port (.io 0b01100000011011000 none)) = .ok (.rd8Unmapped 5) := by decide

theorem test_decode_rd9Unmapped : decode (.port (.io 0b01100000011011001 none)) = .ok (.rd9Unmapped 5) := by decide

theorem test_decode_rd10Unmapped : decode (.port (.io 0b01100000011011010 none)) = .ok (.rd10Unmapped 5) := by decide

theorem test_decode_rd11Unmapped : decode (.port (.io 0b01100000011011011 none)) = .ok (.rd11Unmapped 5) := by decide

theorem test_decode_rd12Unmapped : decode (.port (.io 0b01100000011011100 none)) = .ok (.rd12Unmapped 5) := by decide

theorem test_decode_rd13Unmapped : decode (.port (.io 0b01100000011011101 none)) = .ok (.rd13Unmapped 5) := by decide

theorem test_decode_rd14Unmapped : decode (.port (.io 0b01100000011011110 none)) = .ok (.rd14Unmapped 5) := by decide

theorem test_decode_rd15Unmapped : decode (.port (.io 0b01100000011011111 none)) = .ok (.rd15Unmapped 5) := by decide

theorem test_decode_wr0Ignored : decode (.port (.io 0b11100000011010000 (some 0xA7))) = .ok (.wr0Ignored 5 0xA7) := by decide

theorem test_decode_wr1Ignored : decode (.port (.io 0b11100000011010001 (some 0xA7))) = .ok (.wr1Ignored 5 0xA7) := by decide

theorem test_decode_wr2Ignored : decode (.port (.io 0b11100000011010010 (some 0xA7))) = .ok (.wr2Ignored 5 0xA7) := by decide

theorem test_decode_wr3Ignored : decode (.port (.io 0b11100000011010011 (some 0xA7))) = .ok (.wr3Ignored 5 0xA7) := by decide

theorem test_decode_wr4MliLo : decode (.port (.io 0b11100000011010100 (some 0xA7))) = .ok (.wr4MliLo 5 0xA7) := by decide

theorem test_decode_wr5MliHi : decode (.port (.io 0b11100000011010101 (some 0xA7))) = .ok (.wr5MliHi 5 0xA7) := by decide

theorem test_decode_wr6Ignored : decode (.port (.io 0b11100000011010110 (some 0xA7))) = .ok (.wr6Ignored 5 0xA7) := by decide

theorem test_decode_wr7Ignored : decode (.port (.io 0b11100000011010111 (some 0xA7))) = .ok (.wr7Ignored 5 0xA7) := by decide

theorem test_decode_wr8Ignored : decode (.port (.io 0b11100000011011000 (some 0xA7))) = .ok (.wr8Ignored 5 0xA7) := by decide

theorem test_decode_wr9Ignored : decode (.port (.io 0b11100000011011001 (some 0xA7))) = .ok (.wr9Ignored 5 0xA7) := by decide

theorem test_decode_wr10Ignored : decode (.port (.io 0b11100000011011010 (some 0xA7))) = .ok (.wr10Ignored 5 0xA7) := by decide

theorem test_decode_wr11Ignored : decode (.port (.io 0b11100000011011011 (some 0xA7))) = .ok (.wr11Ignored 5 0xA7) := by decide

theorem test_decode_wr12Ignored : decode (.port (.io 0b11100000011011100 (some 0xA7))) = .ok (.wr12Ignored 5 0xA7) := by decide

theorem test_decode_wr13Ignored : decode (.port (.io 0b11100000011011101 (some 0xA7))) = .ok (.wr13Ignored 5 0xA7) := by decide

theorem test_decode_wr14Ignored : decode (.port (.io 0b11100000011011110 (some 0xA7))) = .ok (.wr14Ignored 5 0xA7) := by decide

theorem test_decode_wr15Ignored : decode (.port (.io 0b11100000011011111 (some 0xA7))) = .ok (.wr15Ignored 5 0xA7) := by decide

theorem test_decode_status : decode (.cmd ⟨0b00000000, 0x70, 0x2001, 0x0302⟩) = .ok (.status 0x70 0x2001 0x0302) := by decide

theorem test_decode_read : decode (.cmd ⟨0b00000001, 0x70, 0x2001, 0x0302⟩) = .ok (.read 0x70 0x2001 0x0302) := by decide

theorem test_decode_write : decode (.cmd ⟨0b00000010, 0x70, 0x2001, 0x0302⟩) = .ok (.write 0x70 0x2001 0x0302) := by decide

theorem test_decode_format : decode (.cmd ⟨0b00000011, 0x70, 0x2001, 0x0302⟩) = .ok (.format 0x70 0x2001 0x0302) := by decide

theorem test_decode_unsupported04To07 : decode (.cmd ⟨0b00000101, 0x70, 0x2001, 0x0302⟩) = .ok (.unsupported04To07 0b01 0x70 0x2001 0x0302) := by decide

theorem test_decode_unsupported08To0F : decode (.cmd ⟨0b00001011, 0x70, 0x2001, 0x0302⟩) = .ok (.unsupported08To0F 0b011 0x70 0x2001 0x0302) := by decide

theorem test_decode_unsupported10To1F : decode (.cmd ⟨0b00010110, 0x70, 0x2001, 0x0302⟩) = .ok (.unsupported10To1F 0b0110 0x70 0x2001 0x0302) := by decide

theorem test_decode_unsupported20To3F : decode (.cmd ⟨0b00101101, 0x70, 0x2001, 0x0302⟩) = .ok (.unsupported20To3F 0b01101 0x70 0x2001 0x0302) := by decide

theorem test_decode_unsupported40To7F : decode (.cmd ⟨0b01011010, 0x70, 0x2001, 0x0302⟩) = .ok (.unsupported40To7F 0b011010 0x70 0x2001 0x0302) := by decide

theorem test_decode_unsupported80ToFF : decode (.cmd ⟨0b10110101, 0x70, 0x2001, 0x0302⟩) = .ok (.unsupported80ToFF 0b0110101 0x70 0x2001 0x0302) := by decide

theorem test_decode_nread : decode (.port (.nib 1 0b000000010111101110 0)) = .ok (.nread 1 5 0xEE) ∧
    decode (.port (.nib 1 0b000000010111101110 1)) = .ok (.nread 1 261 0xEE) := by decide

theorem test_decode_nwrite : decode (.port (.nib 1 0b010000010111101110 0)) = .ok (.nwrite 1 5 0xEE) ∧
    decode (.port (.nib 1 0b010000010111101110 1)) = .ok (.nwrite 1 261 0xEE) := by decide

theorem test_decode_pwron : decode (.port (.nib 1 0b100000010111101110 0)) = .ok (.pwron 1 5 0xEE) ∧
    decode (.port (.nib 1 0b100000010111101110 1)) = .ok (.pwron 1 261 0xEE) := by decide

theorem test_decode_pwroff : decode (.port (.nib 1 0b110000010111101110 0)) = .ok (.pwroff 1 5 0xEE) ∧
    decode (.port (.nib 1 0b110000010111101110 1)) = .ok (.pwroff 1 261 0xEE) := by decide

theorem test_decode_reset : decode (.port (.host 0b00 none)) = .ok .reset := by decide

theorem test_decode_save : decode (.port (.host 0b01 none)) = .ok .save := by decide

theorem test_decode_load : decode (.port (.host 0b10 (some 0xBEEF))) = .ok (.load 0xBEEF) := by decide

/-- Every row's word in the table's own numbering, at the row's exact width (first half of the rows). -/
theorem test_decodeTableWord :
    decodeTableWord 17 0xc080 = some (.rd0CmdDirect 0) ∧
    decodeTableWord 17 0xc081 = some (.rd1CapLo 0) ∧
    decodeTableWord 17 0xc082 = some (.rd2CapHi 0) ∧
    decodeTableWord 17 0xc083 = some (.rd3CmdIndirect 0) ∧
    decodeTableWord 17 0xc084 = some (.rd4Unmapped 0) ∧
    decodeTableWord 17 0xc085 = some (.rd5Unmapped 0) ∧
    decodeTableWord 17 0xc086 = some (.rd6Unmapped 0) ∧
    decodeTableWord 17 0xc087 = some (.rd7Unmapped 0) ∧
    decodeTableWord 17 0xc088 = some (.rd8Unmapped 0) ∧
    decodeTableWord 17 0xc089 = some (.rd9Unmapped 0) ∧
    decodeTableWord 17 0xc08a = some (.rd10Unmapped 0) ∧
    decodeTableWord 17 0xc08b = some (.rd11Unmapped 0) ∧
    decodeTableWord 17 0xc08c = some (.rd12Unmapped 0) ∧
    decodeTableWord 17 0xc08d = some (.rd13Unmapped 0) ∧
    decodeTableWord 17 0xc08e = some (.rd14Unmapped 0) ∧
    decodeTableWord 17 0xc08f = some (.rd15Unmapped 0) ∧
    decodeTableWord 17 0x1c080 = some (.wr0Ignored 0 0) ∧
    decodeTableWord 17 0x1c081 = some (.wr1Ignored 0 0) ∧
    decodeTableWord 17 0x1c082 = some (.wr2Ignored 0 0) ∧
    decodeTableWord 17 0x1c083 = some (.wr3Ignored 0 0) ∧
    decodeTableWord 17 0x1c084 = some (.wr4MliLo 0 0) ∧
    decodeTableWord 17 0x1c085 = some (.wr5MliHi 0 0) ∧
    decodeTableWord 17 0x1c086 = some (.wr6Ignored 0 0) ∧
    decodeTableWord 17 0x1c087 = some (.wr7Ignored 0 0) := by decide

/-- The second half. -/
theorem test_decodeTableWord_rest :
    decodeTableWord 17 0x1c088 = some (.wr8Ignored 0 0) ∧
    decodeTableWord 17 0x1c089 = some (.wr9Ignored 0 0) ∧
    decodeTableWord 17 0x1c08a = some (.wr10Ignored 0 0) ∧
    decodeTableWord 17 0x1c08b = some (.wr11Ignored 0 0) ∧
    decodeTableWord 17 0x1c08c = some (.wr12Ignored 0 0) ∧
    decodeTableWord 17 0x1c08d = some (.wr13Ignored 0 0) ∧
    decodeTableWord 17 0x1c08e = some (.wr14Ignored 0 0) ∧
    decodeTableWord 17 0x1c08f = some (.wr15Ignored 0 0) ∧
    decodeTableWord 8 0x0 = some (.status 0 0 0) ∧
    decodeTableWord 8 0x1 = some (.read 0 0 0) ∧
    decodeTableWord 8 0x2 = some (.write 0 0 0) ∧
    decodeTableWord 8 0x3 = some (.format 0 0 0) ∧
    decodeTableWord 8 0x4 = some (.unsupported04To07 0 0 0 0) ∧
    decodeTableWord 8 0x8 = some (.unsupported08To0F 0 0 0 0) ∧
    decodeTableWord 8 0x10 = some (.unsupported10To1F 0 0 0 0) ∧
    decodeTableWord 8 0x20 = some (.unsupported20To3F 0 0 0 0) ∧
    decodeTableWord 8 0x40 = some (.unsupported40To7F 0 0 0 0) ∧
    decodeTableWord 8 0x80 = some (.unsupported80ToFF 0 0 0 0) ∧
    decodeTableWord 18 0x0 = some (.nread 0 0 0) ∧
    decodeTableWord 18 0x10000 = some (.nwrite 0 0 0) ∧
    decodeTableWord 18 0x20000 = some (.pwron 0 0 0) ∧
    decodeTableWord 18 0x30000 = some (.pwroff 0 0 0) ∧
    decodeTableWord 2 0x0 = some .reset ∧
    decodeTableWord 2 0x1 = some .save ∧
    decodeTableWord 2 0x2 = some (.load 0) := by decide

/-- Whole-byte widths, and that `step` runs the word it is given. -/
theorem test_withFetchWord :
    decodeTableWord 24 0x1C0F4 = some (.wr4MliLo 7 0) ∧ decodeTableWord 24 0x20000 = some (.pwron 0 0 0) ∧
    goesOn (step (State.reset.withFetchWord 24 0x0C081)) (·.out) = some (.byte 0x40) ∧
    goesOn (step (State.reset.withFetchWord 8 0x04)) (·.out) = some (.byte 0x27) ∧
    goesOn (step (State.reset.withFetchWord 18 0x00000)) (·.out) = some (.byte 0x00) ∧
    goesOn (step (State.reset.withFetchWord 2 1)) (·.out) = some (.snapshot 0) := by decide +kernel

/-! ### Memory -/

theorem test_memory_canonical :
    Memory.wf [] = true ∧ Memory.put [(1, 5)] 1 0 = [] ∧ Memory.put [(1, 5), (3, 6)] 2 9 = [(1, 5), (2, 9), (3, 6)] ∧
    Memory.wf [(1, 5), (1, 6)] = false ∧ Memory.wf [(1, 0)] = false := by decide

theorem test_reset_memory : State.reset.mem.wf = true ∧ State.reset.store.image.wf = true := by decide

/-! ### I/O page (V1 to V15) -/

/-- V1, V4: `BsCount = 0x0640` and `0xFFFF`. -/
theorem test_capacity :
    goesOn (exec (.rd1CapLo 7) small) (·.out) = some (.byte 0x40) ∧
    goesOn (exec (.rd2CapHi 7) small) (·.out) = some (.byte 0x06) ∧
    goesOn (exec (.rd2CapHi 7) { small with store := { small.store with count := 0xFFFF } }) (·.out) = some (.byte 0xFF) := by
  decide

/-- V6, V7, and the examples of R113, R114. -/
theorem test_mli_writes :
    goesOn (exec (.wr4MliLo 7 0x02) small) (·.mli) = some 0x0002 ∧
    goesOn (exec (.wr5MliHi 7 0x03) { small with mli := 0x0002 }) (·.mli) = some 0x0302 ∧
    goesOn (exec (.wr4MliLo 7 0xFF) { small with mli := 0x1234 }) (·.mli) = some 0x12FF ∧
    goesOn (exec (.wr5MliHi 7 0x03) { small with mli := 0x12FF }) (·.mli) = some 0x03FF := by decide

/-- V10, V13: an unmapped read and an ignored write leave `MLI`. -/
theorem test_unmapped :
    goesOn (exec (.rd4Unmapped 7) { small with mli := 0x0302 }) (·.mli) = some 0x0302 ∧
    goesOn (exec (.wr3Ignored 7 0xFF) { small with mli := 0x0302 }) (fun t => (t.mli, t.nested)) = some (0x0302, []) := by decide

/-- R81: slot 6's page is not this card's: `MLI` stays, and the byte goes to the guest's own memory (log entry 13). -/
theorem test_other_slot :
    goesOn (exec (.wr4MliLo 6 0x99) { small with mli := 0x0302 }) (fun t => (t.mli, t.mem)) =
      some (0x0302, [(0xC0E4, 0x99)]) := by decide

/-- R73: a guest store to the direct locations, then seen by the trigger read. -/
theorem test_guest_write :
    goesOn (step { small with input := [.io 0x10042 (some 0x04)] }) (·.mem) = some [(0x42, 0x04)] := by decide

/-! ### Commands and entries (V20 to V50) -/

/-- V20: six reads in order, `0x00`. -/
theorem test_rd0_status :
    goesOn (exec (.rd0CmdDirect 7) (direct 0x00 small)) (fun t => (t.out, t.nested)) =
      some (.byte 0x00, [.memRead 0x47 0x00, .memRead 0x46 0x02, .memRead 0x45 0x20, .memRead 0x44 0x00,
        .memRead 0x43 0x70, .memRead 0x42 0x00]) := by decide +kernel

/-- V21 to V24: `0x03`, `0x04`, `0xFF` and `0x81` are `0x27`. -/
theorem test_rd0_unsupported :
    goesOn (exec (.rd0CmdDirect 7) (direct 0x03 small)) (·.out) = some (.byte 0x27) ∧
    goesOn (exec (.rd0CmdDirect 7) (direct 0x04 small)) (·.out) = some (.byte 0x27) ∧
    goesOn (exec (.rd0CmdDirect 7) (direct 0xFF small)) (·.out) = some (.byte 0x27) ∧
    goesOn (exec (.rd0CmdDirect 7) (direct 0x81 small)) (·.out) = some (.byte 0x27) := by decide +kernel

/-- V26: the eight addresses of the indirect entry. -/
theorem test_rd3_status :
    goesOn (exec (.rd3CmdIndirect 7)
      (withBytes 0x0310 [3, 1, 0x00, 0x40, 5, 0] (withBytes 0x0303 [0x00, 0x10, 0x03] { small with mli := 0x0302 })))
      (fun t => (t.out, t.nested.reverse)) =
      some (.byte 0x00, [.memRead 0x0303 0x00, .memRead 0x0304 0x10, .memRead 0x0305 0x03, .memRead 0x0311 0x01,
        .memRead 0x0312 0x00, .memRead 0x0313 0x40, .memRead 0x0314 0x05, .memRead 0x0315 0x00]) := by decide +kernel

/-- V28: `MLI = 0xFFFD`, the addresses wrap and `pb = 0x0200`. -/
theorem test_rd3_wrap :
    goesOn (exec (.rd3CmdIndirect 7) { withBytes 0 [0x02] small with mli := 0xFFFD }) (fun t => (t.out, t.nested.reverse)) =
      some (.byte 0x00, [.memRead 0xFFFE 0x00, .memRead 0xFFFF 0x00, .memRead 0x0000 0x02, .memRead 0x0201 0x00,
        .memRead 0x0202 0x00, .memRead 0x0203 0x00, .memRead 0x0204 0x00, .memRead 0x0205 0x00]) := by decide +kernel

/-- V40: READ of block 2 to `0x2000` through the direct entry. -/
theorem test_rd0_read :
    goesOn (exec (.rd0CmdDirect 7) (direct 0x01 loaded)) (fun t => (t.out, t.nested.length,
      [0x2000, 0x2001, 0x2002, 0x2055, 0x20FE, 0x20FF, 0x2100, 0x21FF, 0x2200].map t.mem.read)) =
      some (.byte 0x00, 519, [0x01, 0x04, 0x07, 0x00, 0xFB, 0xFE, 0x01, 0xFE, 0x00]) := by decide +kernel

/-- V41: beyond the capacity, `0x27` and no write. -/
theorem test_read_beyond :
    goesOn (exec (.read 0x10 0x0800 0x0010) { small with store := { small.store with count := 0x0010 } })
      (fun t => (t.out, t.mem, t.nested)) = some (.byte 0x27, [], [.bsRead 0x0010 false]) := by decide

/-- V44, V45: read only. -/
theorem test_write_protected :
    goesOn (exec (.write 0x10 0x0800 0xFFFF) { small with store := { small.store with ro := true } })
      (fun t => (t.out, t.nested)) = some (.byte 0x2B, []) := by decide

/-- V46: WRITE stores the gathered block (bytes 0, 1, 254, 255, 256 of its `255 - k mod 256`, the others zero). -/
theorem test_write :
    goesOn (exec (.write 0x10 0x4000 0x0005)
      (withBytes 0x4000 [0xFF, 0xFE] (withBytes 0x40FE [0x01, 0x00, 0xFF] small)))
      (fun t => (t.out, [0, 1, 254, 255, 256, 511].map fun k => t.store.image.read (512 * 5 + k))) =
      some (.byte 0x00, [0xFF, 0xFE, 0x01, 0x00, 0xFF, 0x00]) := by decide +kernel

/-- V47: the store refuses block 16 of 16. -/
theorem test_write_beyond :
    goesOn (exec (.write 0x10 0x0800 0x0010) { small with store := { small.store with count := 0x0010 } })
      (fun t => (t.out, t.store.image, t.nested.length)) = some (.byte 0x27, [], 513) := by decide +kernel

/-- R136, R139, R140: the commands that move nothing. -/
theorem test_commands :
    goesOn (exec (.status 0x70 0x2000 2) small) (fun t => (t.out, t.mem)) = some (.byte 0x00, []) ∧
    goesOn (exec (.format 0x70 0x2000 2) small) (·.out) = some (.byte 0x27) ∧
    goesOn (exec (.unsupported04To07 3 0x70 0x2000 2) small) (·.out) = some (.byte 0x27) ∧
    goesOn (exec (.unsupported08To0F 3 0x70 0x2000 2) small) (·.out) = some (.byte 0x27) ∧
    goesOn (exec (.unsupported10To1F 3 0x70 0x2000 2) small) (·.out) = some (.byte 0x27) ∧
    goesOn (exec (.unsupported20To3F 3 0x70 0x2000 2) small) (·.out) = some (.byte 0x27) ∧
    goesOn (exec (.unsupported40To7F 3 0x70 0x2000 2) small) (·.out) = some (.byte 0x27) ∧
    goesOn (exec (.unsupported80ToFF 3 0x70 0x2000 2) small) (·.out) = some (.byte 0x27) := by decide

/-! ### Faults (V90 to V93) -/

/-- V90: READ to `0xC000` faults at `0xC0F0` after 240 writes (and six reads and the store's answer). -/
theorem test_read_into_own_page :
    faultsAt (exec (.rd0CmdDirect 7) (withBytes 0x42 [0x01, 0x00, 0x00, 0xC0, 0x00, 0x00] small)) (·.nested.length) =
      some (0xC0F0, 247) := by decide +kernel

/-- V91: the first fetch is in the card's own page. -/
theorem test_fetch_from_own_page :
    faultsAt (exec (.rd3CmdIndirect 7) { small with mli := 0xC0EF }) (·.nested) = some (0xC0F0, []) := by decide

/-- V93: WRITE from `0xBF00` faults after 496 reads. -/
theorem test_write_from_own_page :
    faultsAt (exec (.write 0 0xBF00 0) small) (fun l => (l.nested.length, l.store.calls)) = some (0xC0F0, 496, 0) := by
  decide +kernel

/-! ### Codec (V60 to V69) -/

theorem test_nread :
    goesOn (exec (.nread 0 0 0) small) (fun t => (t.out, t.drives.map (·.pos))) = some (.byte 0xD5, [1]) ∧
    goesOn (exec (.nread 0 0 0) (smallAt 3)) (fun t => (t.out, t.drives.map (·.pos))) = some (.byte 0xFF, [0]) ∧
    goesOn (exec (.nread 0 4 0) (smallAt 2)) (fun t => (t.out, t.drives.map (·.pos))) = some (.byte 0x33, [3]) ∧
    goesOn (exec (.nread 0 7 0) (smallAt 1)) (·.out) = some (.byte 0x22) := by decide

/-- V65. -/
theorem test_nwrite :
    goesOn (exec (.nwrite 0 5 0xEE) (smallAt 3)) (·.drives) =
      some [⟨0, [[(0, 0xD5), (1, 0xAA), (2, 0x96), (3, 0xFF)], [(0, 0x11), (1, 0x22), (2, 0x33), (3, 0xEE)]]⟩] := by decide

/-- V67. -/
theorem test_power :
    goesOn (exec (.pwron 0 0 0) (smallAt 1)) (·.drives) = some (smallAt 1).drives ∧
    goesOn (exec (.pwroff 0 0 0) (smallAt 1)) (·.drives) = some (smallAt 1).drives := by decide

/-- V68. -/
theorem test_quarter_track_range :
    (match exec (.nread 0 8 0) (smallAt 1) with
      | .fault f => f = .quarterTrackRange 8
      | _ => False) := rfl

/-- R92, R101: `NTRACKS = 65`, quarter-track 257 is track 64, the last one; 260 is out of range. -/
theorem test_wide_quarter_track :
    goesOn (exec (.nwrite 0 257 0x5A) (let p := { smallCfg with ntracks := 65 }; { small with cfg := p, drives := freshDrives p }))
      (fun t => t.drives.map fun d => (d.byteAt 64 0, d.byteAt 0 0, d.pos)) = some [(0x5A, 0xD5, 1)] ∧
    rangeFault (exec (.nread 0 260 0) { small with cfg := { smallCfg with ntracks := 65 } }) = some 260 := by decide

/-! ### Nested codec operations (R63, R177) -/

/-- A READ to `0xC201 .. 0xC400` reaches the floppy card once; the shell reads track 0 and writes track 1 there, through one cursor. -/
theorem test_nested_codec :
    goesOn (exec (.read 0 0xC201 0) (floppy [.read 0 0, .write 0 5 0x77])) (fun t => (t.out, t.drives, t.shell)) =
      some (.byte 0x00, [⟨2, [[(0, 0xD5), (1, 0xAA), (2, 0x96), (3, 0xFF)], [(0, 0x11), (1, 0x77), (2, 0x33), (3, 0x44)]]⟩],
        []) := by decide +kernel

theorem test_nested_codec_range :
    rangeFault (exec (.read 0 0xC201 0) (floppy [.read 0 0, .write 0 8 0x77])) = some 8 := by decide +kernel

/-- R16(3), R53: the store's decision, beyond the capacity too. -/
theorem test_store_answers :
    goesOn (exec (.read 0 0x2000 0xFFFF) { small with store := { small.store with answers := [⟨0, .ok [0xAB]⟩] } })
      (fun t => (t.out, t.mem)) = some (.byte 0x00, [(0x2000, 0xAB)]) ∧
    goesOn (exec (.read 0 0x2000 0) { small with store := { small.store with answers := [⟨0, .fail none⟩] } })
      (fun t => (t.out, t.mem)) = some (.byte 0x27, []) := by decide +kernel

/-! ### Host (V80 to V82) -/

theorem test_host :
    goesOn (exec .save { small with mli := 0x0302 }) (fun t => (t.out, t.mli)) = some (.snapshot 0x0302, 0x0302) ∧
    goesOn (exec (.load 0xBEEF) small) (·.mli) = some 0xBEEF := by decide

theorem test_reset :
    goesOn (exec .reset { smallAt 3 with mli := 0xBEEF }) (fun t => (t.mli, t.drives)) = some (0, small.drives) := by decide

/-- The empty machine: nothing happens. -/
theorem test_idle : goesOn (step State.reset) (fun t => (t.mli, t.draws, t.input)) = some (0, 0, []) := by decide

/-! ### Witnesses -/

theorem clear2000 {s : State} (hc : s.cfg = smallCfg) (hs : s.shell = []) : s.bufferClear 0x2000 := by
  refine accesses_of_all hs ?_
  rw [hc]
  decide +kernel

theorem plain2000 (p : Params) (h : p.external = []) (base : Word) : bufferPlain p base := by
  intro k _
  simp [isExternal, h]

theorem small_inv : small.Inv :=
  ⟨by decide, by decide, by decide, by decide, by decide, by decide, by decide, rfl⟩

theorem witness_EncodeOfDecodeIsTheWords : decode (.port (.io 0x1C0F4 (some 0x02))) = .ok (.wr4MliLo 7 0x02) := by decide

/-- No page; another slot's page; and offsets at the ends of both lists. -/
theorem witness_HandlersAreSelectedByDirectionAndOffset :
    (∃ s : State, s.latched = none ∧ s.input = .io 0x0C07F none :: [] ∧
      ((none : Option Byte).isSome = true ↔ (0x0C07F : BitVec 17).extractLsb' 16 1 = 1) ∧
      (0x0C07F : BitVec 17).extractLsb' 7 9 ≠ 0b110000001) ∧
    (∃ s : State, s.latched = none ∧ s.input = .io 0x1C0E4 (some 1) :: [] ∧
      ((some (1 : Byte)).isSome = true ↔ (0x1C0E4 : BitVec 17).extractLsb' 16 1 = 1) ∧
      (0x1C0E4 : BitVec 17).extractLsb' 4 3 ≠ s.cfg.slot) ∧
    ((4 : BitVec 4) ≠ 0 ∧ (4 : BitVec 4) ≠ 1 ∧ (4 : BitVec 4) ≠ 2 ∧ (4 : BitVec 4) ≠ 3) ∧
    ((15 : BitVec 4) ≠ 0 ∧ (15 : BitVec 4) ≠ 1 ∧ (15 : BitVec 4) ≠ 2 ∧ (15 : BitVec 4) ≠ 3) ∧
    ((0 : BitVec 4) ≠ 4 ∧ (0 : BitVec 4) ≠ 5) ∧ ((15 : BitVec 4) ≠ 4 ∧ (15 : BitVec 4) ≠ 5) :=
  ⟨⟨{ small with input := [.io 0x0C07F none] }, rfl, rfl, by decide, by decide⟩,
   ⟨{ small with input := [.io 0x1C0E4 (some 1)] }, rfl, rfl, by decide, by decide⟩,
   by decide, by decide, by decide, by decide⟩

theorem witness_StepRunsTheDecodedTransaction :
    ∃ s : State, s.latched = none ∧ s.input = .nib 0 0x00300 0 :: [] ∧ decode (.port (.nib 0 0x00300 0)) = .ok (.nread 0 3 0) :=
  ⟨{ small with input := [.nib 0 0x00300 0] }, rfl, rfl, by decide⟩

theorem witness_StepRunsTheLatchedCommand :
    ∃ s : State, s.latched = some ⟨1, 0x70, 0x2000, 2⟩ ∧ decode (.cmd ⟨1, 0x70, 0x2000, 2⟩) = .ok (.read 0x70 0x2000 2) :=
  ⟨small.latch ⟨1, 0x70, 0x2000, 2⟩, rfl, by decide⟩

theorem witness_NothingHappensWithoutATransaction : State.reset.latched = none ∧ State.reset.input = [] := ⟨rfl, rfl⟩

theorem witness_TransactionsAreTakenInOrder :
    (∃ s t : State, s.latched = none ∧ s.input = .host 1 none :: [.host 0 none] ∧ step s = .next t) ∧
    ∃ s t : State, exec .save s = .next t :=
  ⟨⟨{ small with input := [.host 1 none, .host 0 none] }, _, rfl, rfl, rfl⟩, small, _, rfl⟩

theorem witness_UnusedAndMalformedTransactionsAreRefused :
    (∃ s : State, s.latched = none ∧ s.input = .host 3 none :: []) ∧ (∃ s : State, s.latched = none ∧ s.input = .host 2 none :: []) ∧
    (∃ s : State, s.latched = none ∧ s.input = .host 0 (some 7) :: []) ∧
    (∃ s : State, s.latched = none ∧ s.input = .host 1 (some 7) :: []) ∧
    (∃ s : State, s.latched = none ∧ s.input = .io (ioWord 0 7 0) (some 7) :: []) ∧
    (∃ s : State, s.latched = none ∧ s.input = .io (ioWord 1 7 15) none :: []) :=
  ⟨⟨{ small with input := [.host 3 none] }, rfl, rfl⟩, ⟨{ small with input := [.host 2 none] }, rfl, rfl⟩,
   ⟨{ small with input := [.host 0 (some 7)] }, rfl, rfl⟩, ⟨{ small with input := [.host 1 (some 7)] }, rfl, rfl⟩,
   ⟨{ small with input := [.io (ioWord 0 7 0) (some 7)] }, rfl, rfl⟩,
   ⟨{ small with input := [.io (ioWord 1 7 15) none] }, rfl, rfl⟩⟩

theorem witness_ResetReconstructsTheBlock : 1 < State.reset.cfg.ndrives ∧ 34 < State.reset.cfg.ntracks := by decide

theorem witness_EveryStepKeepsTheInvariant :
    ∃ s t : State, s.Inv ∧ s.input = .io 0x0C0F1 none :: [] ∧ step s = .next t :=
  ⟨{ small with input := [.io 0x0C0F1 none] }, _,
   ⟨small_inv.cfgOk, small_inv.driveCount, small_inv.drivesOk, small_inv.memWf, small_inv.memWithin, small_inv.imageWf,
     small_inv.imageWithin, rfl⟩, rfl, rfl⟩

theorem witness_CapacityReadsReturnTheCount : ∃ s t : State, s.input = .io 0x0C0F1 none :: [] ∧ step s = .next t :=
  ⟨{ small with input := [.io 0x0C0F1 none] }, _, rfl, rfl⟩

theorem witness_MliIsAssembledFromTwoWrites :
    (∀ i ∈ [Instr.save, .rd1CapLo 7, .nread 0 0 0], writesMli i = false) ∧
    (∃ t u, exec (.wr4MliLo small.cfg.slot 0x02) small = .next t ∧
      execAll [Instr.save, .rd1CapLo 7, .nread 0 0 0] t = .next u) ∧
    (∃ t u, exec (.wr5MliHi small.cfg.slot 0x03) small = .next t ∧
      execAll [Instr.save, .rd1CapLo 7, .nread 0 0 0] t = .next u) :=
  ⟨by decide, ⟨_, _, rfl, rfl⟩, ⟨_, _, rfl, rfl⟩⟩

theorem witness_UnmappedReadsReturnADraw :
    Instr.rd4Unmapped ∈ [Instr.rd4Unmapped, Instr.rd5Unmapped, Instr.rd6Unmapped, Instr.rd7Unmapped, Instr.rd8Unmapped,
      Instr.rd9Unmapped, Instr.rd10Unmapped, Instr.rd11Unmapped, Instr.rd12Unmapped, Instr.rd13Unmapped,
      Instr.rd14Unmapped, Instr.rd15Unmapped] := .head _

theorem witness_IgnoredWritesChangeNothing :
    Instr.wr0Ignored ∈ [Instr.wr0Ignored, Instr.wr1Ignored, Instr.wr2Ignored, Instr.wr3Ignored, Instr.wr6Ignored,
      Instr.wr7Ignored, Instr.wr8Ignored, Instr.wr9Ignored, Instr.wr10Ignored, Instr.wr11Ignored,
      Instr.wr12Ignored, Instr.wr13Ignored, Instr.wr14Ignored, Instr.wr15Ignored] := .head _

theorem witness_OtherSlotsHaveNoEffect : ioSlot (.rd0CmdDirect 6) = some 6 ∧ (6 : BitVec 3) ≠ small.cfg.slot := by decide

/-- A read outside every page, a plain write there, a write of an external address, and a write in another slot's page. -/
theorem witness_GuestAccessesReachGuestMemory :
    (∃ s : State, s.latched = none ∧ (0x02000 : BitVec 17).extractLsb' 7 9 ≠ 0b110000001 ∧
      (0x02000 : BitVec 17).extractLsb' 16 1 = 0 ∧ s.input = .io 0x02000 none :: []) ∧
    (∃ s : State, s.latched = none ∧ (0x12000 : BitVec 17).extractLsb' 7 9 ≠ 0b110000001 ∧
      (0x12000 : BitVec 17).extractLsb' 16 1 = 1 ∧ s.input = .io 0x12000 (some 7) :: [] ∧ s.mem.wf = true ∧
      isExternal s.cfg ((0x12000 : BitVec 17).extractLsb' 0 16) = false ∧ (0x2001 : Word) ≠ (0x12000 : BitVec 17).extractLsb' 0 16) ∧
    (∃ s : State, s.latched = none ∧ (0x1C0E0 : BitVec 17).extractLsb' 4 3 ≠ s.cfg.slot ∧
      (0x1C0E0 : BitVec 17).extractLsb' 16 1 = 1 ∧ s.input = .io 0x1C0E0 (some 7) :: [] ∧
      isExternal s.cfg ((0x1C0E0 : BitVec 17).extractLsb' 0 16) = true) :=
  ⟨⟨{ small with input := [.io 0x02000 none] }, rfl, by decide, by decide, rfl⟩,
   ⟨{ small with input := [.io 0x12000 (some 7)] }, rfl, by decide, by decide, rfl, rfl, by decide, by decide⟩,
   ⟨{ small with input := [.io 0x1C0E0 (some 7)], cfg := { smallCfg with external := [⟨0xC000, 0xFFFF⟩] } }, rfl, by decide,
     by decide, rfl, by decide⟩⟩

theorem witness_UnsupportedCommandsReturnIoError :
    4 ≤ (⟨0x04, 0, 0, 0⟩ : CallBlock).cmd.toNat ∧ 4 ≤ (⟨0xFF, 0, 0, 0⟩ : CallBlock).cmd.toNat ∧
    (4 ≤ (direct 0x04 small).directBlock.cmd.toNat ∧
      (direct 0x04 small).accessesClear (directAddresses (direct 0x04 small).cfg)) ∧
    (∃ s : State, 4 ≤ s.indirectBlock.cmd.toNat ∧ s.accessesClear s.indirectAddresses) := by
  refine ⟨by decide, by decide, ⟨by decide +kernel, ?_⟩, withBytes 1 [0xFF] small, by decide +kernel, ?_⟩
  · exact accesses_of_all rfl (by decide +kernel)
  · exact accesses_of_all rfl (by decide +kernel)

/-- Within the capacity; and beyond it, with the store answering `Ok`. -/
theorem witness_ReadCopiesTheBlock :
    (loaded.mem.wf = true ∧ loaded.bufferClear 0x2000 ∧ loaded.store.fails 2 = false ∧
      (2 : Word).toNat < loaded.store.count.toNat ∧
      isExternal loaded.cfg (offsetBy 0x2000 511) = false ∧ outsideBuffer 0x2000 0x2200) ∧
    ∃ s : State, s.mem.wf = true ∧ s.bufferClear 0x2000 ∧ s.store.fails 0xFFFF = false :=
  ⟨⟨rfl, clear2000 rfl rfl, by decide, by decide, by decide, by unfold outsideBuffer; decide +kernel⟩,
   { small with store := { small.store with answers := [⟨0, .ok []⟩] } }, rfl, clear2000 rfl rfl, by decide⟩

theorem witness_FailedReadTouchesNothing : small.store.fails 0x0640 = true ∧ small.store.fails 0x063F = false := by decide

theorem witness_WriteToReadOnlyStoreIsProtected : ({ small.store with ro := true } : BlockStore).ro = true := rfl

theorem witness_WriteStoresTheBlock :
    (small.store.image.wf = true ∧ small.store.ro = false ∧ small.bufferClear 0x2000 ∧ small.store.fails 0x063F = false ∧
      (0x063F : Word).toNat < small.store.count.toNat) ∧
    ∃ s : State, s.store.image.wf = true ∧ s.store.ro = false ∧ s.bufferClear 0x2000 ∧ s.store.fails 0xFFFF = false ∧
      s.store.count.toNat ≤ (0xFFFF : Word).toNat :=
  ⟨⟨rfl, rfl, clear2000 rfl rfl, by decide, by decide⟩,
   { small with store := { small.store with answers := [⟨0, .ok []⟩] } }, rfl, rfl, clear2000 rfl rfl, by decide, by decide⟩

/-- An answer chosen for another call of the run. -/
def otherCall : List StoreAnswer := [⟨7, .ok []⟩]

/-- Beyond the capacity, by a failure that leaves nothing, and by one that leaves bytes, behind another call's answer. -/
theorem witness_FailedWriteReturnsIoError :
    small.store.ro = false ∧ small.bufferClear 0x2000 ∧ small.store.fails 0x0640 = true ∧
    small.store.count.toNat ≤ (0x0640 : Word).toNat ∧
    (∃ b : BlockStore, b.ro = false ∧ b.fails 0 = true ∧
      ∀ pre bytes rest, b.answers = pre ++ ⟨b.calls, .fail (some bytes)⟩ :: rest → ∃ a ∈ pre, a.call = b.calls) ∧
    (∃ b : BlockStore, b.ro = false ∧ b.fails 0 = true ∧ b.answers = otherCall ++ ⟨b.calls, .fail (some [7])⟩ :: [] ∧
      (∀ a ∈ otherCall, a.call ≠ b.calls) ∧ b.image.wf = true ∧ (0 : Word).toNat < b.count.toNat) := by
  refine ⟨rfl, clear2000 rfl rfl, by decide, by decide, ⟨{ small.store with answers := [⟨0, .fail none⟩] }, rfl, by decide, ?_⟩,
    { small.store with answers := otherCall ++ [⟨0, .fail (some [7])⟩] }, rfl, by decide, rfl, by decide, rfl, by decide⟩
  intro pre bytes rest h
  rcases pre with _ | ⟨a, pre⟩ <;> simp at h

theorem witness_StoreAnswersAreTheStoresDecision :
    (∃ b : BlockStore, b.answers = otherCall ++ ⟨b.calls, .fail (some [7])⟩ :: [] ∧ ∀ a ∈ otherCall, a.call ≠ b.calls) ∧
    (∃ b : BlockStore, b.answers = otherCall ++ ⟨b.calls, .ok (List.replicate 512 7)⟩ :: [] ∧
      (∀ a ∈ otherCall, a.call ≠ b.calls) ∧ b.count.toNat ≤ (0x0640 : Word).toNat ∧
      (List.replicate 512 (7 : Byte)).length = 512) ∧
    (∃ b : BlockStore, (∀ a ∈ b.answers, a.call ≠ b.calls) ∧ (0x063F : Word).toNat < b.count.toNat) :=
  ⟨⟨{ small.store with answers := otherCall ++ [⟨0, .fail (some [7])⟩] }, rfl, by decide⟩,
   ⟨{ small.store with answers := otherCall ++ [⟨0, .ok (List.replicate 512 7)⟩] }, rfl, by decide, by decide, List.length_replicate⟩,
   small.store, by decide, by decide⟩

theorem exec_write_clear {s : State} {unit : Byte} {src blk : Word} (h : s.store.ro = false) (hc : s.bufferClear src) :
    exec (.write unit src blk) s = .next (s.afterStore blk src) :=
  State.writeBlock_clear h hc

theorem writeTwice {s : State} (hro : s.store.ro = false) (hc : s.cfg = smallCfg) (hs : s.shell = [])
    (ha : s.store.answers = []) (hn : 5 < s.store.count.toNat) :
    ∃ t u, exec (.write 0 0x2000 5) s = .next t ∧ execAll [.write 0 0x2000 6] t = .next u ∧
      (∃ after, u.nested = after ++ t.nested ∧ ∀ ok, Access.bsWrite 5 ok ∉ after) ∧
      u.bufferClear 0x2000 ∧ bufferPlain u.cfg 0x2000 ∧ u.store.fails 5 = false := by
  have hu : ((s.afterStore 5 0x2000).afterStore 6 0x2000).cfg = smallCfg := by
    rw [State.afterStore_cfg, State.afterStore_cfg, hc]
  refine ⟨s.afterStore 5 0x2000, (s.afterStore 5 0x2000).afterStore 6 0x2000, exec_write_clear hro (clear2000 hc hs), ?_,
    ⟨_, by rw [State.afterStore_nested, State.afterReads_nested_eq, ← List.cons_append], by simp⟩,
    clear2000 hu (by simp [hs]), plain2000 _ (by rw [hu]; rfl) _, ?_⟩
  · have h : exec (.write 0 0x2000 6) (s.afterStore 5 0x2000) = .next ((s.afterStore 5 0x2000).afterStore 6 0x2000) :=
      exec_write_clear (by simp [hro]) (clear2000 (by simp [hc]) (by simp [hs]))
    simp only [execAll, h]
  · simp [BlockStore.fails, BlockStore.answer, ha, hn]

/-- With a WRITE of another block in between. -/
theorem witness_WrittenBlockIsReadBack :
    ∃ t u, small.mem.wf = true ∧ small.store.image.wf = true ∧ small.store.ro = false ∧
      (5 : Word).toNat < small.store.count.toNat ∧
      small.bufferClear 0x2000 ∧ bufferPlain small.cfg 0x2000 ∧ small.store.fails 5 = false ∧
      exec (.write 0 0x2000 5) small = .next t ∧ execAll [.write 0 0x2000 6] t = .next u ∧
      (∃ after, u.nested = after ++ t.nested ∧ ∀ ok, Access.bsWrite 5 ok ∉ after) ∧
      u.bufferClear 0x2000 ∧ bufferPlain u.cfg 0x2000 ∧ u.store.fails 5 = false := by
  obtain ⟨t, u, h⟩ := writeTwice (s := small) rfl rfl rfl rfl (by decide)
  exact ⟨t, u, rfl, rfl, rfl, by decide, clear2000 rfl rfl, plain2000 _ rfl _, by decide, h⟩

theorem witness_TransfersMoveOneBlockOrNothing :
    ∃ t, exec (.read 0 0x2000 0x0640) small = .next t ∧
      (Instr.read 0 0x2000 0x0640 = .read 0 0x2000 0x0640 ∨ Instr.read 0 0x2000 0x0640 = .write 0 0x2000 0x0640) :=
  ⟨_, rfl, .inl rfl⟩

theorem clear_direct {cmd : Byte} {s : State} (h : s.cfg = smallCfg) (hs : s.shell = []) :
    (direct cmd s).accessesClear (directAddresses (direct cmd s).cfg) := by
  refine accesses_of_all hs ?_
  show ((directAddresses s.cfg).all fun a => !ownPage s.cfg a) = true
  rw [h]
  decide +kernel

theorem clear_indirect : small.accessesClear small.indirectAddresses := accesses_of_all rfl (by decide +kernel)

/-- The six fetches of the direct entry in the floppy card's page, each of which starts a codec operation. -/
def fetchFloppy : State :=
  { small with
    cfg := { smallCfg with dirCmd := 0xC400, dirUnit := 0xC401, dirAddr := 0xC402, dirBlk := 0xC404, external := [⟨0xC400, 0xC4FF⟩] }
    shell := [[.read 0 0], [.write 0 7 1], [.powerOn 0], [], [.powerOff 0], [.read 0 4], [.read 0 8]] }

theorem witness_DirectEntryRunsTheFetchedCommand :
    small.accessesClear (directAddresses small.cfg) ∧ fetchFloppy.accessesClear (directAddresses fetchFloppy.cfg) := by
  refine ⟨accesses_of_all rfl (by decide +kernel), clear_of_all (by decide +kernel), ?_⟩
  rw [State.shellInRange_iff]
  decide +kernel

theorem witness_IndirectEntryRunsTheFetchedCommand : small.accessesClear small.indirectAddresses := clear_indirect

theorem commandClear2000 {c : CallBlock} {s : State} (hc : s.cfg = smallCfg) (hs : s.shell = []) (ha : c.addr = 0x2000) :
    commandClear c s := by
  unfold commandClear
  rw [ha]
  exact ⟨fun _ _ => clear2000 hc hs, fun _ _ => clear2000 hc hs⟩

/-- A READ, a WRITE and a STATUS through the direct entry; a STATUS through the indirect one. -/
theorem witness_TriggerReadsComplete :
    ((direct 1 small).accessesClear (directAddresses (direct 1 small).cfg) ∧
      (direct 1 small).directBlock = ⟨1, 0x70, 0x2000, 2⟩ ∧
      commandClear (direct 1 small).directBlock ((direct 1 small).afterReads (directAddresses (direct 1 small).cfg))) ∧
    ((direct 2 small).accessesClear (directAddresses (direct 2 small).cfg) ∧
      commandClear (direct 2 small).directBlock ((direct 2 small).afterReads (directAddresses (direct 2 small).cfg))) ∧
    (small.accessesClear small.indirectAddresses ∧
      commandClear small.indirectBlock (small.afterReads small.indirectAddresses)) := by
  have h1 : (direct 1 small).directBlock = ⟨1, 0x70, 0x2000, 2⟩ := by decide +kernel
  have h2 : (direct 2 small).directBlock = ⟨2, 0x70, 0x2000, 2⟩ := by decide +kernel
  have h3 : small.indirectBlock.cmd = 0 := by decide +kernel
  refine ⟨⟨clear_direct rfl rfl, h1, commandClear2000 ?_ ?_ (by rw [h1])⟩,
    ⟨clear_direct rfl rfl, commandClear2000 ?_ ?_ (by rw [h2])⟩, clear_indirect, ?_⟩
  · rw [State.afterReads_cfg]; rfl
  · rw [State.afterReads_shell]; exact List.drop_nil
  · rw [State.afterReads_cfg]; rfl
  · rw [State.afterReads_shell]; exact List.drop_nil
  · refine ⟨fun h => ?_, fun h => ?_⟩ <;> rw [h3] at h <;> exact absurd h (by decide)

theorem witness_ResultCodeIsDecidedInOrder :
    (∃ t, exec (decodeCommand ⟨1, 0x70, 0x2000, 0x0640⟩) small = .next t) ∧
    (∃ t, exec (decodeCommand ⟨2, 0x70, 0x2000, 0x0640⟩) { small with store := { small.store with ro := true } } = .next t) ∧
    (∃ t, exec (.rd0CmdDirect small.cfg.slot) small = .next t) ∧ (∃ t, exec (.rd3CmdIndirect small.cfg.slot) small = .next t) :=
  ⟨⟨_, rfl⟩, ⟨_, rfl⟩, ⟨_, rfl⟩, ⟨_, rfl⟩⟩

/-- A READ of block 2 to `0x2000` in both forms, in one memory. -/
def both : State := { withBytes 0x0310 [3, 0x70, 0x00, 0x20, 2, 0] (withBytes 0x0303 [0x01, 0x10, 0x03] (direct 1 small)) with
  mli := 0x0302 }

theorem witness_BothEntriesGiveTheSameOutcome :
    addressesClear both.cfg (directAddresses both.cfg) ∧ addressesClear both.cfg both.indirectAddresses ∧
    both.indirectBlock.cmd = both.directBlock.cmd ∧ both.indirectBlock.addr = both.directBlock.addr ∧
    (∀ ops, ops ∈ both.shell ∨ ops ∈ both.shell → firstOutOfRange both.cfg ops = none) ∧
    both.indirectBlock.blk = both.directBlock.blk ∧ (both.directBlock.cmd = 0x02 → bufferPlain both.cfg both.directBlock.addr) := by
  refine ⟨clear_of_all (by decide +kernel), clear_of_all (by decide +kernel), by decide +kernel, by decide +kernel,
    fun ops h => ?_, by decide +kernel, fun _ => plain2000 _ rfl _⟩
  rcases h with h | h <;> cases h

/-- The last address before the page, the first own-page address as the buffer's first byte, and one in the middle. -/
theorem witness_TransferIntoOwnPageFaults :
    (small.accessesClear (bufferAddresses 0xBEF1 0 511) ∧ ownPage small.cfg (offsetBy 0xBEF1 511) = true) ∧
    (small.accessesClear (bufferAddresses 0xC0F0 0 0) ∧ ownPage small.cfg (offsetBy 0xC0F0 0) = true) ∧
    small.store.fails 0 = false ∧ small.mem.wf = true ∧ small.store.ro = false ∧
    isExternal small.cfg (offsetBy 0xBEF1 510) = false := by
  refine ⟨⟨accesses_of_all rfl ?_, by decide⟩, ⟨accesses_of_all rfl rfl, by decide⟩, by decide, rfl, rfl, by decide⟩
  decide +kernel

theorem witness_FetchFromOwnPageFaults :
    (∃ s : State, (directAddresses s.cfg)[5]? = some 0xC0F0 ∧ ownPage s.cfg 0xC0F0 = true ∧
      s.accessesClear ((directAddresses s.cfg).take 5)) ∧
    (∃ s : State, s.indirectAddresses[0]? = some 0xC0F0 ∧ ownPage s.cfg 0xC0F0 = true ∧
      s.accessesClear (s.indirectAddresses.take 0)) :=
  ⟨⟨{ small with cfg := { smallCfg with dirBlk := 0xC0EF } }, by decide, by decide, accesses_of_all rfl (by decide +kernel)⟩,
   ⟨{ small with mli := 0xC0EF }, by decide +kernel, by decide, accesses_of_all rfl rfl⟩⟩

/-- One operation of each kind; an access of the floppy card's page, and one of plain RAM. -/
theorem witness_NestedCodecOperationsActAsOnTheirPort :
    ∃ (ops : List CodecOp) (s : State), s.drives.length = s.cfg.ndrives ∧ (∀ op ∈ ops, op.instr.wf s.cfg = true) ∧
      s.shell = ops :: [] ∧ (ownPage s.cfg 0xC400 = false ∧ isExternal s.cfg 0xC400 = true) ∧
      ownPage s.cfg 0x2000 = false ∧ isExternal s.cfg 0x2000 = false :=
  ⟨[.powerOn 0, .read 0 7, .write 0 0 0xEE, .powerOff 0], floppy [.powerOn 0, .read 0 7, .write 0 0 0xEE, .powerOff 0],
   by decide, by decide, rfl, by decide, by decide, by decide⟩

/-- At the first fetch of each entry and at the last byte of a transfer, after an operation that is in range. -/
theorem witness_NestedQuarterTrackOutOfRangeFaults :
    (∃ s : State, firstOutOfRange s.cfg [.read 0 7] = none ∧ 4 * s.cfg.ntracks ≤ 8 ∧ ownPage s.cfg 0xC400 = false ∧
      isExternal s.cfg 0xC400 = true ∧ (directAddresses s.cfg)[0]? = some 0xC400 ∧ s.accessesClear [] ∧
      s.shell[externalCount s.cfg []]? = some ([.read 0 7] ++ .write 0 8 1 :: [])) ∧
    (∃ s : State, firstOutOfRange s.cfg [.read 0 7] = none ∧ 4 * s.cfg.ntracks ≤ 8 ∧ ownPage s.cfg 0xC400 = false ∧
      isExternal s.cfg 0xC400 = true ∧ s.indirectAddresses[0]? = some 0xC400 ∧ s.accessesClear [] ∧
      s.shell[externalCount s.cfg []]? = some ([.read 0 7] ++ .read 0 8 :: [])) ∧
    (∃ s : State, firstOutOfRange s.cfg [.read 0 7] = none ∧ 4 * s.cfg.ntracks ≤ 8 ∧ ownPage s.cfg 0xC400 = false ∧
      isExternal s.cfg 0xC400 = true ∧ offsetBy 0xC201 511 = 0xC400 ∧ s.store.fails 0 = false ∧ s.store.ro = false ∧
      s.accessesClear (bufferAddresses 0xC201 0 511) ∧
      s.shell[externalCount s.cfg (bufferAddresses 0xC201 0 511)]? = some ([.read 0 7] ++ .read 0 8 :: [])) := by
  have none (s : State) : s.accessesClear [] := ⟨clear_of_all rfl, by simp [State.shellInRange]⟩
  refine ⟨⟨{ fetchFloppy with shell := [[.read 0 7, .write 0 8 1]] }, by decide, by decide, by decide, by decide, rfl,
      none _, rfl⟩,
    ⟨{ floppy [.read 0 7, .read 0 8] with mli := 0xC3FF }, by decide, by decide, by decide, by decide, by decide +kernel,
      none _, rfl⟩,
    floppy [.read 0 7, .read 0 8], by decide, by decide, by decide, by decide, by decide, by decide, rfl, ⟨?_, ?_⟩, ?_⟩
  · exact clear_of_all (by decide +kernel)
  · rw [State.shellInRange_iff]
    decide +kernel
  · decide +kernel

theorem witness_NreadReturnsTheByteAtTheCursor :
    ∃ d, small.drives[0]? = some d ∧ (7 : Nat) < 4 * small.cfg.ntracks ∧ 4 * small.cfg.ntracks ≤ (8 : Nat) :=
  ⟨_, rfl, by decide, by decide⟩

theorem witness_NwriteStoresTheByteAtTheCursor :
    ∃ d, small.drives[0]? = some d ∧ driveOk small.cfg d = true ∧ (7 : Nat) < 4 * small.cfg.ntracks ∧
      4 * small.cfg.ntracks ≤ (8 : Nat) ∧ ((0 : Nat), (0 : Nat)) ≠ ((7 : Nat) / 4, d.pos) :=
  ⟨_, rfl, by decide, by decide, by decide, by decide⟩

theorem witness_PowerOperationsChangeNothing : 0 < small.drives.length := by decide

theorem witness_QuarterTracksOfOneTrackAgree :
    (4 : Nat) / 4 = (7 : Nat) / 4 ∧ (4 : Nat) < 4 * small.cfg.ntracks := by decide

theorem witness_CursorWrapsAfterOneRevolution :
    (∃ d, (smallAt 3).drives[0]? = some d ∧ d.pos < (smallAt 3).cfg.trackLen ∧
      [Instr.nread 0 0 0, .nwrite 0 5 9, .nread 0 7 0, .nwrite 0 0 1].length ≤ (smallAt 3).cfg.trackLen ∧
      d.pos + 1 = (smallAt 3).cfg.trackLen) ∧
    (∀ i ∈ [Instr.nread 0 0 0, .nwrite 0 5 9, .nread 0 7 0, .nwrite 0 0 1],
      ∃ (q : Nat) (v : Byte), q < 4 * (smallAt 3).cfg.ntracks ∧ (i = .nread 0 q v ∨ i = .nwrite 0 q v)) ∧
    ((7 : Nat) < 4 * (smallAt 3).cfg.ntracks ∧ ([0, 7, 4] : List Nat).length + 1 = (smallAt 3).cfg.trackLen ∧
      ∀ x ∈ ([0, 7, 4] : List Nat), x < 4 * (smallAt 3).cfg.ntracks) ∧
    (∃ t, exec (.nread 0 0 0) (smallAt 3) = .next t) ∧
    (∃ (s : State) (d : Drive), s.drives[0]? = some d ∧ s.cfg.trackLen = 1 ∧ d.pos = 0 ∧ (7 : Nat) < 4 * s.cfg.ntracks) := by
  refine ⟨⟨_, rfl, by decide, by decide, by decide⟩, ?_, by decide, ⟨_, rfl⟩,
    { small with cfg := { smallCfg with trackLen := 1 } }, _, rfl, rfl, rfl, by decide⟩
  intro i hi
  simp only [List.mem_cons, List.not_mem_nil, or_false] at hi
  rcases hi with rfl | rfl | rfl | rfl
  · exact ⟨0, 0, by decide, .inl rfl⟩
  · exact ⟨5, 9, by decide, .inr rfl⟩
  · exact ⟨7, 0, by decide, .inl rfl⟩
  · exact ⟨0, 1, by decide, .inr rfl⟩

theorem witness_WrittenByteComesBackAfterOneRevolution :
    ∃ d, (smallAt 3).drives[0]? = some d ∧ driveOk (smallAt 3).cfg d = true ∧ (7 : Nat) < 4 * (smallAt 3).cfg.ntracks ∧
      (4 : Nat) / 4 = (7 : Nat) / 4 ∧
      [Instr.nread 0 0 0, .nwrite 0 5 9, .nread 0 7 0].length + 1 = (smallAt 3).cfg.trackLen ∧
      ∀ i ∈ [Instr.nread 0 0 0, .nwrite 0 5 9, .nread 0 7 0],
        ∃ (q : Nat) (v : Byte), q < 4 * (smallAt 3).cfg.ntracks ∧ (i = .nread 0 q v ∨ i = .nwrite 0 q v) := by
  refine ⟨_, rfl, by decide, by decide, by decide, by decide, ?_⟩
  intro i hi
  simp only [List.mem_cons, List.not_mem_nil, or_false] at hi
  rcases hi with rfl | rfl | rfl
  · exact ⟨0, 0, by decide, .inl rfl⟩
  · exact ⟨5, 9, by decide, .inr rfl⟩
  · exact ⟨7, 0, by decide, .inl rfl⟩

/-- Two drives (the reset geometry): an operation on drive 0, another drive 1, another state with the same drive 0. -/
theorem witness_DrivesAreIndependent :
    ∃ t, nibDrive (.nwrite 0 0 7) = some 0 ∧ exec (.nwrite 0 0 7) State.reset = .next t ∧ (1 : Nat) ≠ 0 ∧
      ({ State.reset with mli := 5 } : State).drives[0]? = State.reset.drives[0]? :=
  ⟨_, rfl, rfl, by decide, rfl⟩

theorem witness_MissingDriveIsRefused : nibDrive (.pwron 1 0 0) = some 1 ∧ small.drives[1]? = none := by decide

theorem witness_LoadRestoresTheSnapshot :
    ∃ t u, exec .save { small with mli := 0x0302 } = .next t ∧ t.out = .snapshot 0x0302 ∧ execAll [.wr4MliLo 7 0] t = .next u :=
  ⟨_, _, rfl, rfl, rfl⟩

theorem witness_OnlyItsWritersChangeMli :
    ∃ t, writesMli (.rd3CmdIndirect 7) = false ∧ exec (.rd3CmdIndirect 7) { small with mli := 0x0302 } = .next t :=
  ⟨_, rfl, rfl⟩

theorem witness_MliIsHiddenFromOtherOperations :
    (∃ t, readsMli (.rd0CmdDirect 7) = false ∧ exec (.rd0CmdDirect 7) small = .next t) ∧
    ∃ t, readsMli (.load 7) = false ∧ exec (.load 7) small = .next t :=
  ⟨⟨_, rfl, rfl⟩, _, rfl, rfl⟩

theorem witness_OnlyTheCodecChangesDrives : ∃ t, writesDrives (.pwron 0 0 0) = false ∧ exec (.pwron 0 0 0) small = .next t :=
  ⟨_, rfl, rfl⟩

theorem witness_OnlyTransfersChangeMemoryAndStore :
    (∃ t, movesBlocks (.rd1CapLo 7) = false ∧ exec (.rd1CapLo 7) small = .next t ∧
      ∀ slot, ioSlot (.rd1CapLo 7) = some slot → slot = small.cfg.slot) ∧
    (∃ t, exec (.write 0 0 0) { small with store := { small.store with ro := true } } = .next t) ∧
    (∃ t, exec (.read 0 0 0x0640) small = .next t) ∧
    (∃ t, exec (.rd0CmdDirect small.cfg.slot) small = .next t ∧ small.directBlock.cmd ≠ 0x01) ∧
    (∃ t, exec (.rd3CmdIndirect small.cfg.slot) small = .next t ∧ small.indirectBlock.cmd ≠ 0x01) :=
  ⟨⟨_, rfl, rfl, fun _ h => (Option.some.inj h).symm⟩, ⟨_, rfl⟩, ⟨_, rfl⟩, ⟨_, rfl, by decide +kernel⟩,
   ⟨_, rfl, by decide +kernel⟩⟩

theorem witness_ParametersAndHeaderAreConstant : ∃ t, step { small with input := [.host 0 none] } = .next t := ⟨_, rfl⟩

theorem witness_SpdDependsOnMliMemoryAndStoreOnly :
    ∃ t, (ioSlot (.rd0CmdDirect 7)).isSome = true ∧ exec (.rd0CmdDirect 7) small = .next t ∧
      (smallAt 3).cfg = small.cfg ∧ (smallAt 3).mli = small.mli ∧ (smallAt 3).mem = small.mem ∧
      (smallAt 3).store = small.store ∧ (smallAt 3).draws = small.draws ∧ (smallAt 3).shell = small.shell :=
  ⟨_, rfl, rfl, rfl, rfl, rfl, rfl, rfl, rfl⟩

/-- A trigger read, and the last quarter-track of the last drive. -/
theorem witness_InContractTransactionsComplete :
    (∃ s : State, s.Inv ∧ s.input = .io 0x0C0F3 none :: [] ∧
      decode (.port (.io 0x0C0F3 none)) = .ok (.rd3CmdIndirect 7) ∧ s.inContract (.rd3CmdIndirect 7)) ∧
    ∃ s : State, s.Inv ∧ s.input = .nib 0 0x00700 0 :: [] ∧ decode (.port (.nib 0 0x00700 0)) = .ok (.nread 0 7 0) ∧
      s.inContract (.nread 0 7 0) := by
  refine ⟨⟨{ small with input := [.io 0x0C0F3 none] }, ?_, rfl, by decide, rfl, fun _ => ⟨?_, ?_⟩⟩,
    ⟨{ small with input := [.nib 0 0x00700 0] }, ?_, rfl, by decide, by decide, trivial⟩⟩
  · exact ⟨small_inv.cfgOk, small_inv.driveCount, small_inv.drivesOk, small_inv.memWf, small_inv.memWithin, small_inv.imageWf,
      small_inv.imageWithin, rfl⟩
  · exact accesses_of_all rfl (by decide +kernel)
  · have h : ({ small with input := [.io 0x0C0F3 none] } : State).indirectBlock.cmd = 0 := by decide +kernel
    refine ⟨fun h' => ?_, fun h' => ?_⟩ <;> rw [h] at h' <;> exact absurd h' (by decide)
  · exact ⟨small_inv.cfgOk, small_inv.driveCount, small_inv.drivesOk, small_inv.memWf, small_inv.memWithin, small_inv.imageWf,
      small_inv.imageWithin, rfl⟩

end Sys2Proof.Tests
end

section
/-! PROOFS. What every operation keeps: the constants of the session (`00_scope.md` R9, `10_state.md` R42), and `MLI` unless the
operation writes it (R21). One case analysis over the operations serves both. -/

namespace Sys2Proof.Machine

/-- `t` has the parameters of `s`, and its store the header and the chosen answers (R9, R42, R53). -/
structure State.SameSession (s t : State) : Prop where
  cfg     : t.cfg = s.cfg
  count   : t.store.count = s.store.count
  ro      : t.store.ro = s.store.ro
  answers : t.store.answers = s.store.answers

theorem State.SameSession.refl (s : State) : s.SameSession s := ⟨rfl, rfl, rfl, rfl⟩

theorem State.SameSession.trans {s t u : State} (h : s.SameSession t) (h' : t.SameSession u) : s.SameSession u :=
  ⟨h'.cfg.trans h.cfg, h'.count.trans h.count, h'.ro.trans h.ro, h'.answers.trans h.answers⟩

theorem State.sameSession_of_eq {s t : State} (hc : t.cfg = s.cfg) (hs : t.store = s.store) : s.SameSession t :=
  ⟨hc, by rw [hs], by rw [hs], by rw [hs]⟩

theorem State.accept_sameSession (s : State) (rest : List Txn) : s.SameSession (s.accept rest) :=
  State.sameSession_of_eq rfl rfl

theorem State.guestRead_sameSession (s : State) (a : Word) : s.SameSession (s.guestRead a) :=
  State.sameSession_of_eq rfl rfl

theorem State.guestWrite_sameSession (s : State) (a : Word) (v : Byte) : s.SameSession (s.guestWrite a v) :=
  State.sameSession_of_eq rfl rfl

/-- A command changes neither: a transfer changes the store's image and call count only. -/
theorem dispatch_keeps {c : CallBlock} {s t : State} (h : dispatch c s = .next t) : s.SameSession t ∧ t.mli = s.mli := by
  rcases dispatch_next h with ⟨-, -, rfl⟩ | ⟨-, -, -, rfl⟩ | ⟨-, -, -, rfl⟩ | ⟨-, rfl⟩ | ⟨-, -, rfl⟩ | ⟨-, -, -, rfl⟩
  case inl | inr.inl | inr.inr.inl => exact ⟨⟨by simp, by simp, by simp, by simp⟩, by simp⟩
  all_goals exact ⟨State.sameSession_of_eq rfl rfl, rfl⟩

/-- Everything a trigger read can do when it goes on: guest memory answers for another slot, else the fetched command runs. -/
theorem exec_trigger_next {i : Instr} {s t : State} (ht : isTrigger i = true) (h : exec i s = .next t) :
    (∃ a, t = s.guestRead a) ∨ ∃ as c, dispatch c ((s.afterReads as).latch c) = .next t := by
  cases i <;> simp only [isTrigger, Bool.false_eq_true] at ht
  case rd0CmdDirect slot =>
    rcases execRd0_next h with ⟨-, rfl⟩ | ⟨-, -, h⟩
    · exact .inl ⟨_, rfl⟩
    · exact .inr ⟨_, _, h⟩
  case rd3CmdIndirect slot =>
    rcases execRd3_next h with ⟨-, rfl⟩ | ⟨-, -, h⟩
    · exact .inl ⟨_, rfl⟩
    · exact .inr ⟨_, _, h⟩

theorem exec_trigger_keeps {i : Instr} {s t : State} (ht : isTrigger i = true) (h : exec i s = .next t) :
    s.SameSession t ∧ t.mli = s.mli := by
  rcases exec_trigger_next ht h with ⟨a, rfl⟩ | ⟨as, c, h⟩
  · exact ⟨s.guestRead_sameSession a, rfl⟩
  · obtain ⟨hses, hmli⟩ := dispatch_keeps h
    have fetched : s.SameSession ((s.afterReads as).latch c) := State.sameSession_of_eq (by simp) (by simp)
    exact ⟨fetched.trans hses, by simpa using hmli⟩

/-- What every operation keeps when it goes on. -/
theorem exec_keeps {i : Instr} {s t : State} (h : exec i s = .next t) :
    s.SameSession t ∧ (writesMli i = false → t.mli = s.mli) := by
  rcases instr_cases i with ⟨slot, hs⟩ | ⟨c, hc⟩ | ⟨n, hn⟩ | rfl | rfl | ⟨m, rfl⟩
  · cases ht : isTrigger i with
    | true =>
      obtain ⟨hses, hmli⟩ := exec_trigger_keeps ht h
      exact ⟨hses, fun _ => hmli⟩
    | false =>
      rcases exec_ioPlain_next hs ht h with ⟨-, m, r, n, rfl, hm⟩ | ⟨-, ⟨o, rfl⟩ | ⟨o, v, rfl⟩⟩
      · exact ⟨State.sameSession_of_eq rfl rfl, hm⟩
      · exact ⟨s.guestRead_sameSession _, fun _ => rfl⟩
      · exact ⟨s.guestWrite_sameSession _ v, fun _ => rfl⟩
  · obtain ⟨hses, hmli⟩ := dispatch_keeps (exec_command hc s ▸ h)
    exact ⟨hses, fun _ => hmli⟩
  · obtain ⟨d, e, r, -, rfl, -⟩ := exec_nib_next hn h
    exact ⟨State.sameSession_of_eq rfl rfl, fun _ => rfl⟩
  · cases h
    exact ⟨State.sameSession_of_eq rfl rfl, fun hw => by cases hw⟩
  · cases h
    exact ⟨State.sameSession_of_eq rfl rfl, fun _ => rfl⟩
  · cases h
    exact ⟨State.sameSession_of_eq rfl rfl, fun hw => by cases hw⟩

theorem step_sameSession {s t : State} (h : step s = .next t) : s.SameSession t := by
  rcases step_next h with ⟨c, -, h⟩ | ⟨-, -, rfl⟩ |
    ⟨-, x, rest, -, ⟨i, -, h⟩ | ⟨a, -, rfl⟩ | ⟨a, v, -, rfl⟩⟩
  · exact (exec_keeps h).1
  · exact .refl _
  · exact (s.accept_sameSession rest).trans (exec_keeps h).1
  · exact (s.accept_sameSession rest).trans (State.guestRead_sameSession _ a)
  · exact (s.accept_sameSession rest).trans (State.guestWrite_sameSession _ a v)

/-- A run that goes on: its first operation goes on, and the rest from there. -/
theorem execAll_cons_next {i : Instr} {rest : List Instr} {s u : State} (h : execAll (i :: rest) s = .next u) :
    ∃ t, exec i s = .next t ∧ execAll rest t = .next u := by
  unfold execAll at h
  split at h
  · next t ht => exact ⟨t, ht, h⟩
  · cases h
  · cases h

/-- The same along a run of operations that do not write `MLI`. -/
theorem execAll_keeps {is : List Instr} {s t : State} (h : execAll is s = .next t) :
    s.SameSession t ∧ ((∀ i ∈ is, writesMli i = false) → t.mli = s.mli) := by
  induction is generalizing s with
  | nil =>
    cases h
    exact ⟨.refl _, fun _ => rfl⟩
  | cons i rest ih =>
    obtain ⟨m, hi, hrest⟩ := execAll_cons_next h
    obtain ⟨hses, hmli⟩ := exec_keeps hi
    obtain ⟨hses', hmli'⟩ := ih hrest
    refine ⟨hses.trans hses', fun hw => ?_⟩
    obtain ⟨hwi, hwrest⟩ := List.forall_mem_cons.1 hw
    exact (hmli' hwrest).trans (hmli hwi)

end Sys2Proof.Machine
end

section
/-! PROOFS. `30_encoding.md` R89 and R91: the halves of a word, the capacity reads and the assembly of `MLI`. -/

namespace Sys2Proof

/-- Where an `IO` word of a read leads (R81). -/
theorem decode_ioRead (slot : BitVec 3) (o : BitVec 4) :
    decode (.port (.io (ioWord 0 slot o) none)) = .ok (decodeRead slot o) := by
  obtain ⟨hw, hpage, hslot, ho⟩ := ioWord_fields 0 slot o
  rw [decode]
  unfold decodeIo
  rw [hw, hpage, hslot, ho]
  rfl

namespace Machine

/-! ### The halves of a word (R10) -/

theorem toNat_joinBytes (hi lo : Byte) : (joinBytes hi lo).toNat = hi.toNat * 256 + lo.toNat := by
  rw [joinBytes, BitVec.toNat_append, ← Nat.shiftLeft_add_eq_or_of_lt lo.isLt, Nat.shiftLeft_eq]

theorem lowByte_eq_ofNat (v : Word) : lowByte v = BitVec.ofNat 8 (v.toNat % 256) := by
  apply BitVec.eq_of_toNat_eq
  simp [lowByte]

theorem highByte_eq_ofNat (v : Word) : highByte v = BitVec.ofNat 8 (v.toNat / 256) := by
  apply BitVec.eq_of_toNat_eq
  simp [highByte, Nat.shiftRight_eq_div_pow]

/-! ### The handlers at the card's own slot -/

theorem exec_rd1CapLo_own (s : State) :
    exec (.rd1CapLo s.cfg.slot) s = .next (s.reply (.byte (lowByte s.store.count))) := by
  rw [exec, execRd1CapLo, State.onCardRead_own rfl]

theorem exec_rd2CapHi_own (s : State) :
    exec (.rd2CapHi s.cfg.slot) s = .next (s.reply (.byte (highByte s.store.count))) := by
  rw [exec, execRd2CapHi, State.onCardRead_own rfl]

theorem exec_wr4MliLo_own {s : State} {slot : BitVec 3} (h : slot = s.cfg.slot) (v : Byte) :
    exec (.wr4MliLo slot v) s = .next ({ s with mli := joinBytes (highByte s.mli) v }.reply .silent) := by
  rw [exec, execWr4MliLo, State.onCardWrite_own h]

theorem exec_wr5MliHi_own {s : State} {slot : BitVec 3} (h : slot = s.cfg.slot) (v : Byte) :
    exec (.wr5MliHi slot v) s = .next ({ s with mli := joinBytes v (lowByte s.mli) }.reply .silent) := by
  rw [exec, execWr5MliHi, State.onCardWrite_own h]

/-- One operation, then operations that do not write `MLI`: it is as the first one left it, and the card has kept its slot. -/
theorem slot_and_mli_after_between {i : Instr} {between : List Instr} {s t u : State}
    (hb : ∀ i ∈ between, writesMli i = false) (hi : exec i s = .next t) (hrun : execAll between t = .next u) :
    s.cfg.slot = u.cfg.slot ∧ u.mli = t.mli := by
  obtain ⟨hses, -⟩ := exec_keeps hi
  obtain ⟨hses', hmli⟩ := execAll_keeps hrun
  exact ⟨by rw [(hses.trans hses').cfg], hmli hb⟩

/-- Settles O15: the handlers' equations, and `step_sameSession` for the count. -/
theorem capacityReadsReturnTheCount : Obligations.CapacityReadsReturnTheCount := by
  refine ⟨fun slot => ⟨decode_ioRead slot 1, decode_ioRead slot 2⟩, fun s => ⟨?_, ?_⟩, fun s t h => (step_sameSession h).count⟩
  · rw [exec_rd1CapLo_own, lowByte_eq_ofNat]
    rfl
  · rw [exec_rd2CapHi_own, highByte_eq_ofNat]
    rfl

/-- Settles O17: the operations in between keep the half that the first write left, and the second write joins its own to it. -/
theorem mliIsAssembledFromTwoWrites : Obligations.MliIsAssembledFromTwoWrites := by
  refine ⟨fun s v => ⟨⟨_, exec_wr4MliLo_own rfl v, rfl⟩, ⟨_, exec_wr5MliHi_own rfl v, rfl⟩⟩, ?_, ?_⟩
  · intro s t u lo hi between hb hwrite hrun
    obtain ⟨hslot, hmli⟩ := slot_and_mli_after_between hb hwrite hrun
    refine ⟨_, exec_wr5MliHi_own hslot hi, ?_⟩
    cases (exec_wr4MliLo_own rfl lo).symm.trans hwrite
    simp [hmli, toNat_joinBytes]
  · intro s t u lo hi between hb hwrite hrun
    obtain ⟨hslot, hmli⟩ := slot_and_mli_after_between hb hwrite hrun
    refine ⟨_, exec_wr4MliLo_own hslot lo, ?_⟩
    cases (exec_wr5MliHi_own rfl hi).symm.trans hwrite
    simp [hmli, toNat_joinBytes]

end Machine

end Sys2Proof
end

section
/-! PROOFS. `40_softswitch_access.md` R113 and R114: the two `MLI` writes, their words and the half that each one replaces. -/

namespace Sys2Proof

/-- Where an `IO` word of a write leads (R81). -/
theorem decode_ioWrite (slot : BitVec 3) (o : BitVec 4) (v : Byte) :
    decode (.port (.io (ioWord 1 slot o) (some v))) = .ok (decodeWrite slot o v) := by
  obtain ⟨hw, hpage, hslot, ho⟩ := ioWord_fields 1 slot o
  rw [decode]
  unfold decodeIo
  rw [hw, hpage, hslot, ho]
  rfl

namespace Machine

theorem toNat_lowByte (v : Word) : (lowByte v).toNat = v.toNat % 256 := by
  simp [lowByte]

theorem toNat_highByte (v : Word) : (highByte v).toNat = v.toNat / 256 := by
  rw [highByte_eq_ofNat, BitVec.toNat_ofNat, Nat.mod_eq_of_lt]
  have := v.isLt
  omega

theorem joinBytes_eq_ofNat (hi lo : Byte) : joinBytes hi lo = BitVec.ofNat 16 (hi.toNat * 256 + lo.toNat) := by
  rw [← toNat_joinBytes, BitVec.ofNat_toNat, BitVec.setWidth_eq]

/-- Settles O16: the handlers' equations, with the half that stays read as a quotient or a remainder by 256. -/
theorem mliWritesReplaceOneHalf : Obligations.MliWritesReplaceOneHalf := by
  refine ⟨fun slot v => ⟨decode_ioWrite slot 4 v, decode_ioWrite slot 5 v⟩, fun s v => ⟨?_, ?_⟩⟩
  · rw [exec_wr4MliLo_own rfl, joinBytes_eq_ofNat, toNat_highByte]
    rfl
  · rw [exec_wr5MliHi_own rfl, joinBytes_eq_ofNat, toNat_lowByte]
    rfl

end Machine

end Sys2Proof
end

section
/-! PROOFS. `41_command_dispatch.md` R136: the command byte of STATUS, and what STATUS answers and leaves. -/

namespace Sys2Proof

theorem decodeCommand_status {c : CallBlock} (h : c.cmd = 0x00) : decodeCommand c = .status c.unit c.addr c.blk := by
  rw [decodeCommand, if_pos h]

namespace Machine

/-- STATUS is what the dispatch on command byte `0x00` runs (R135), for every operand. -/
theorem exec_status (unit : Byte) (addr blk : Word) (s : State) :
    exec (.status unit addr blk) s = .next (s.finish noError) := by
  have hcmd : (CallBlock.mk 0x00 unit addr blk).cmd = 0x00 := rfl
  rw [← dispatch_status hcmd s, dispatch_eq_exec, decodeCommand_status hcmd]

/-- Settles O22: byte `0x00` is the decoder's first row, and `finish` sets the answer and `latched` alone. -/
theorem statusReturnsNoError : Obligations.StatusReturnsNoError := by
  refine ⟨fun unit addr blk => ?_, fun unit addr blk s => ?_⟩
  · rw [decode, decodeCommand_status rfl]
  · rw [exec_status, State.finish, noError]

end Machine

end Sys2Proof
end

section
/-! PROOFS. `43_nibble_codec.md` R169 and R174: what one read or write does to its drive, what a run of them does, and that a codec
operation is a function of the parameters and of its own drive. -/

namespace Sys2Proof.Machine

/-! ### One drive among the drives -/

theorem State.setDrive_getElem?_self {s : State} {n : Nat} {d : Drive} (hd : s.drives[n]? = some d) (e : Drive) :
    (s.setDrive n e).drives[n]? = some e := by
  obtain ⟨hn, -⟩ := List.getElem?_eq_some_iff.1 hd
  rw [State.setDrive_drives, List.getElem?_set_self hn]

theorem State.setDrive_getElem?_other {n m : Nat} (h : m ≠ n) (s : State) (e : Drive) :
    (s.setDrive n e).drives[m]? = s.drives[m]? := by
  rw [State.setDrive_drives, List.getElem?_set_ne h.symm]

theorem State.setDrive_same {s : State} {n : Nat} {d : Drive} (hd : s.drives[n]? = some d) : s.setDrive n d = s := by
  obtain ⟨hn, rfl⟩ := List.getElem?_eq_some_iff.1 hd
  rw [State.setDrive, List.set_getElem_self]

/-! ### The codec operations on a drive that exists (R166, R167, R175, R176) -/

theorem exec_nread {n q : Nat} {s : State} {d : Drive} (hd : s.drives[n]? = some d) (hq : quarterTrackOut s.cfg q = false)
    (pad : Byte) :
    exec (.nread n q pad) s = .next ((s.setDrive n (d.advance s.cfg)).reply (.byte (d.byteAt (trackOf q) d.pos))) := by
  rw [exec, execNread, State.onDrive_some hd, if_neg (by simp [hq])]

theorem exec_nwrite {n q : Nat} {s : State} {d : Drive} (hd : s.drives[n]? = some d) (hq : quarterTrackOut s.cfg q = false)
    (v : Byte) :
    exec (.nwrite n q v) s =
      .next ((s.setDrive n ((d.withByte (trackOf q) d.pos v).advance s.cfg)).reply .silent) := by
  rw [exec, execNwrite, State.onDrive_some hd, if_neg (by simp [hq])]

theorem exec_pwron {n : Nat} {s : State} {d : Drive} (hd : s.drives[n]? = some d) (q : Nat) (pad : Byte) :
    exec (.pwron n q pad) s = .next (s.reply .silent) := by
  rw [exec, execPwron, State.onDrive_some hd]

theorem exec_pwroff {n : Nat} {s : State} {d : Drive} (hd : s.drives[n]? = some d) (q : Nat) (pad : Byte) :
    exec (.pwroff n q pad) s = .next (s.reply .silent) := by
  rw [exec, execPwroff, State.onDrive_some hd]

/-- What a codec operation does is fixed by the parameters and its own drive alone (R174): if it goes on in one state, it leaves the
same drive and gives the same response in every state that agrees in these. -/
theorem exec_nib_determined {i : Instr} {n : Nat} {s t : State} {d : Drive} (h : nibDrive i = some n)
    (hd : s.drives[n]? = some d) (hx : exec i s = .next t) :
    ∃ e r, ∀ s' : State, s'.cfg = s.cfg → s'.drives[n]? = some d → exec i s' = .next ((s'.setDrive n e).reply r) := by
  cases i <;> simp only [nibDrive, Option.some.injEq, reduceCtorEq] at h <;> subst h
  case nread q pad =>
    obtain ⟨-, -, hq, -⟩ := execNread_next (pad := pad) hx
    refine ⟨d.advance s.cfg, .byte (d.byteAt (trackOf q) d.pos), fun s' hc hd' => ?_⟩
    rw [← hc] at hq ⊢
    exact exec_nread hd' hq pad
  case nwrite q v =>
    obtain ⟨-, -, hq, -⟩ := execNwrite_next hx
    refine ⟨(d.withByte (trackOf q) d.pos v).advance s.cfg, .silent, fun s' hc hd' => ?_⟩
    rw [← hc] at hq ⊢
    exact exec_nwrite hd' hq v
  case pwron q pad => exact ⟨d, .silent, fun s' _ hd' => by rw [exec_pwron hd', State.setDrive_same hd']⟩
  case pwroff q pad => exact ⟨d, .silent, fun s' _ hd' => by rw [exec_pwroff hd', State.setDrive_same hd']⟩

/-- Settles O49: `exec_nib_determined` gives the new drive and the response once for `s` and for every `s'`. -/
theorem drivesAreIndependent : Obligations.DrivesAreIndependent := by
  intro i n s t h hx
  obtain ⟨d, -, -, hd, -⟩ := exec_nib_next h hx
  obtain ⟨e, r, det⟩ := exec_nib_determined h hd hx
  cases hx.symm.trans (det s rfl hd)
  refine ⟨fun m hm => State.setDrive_getElem?_other hm s e, rfl, fun s' hc hd' => ?_⟩
  have hd' := hd'.trans hd
  exact ⟨_, det s' hc hd', rfl, (State.setDrive_getElem?_self hd' e).trans (State.setDrive_getElem?_self hd e).symm⟩

/-! ### The cursor along a run of reads and writes -/

/-- One in-range read or write of drive `n`. -/
def InRangeAccess (p : Params) (n : Nat) (i : Instr) : Prop :=
  ∃ (q : Nat) (v : Byte), q < 4 * p.ntracks ∧ (i = .nread n q v ∨ i = .nwrite n q v)

theorem inRangeAccess_nreads {p : Params} {qs : List Nat} (n : Nat) (h : ∀ q ∈ qs, q < 4 * p.ntracks) :
    ∀ i ∈ qs.map fun q => Instr.nread n q 0, InRangeAccess p n i := by
  intro i hi
  obtain ⟨q, hq, rfl⟩ := List.mem_map.1 hi
  exact ⟨q, 0, h q hq, .inl rfl⟩

/-- What `k` reads and writes on drive `n` leave of it: they turn its cursor by `k`, and every byte they do not pass is kept. -/
structure Turned (n k : Nat) (s : State) (d : Drive) (t : State) (e : Drive) : Prop where
  cfg   : t.cfg = s.cfg
  drive : t.drives[n]? = some e
  pos   : e.pos = (nextPos s.cfg)^[k] d.pos
  kept  : ∀ track p, (∀ j < k, (nextPos s.cfg)^[j] d.pos ≠ p) → e.byteAt track p = d.byteAt track p

theorem Turned.succ {n k : Nat} {s t u : State} {d e f : Drive} (h : Turned n 1 s d t e) (h' : Turned n k t e u f) :
    Turned n (k + 1) s d u f := by
  have iterate (j : Nat) : (nextPos t.cfg)^[j] e.pos = (nextPos s.cfg)^[j + 1] d.pos := by rw [h.cfg, h.pos]; rfl
  refine ⟨h'.cfg.trans h.cfg, h'.drive, by rw [h'.pos, iterate], fun track p hp => ?_⟩
  calc f.byteAt track p
      = e.byteAt track p := h'.kept track p fun j hj => iterate j ▸ hp (j + 1) (by omega)
    _ = d.byteAt track p := h.kept track p fun j hj => hp j (by omega)

theorem turned_nread {n : Nat} {s : State} {d : Drive} (hd : s.drives[n]? = some d) (r : Response) :
    Turned n 1 s d ((s.setDrive n (d.advance s.cfg)).reply r) (d.advance s.cfg) :=
  ⟨rfl, State.setDrive_getElem?_self hd _, rfl, fun _ _ _ => rfl⟩

theorem turned_nwrite {n : Nat} {s : State} {d : Drive} (hd : s.drives[n]? = some d) (track : Nat) (v : Byte) (r : Response) :
    Turned n 1 s d ((s.setDrive n ((d.withByte track d.pos v).advance s.cfg)).reply r)
      ((d.withByte track d.pos v).advance s.cfg) := by
  refine ⟨rfl, State.setDrive_getElem?_self hd _, rfl, fun track' p hp => ?_⟩
  have hne : d.pos ≠ p := hp 0 Nat.one_pos
  exact Drive.byteAt_withByte_other fun e => hne (Prod.mk.inj e).2.symm

/-- An in-range read or write completes and turns the cursor by one (R166, R167). -/
theorem exec_access {i : Instr} {n : Nat} {s : State} {d : Drive} (hi : InRangeAccess s.cfg n i)
    (hd : s.drives[n]? = some d) : ∃ t e, exec i s = .next t ∧ Turned n 1 s d t e := by
  obtain ⟨q, v, hq, rfl | rfl⟩ := hi
  · exact ⟨_, _, exec_nread hd (quarterTrackOut_false hq) v, turned_nread hd _⟩
  · exact ⟨_, _, exec_nwrite hd (quarterTrackOut_false hq) v, turned_nwrite hd _ v _⟩

theorem execAll_accesses {ops : List Instr} {n : Nat} {s : State} {d : Drive} (hops : ∀ i ∈ ops, InRangeAccess s.cfg n i)
    (hd : s.drives[n]? = some d) : ∃ t e, execAll ops s = .next t ∧ Turned n ops.length s d t e := by
  induction ops generalizing s d with
  | nil => exact ⟨s, d, rfl, rfl, hd, rfl, fun _ _ _ => rfl⟩
  | cons i rest ih =>
    obtain ⟨hi, hrest⟩ := List.forall_mem_cons.1 hops
    obtain ⟨t, e, hx, ht⟩ := exec_access hi hd
    obtain ⟨u, f, hrun, hu⟩ := ih (ht.cfg.symm ▸ hrest) ht.drive
    exact ⟨u, f, by rw [execAll, hx]; exact hrun, ht.succ hu⟩

/-- Within one revolution the cursor comes back after 0 and after `L` operations, and at no other count. -/
theorem iterate_nextPos_eq_self_iff {p : Params} {pos k : Nat} (hp : pos < p.trackLen) (hk : k ≤ p.trackLen) :
    (nextPos p)^[k] pos = pos ↔ k = 0 ∨ k = p.trackLen := by
  rw [iterate_nextPos p pos k hp]
  by_cases hlt : pos + k < p.trackLen
  · rw [Nat.mod_eq_of_lt hlt]
    omega
  · rw [Nat.mod_eq_sub_mod (by omega), Nat.mod_eq_of_lt (by omega)]
    omega

theorem nextPos_eq_zero {p : Params} {pos : Nat} (h : pos + 1 = p.trackLen ∨ p.trackLen = 1) : nextPos p pos = 0 := by
  rcases h with h | h
  · rw [nextPos, h, Nat.mod_self]
  · rw [nextPos, h, Nat.mod_one]

/-- A read or write that goes on has turned the cursor by one. -/
theorem turned_of_exec_next {n q : Nat} {v : Byte} {s t : State} {d : Drive} (hd : s.drives[n]? = some d)
    (hx : exec (.nread n q v) s = .next t ∨ exec (.nwrite n q v) s = .next t) : ∃ e, Turned n 1 s d t e := by
  rcases hx with hx | hx
  · obtain ⟨d', hd', -, rfl⟩ := execNread_next (pad := v) hx
    cases hd.symm.trans hd'
    exact ⟨_, turned_nread hd _⟩
  · obtain ⟨d', hd', -, rfl⟩ := execNwrite_next hx
    cases hd.symm.trans hd'
    exact ⟨_, turned_nwrite hd _ v _⟩

/-- After one read or write at `d.pos` and `L - 1` more of them, the cursor is back, and the byte there is as the first one
left it: the others have not passed it. -/
theorem Turned.revolution {n k : Nat} {s t u : State} {d e f : Drive} (h : Turned n 1 s d t e) (h' : Turned n k t e u f)
    (hp : d.pos < s.cfg.trackLen) (hk : k + 1 = s.cfg.trackLen) :
    f.pos = d.pos ∧ ∀ track, f.byteAt track d.pos = e.byteAt track d.pos := by
  refine ⟨(h.succ h').pos.trans ((iterate_nextPos_eq_self_iff hp (by omega)).2 (.inr hk)), fun track => ?_⟩
  refine h'.kept track d.pos fun j hj hback => ?_
  rw [h.cfg, h.pos, ← Function.iterate_add_apply, iterate_nextPos_eq_self_iff hp (by omega)] at hback
  omega

/-- Settles O47: a run of `k` reads and writes turns the cursor by `k`, and modulo `L` only 0 and `L` bring it back; the `L - 1`
reads after the first one do not pass its byte (`Turned.revolution`). -/
theorem cursorWrapsAfterOneRevolution : Obligations.CursorWrapsAfterOneRevolution := by
  refine ⟨?_, ?_, ?_, ?_⟩
  · intro n ops s d hd hp hlen hops
    obtain ⟨t, e, hrun, ht⟩ := execAll_accesses hops hd
    exact ⟨t, e, hrun, ht.drive, by rw [ht.pos, iterate_nextPos_eq_self_iff hp hlen]⟩
  · intro n q pad pad' qs s d hd hp hq hlen hqs
    have hq := quarterTrackOut_false hq
    have first := turned_nread hd (.byte (d.byteAt (trackOf q) d.pos))
    obtain ⟨u, f, hrun, rest⟩ := execAll_accesses (first.cfg.symm ▸ inRangeAccess_nreads n hqs) first.drive
    obtain ⟨hpos, hbyte⟩ := first.revolution rest hp (by simpa using hlen)
    have hcfg : u.cfg = s.cfg := rest.cfg.trans first.cfg
    refine ⟨_, u, _, exec_nread hd hq pad, hrun, exec_nread rest.drive (hcfg ▸ hq) pad', ?_⟩
    exact congrArg Response.byte (hpos.symm ▸ hbyte (trackOf q))
  · intro n q v s t d hd hlast hx
    obtain ⟨e, ht⟩ := turned_of_exec_next hd hx
    exact ⟨e, ht.drive, ht.pos.trans (nextPos_eq_zero hlast)⟩
  · intro n q pad s d hd _ hp hq
    exact ⟨_, exec_nread hd (quarterTrackOut_false hq) pad, by rw [hp]; rfl⟩

end Sys2Proof.Machine
end

section
/-! PROOFS. `60_exceptions.md` R204: WRITE on a read-only store. -/

namespace Sys2Proof.Machine

/-- WRITE is what the dispatch on command byte `0x02` runs (R135): `WriteBlock` (R153), whatever the unit. -/
theorem exec_write (unit : Byte) (addr blk : Word) (s : State) : exec (.write unit addr blk) s = s.writeBlock blk addr := by
  rw [exec_command (c := ⟨0x02, unit, addr, blk⟩) rfl, dispatch_write rfl]

/-- Settles O29: `WriteBlock` tests the flag first and then only finishes, so neither the gathering nor the store is reached. -/
theorem writeToReadOnlyStoreIsProtected : Obligations.WriteToReadOnlyStoreIsProtected := by
  intro unit addr blk s hro
  rw [exec_write, State.writeBlock_protected hro, State.finish, writeProtected]

end Sys2Proof.Machine
end

section
/-! PROOFS. `30_encoding.md` sections 1, 3 and 5: decoding inverts encoding, port by port, and encoding inverts decoding. -/

namespace Sys2Proof

/-! ### Port P1: the sixteen offsets in either direction -/

theorem encode_decodeRead (slot : BitVec 3) (o : BitVec 4) : encode (decodeRead slot o) = encodeRead slot o := by
  obtain ⟨o, ho⟩ := o
  interval_cases o <;> rfl

theorem encode_decodeWrite (slot : BitVec 3) (o : BitVec 4) (v : Byte) :
    encode (decodeWrite slot o v) = encodeWrite slot o v := by
  obtain ⟨o, ho⟩ := o
  interval_cases o <;> rfl

/-- An I/O access is what one of the two tables has at its slot and some offset (R81). -/
theorem ioAccess_cases {i : Instr} {slot : BitVec 3} (h : Machine.ioSlot i = some slot) :
    (∃ o, i = decodeRead slot o) ∨ ∃ o v, i = decodeWrite slot o v := by
  cases i <;> cases h
  case rd0CmdDirect => exact .inl ⟨0, rfl⟩
  case rd1CapLo => exact .inl ⟨1, rfl⟩
  case rd2CapHi => exact .inl ⟨2, rfl⟩
  case rd3CmdIndirect => exact .inl ⟨3, rfl⟩
  case rd4Unmapped => exact .inl ⟨4, rfl⟩
  case rd5Unmapped => exact .inl ⟨5, rfl⟩
  case rd6Unmapped => exact .inl ⟨6, rfl⟩
  case rd7Unmapped => exact .inl ⟨7, rfl⟩
  case rd8Unmapped => exact .inl ⟨8, rfl⟩
  case rd9Unmapped => exact .inl ⟨9, rfl⟩
  case rd10Unmapped => exact .inl ⟨10, rfl⟩
  case rd11Unmapped => exact .inl ⟨11, rfl⟩
  case rd12Unmapped => exact .inl ⟨12, rfl⟩
  case rd13Unmapped => exact .inl ⟨13, rfl⟩
  case rd14Unmapped => exact .inl ⟨14, rfl⟩
  case rd15Unmapped => exact .inl ⟨15, rfl⟩
  case wr0Ignored v => exact .inr ⟨0, v, rfl⟩
  case wr1Ignored v => exact .inr ⟨1, v, rfl⟩
  case wr2Ignored v => exact .inr ⟨2, v, rfl⟩
  case wr3Ignored v => exact .inr ⟨3, v, rfl⟩
  case wr4MliLo v => exact .inr ⟨4, v, rfl⟩
  case wr5MliHi v => exact .inr ⟨5, v, rfl⟩
  case wr6Ignored v => exact .inr ⟨6, v, rfl⟩
  case wr7Ignored v => exact .inr ⟨7, v, rfl⟩
  case wr8Ignored v => exact .inr ⟨8, v, rfl⟩
  case wr9Ignored v => exact .inr ⟨9, v, rfl⟩
  case wr10Ignored v => exact .inr ⟨10, v, rfl⟩
  case wr11Ignored v => exact .inr ⟨11, v, rfl⟩
  case wr12Ignored v => exact .inr ⟨12, v, rfl⟩
  case wr13Ignored v => exact .inr ⟨13, v, rfl⟩
  case wr14Ignored v => exact .inr ⟨14, v, rfl⟩
  case wr15Ignored v => exact .inr ⟨15, v, rfl⟩

theorem decode_encode_ioAccess {i : Instr} {slot : BitVec 3} (h : Machine.ioSlot i = some slot) :
    decode (encode i) = .ok i := by
  rcases ioAccess_cases h with ⟨o, rfl⟩ | ⟨o, v, rfl⟩
  · rw [encode_decodeRead, encodeRead, decode_ioRead]
  · rw [encode_decodeWrite, encodeWrite, decode_ioWrite]

/-- The packets that format `IO` has: a read with no data, or a write with its byte, of an address in an I/O page. -/
theorem decodeIo_ok {word : BitVec 17} {data : Option Byte} {i : Instr} (h : decodeIo word data = .ok i) :
    word.extractLsb' 7 9 = ioPageBits ∧
      (word.extractLsb' 16 1 = 0 ∧ data = none ∧ i = decodeRead (word.extractLsb' 4 3) (word.extractLsb' 0 4) ∨
        ∃ v, word.extractLsb' 16 1 = 1 ∧ data = some v ∧
          i = decodeWrite (word.extractLsb' 4 3) (word.extractLsb' 0 4) v) := by
  rcases BitVec.eq_zero_or_eq_one (word.extractLsb' 16 1) with hw | hw <;> cases data <;> simp only [decodeIo, hw] at h
  case inl.none =>
    by_cases hpage : word.extractLsb' 7 9 = ioPageBits
    · cases (if_pos hpage).symm.trans h
      exact ⟨hpage, .inl ⟨hw, rfl, rfl⟩⟩
    · cases (if_neg hpage).symm.trans h
  case inl.some => cases h
  case inr.none => cases h
  case inr.some v =>
    by_cases hpage : word.extractLsb' 7 9 = ioPageBits
    · cases (if_pos hpage).symm.trans h
      exact ⟨hpage, .inr ⟨v, hw, rfl, rfl⟩⟩
    · cases (if_neg hpage).symm.trans h

theorem encode_of_decodeIo {word : BitVec 17} {data : Option Byte} {i : Instr} (h : decodeIo word data = .ok i) :
    encode i = .port (.io word data) := by
  obtain ⟨hpage, ⟨hw, rfl, rfl⟩ | ⟨v, hw, rfl, rfl⟩⟩ := decodeIo_ok h
  · rw [encode_decodeRead, encodeRead, ← hw, ioWord_of_fields hpage]
  · rw [encode_decodeWrite, encodeWrite, ← hw, ioWord_of_fields hpage]

/-! ### The call block: one row per leading bit of the command byte (R87, R94, R95) -/

theorem decodeCommand_read {c : CallBlock} (h : c.cmd = 0x01) : decodeCommand c = .read c.unit c.addr c.blk := by
  rw [decodeCommand, if_neg (by rw [h]; decide), if_pos h]

theorem decodeCommand_write {c : CallBlock} (h : c.cmd = 0x02) : decodeCommand c = .write c.unit c.addr c.blk := by
  rw [decodeCommand, if_neg (by rw [h]; decide), if_neg (by rw [h]; decide), if_pos h]

theorem decodeCommand_format {c : CallBlock} (h : c.cmd = 0x03) : decodeCommand c = .format c.unit c.addr c.blk := by
  rw [decodeCommand, if_neg (by rw [h]; decide), if_neg (by rw [h]; decide), if_neg (by rw [h]; decide), if_pos h]

/-- The fixed high bits of the row from `2^k` on. -/
theorem command_row_iff {cmd : Byte} {k l : Nat} (hkl : k + l = 8) (hl : 0 < l) :
    cmd.extractLsb' k l = 1 ↔ 2 ^ k ≤ cmd.toNat ∧ cmd.toNat < 2 ^ (k + 1) := by
  have := cmd.isLt
  obtain rfl : l = 8 - k := by omega
  have hk : k < 8 := by omega
  rw [← BitVec.toNat_inj, BitVec.extractLsb'_toNat, Nat.shiftRight_eq_div_pow]
  interval_cases k <;> simp <;> omega

/-- A byte of the row from `2^k` on is in no row below, and no single command of R87. -/
theorem command_row_excludes {cmd : Byte} {k l : Nat} (hkl : k + l = 8) (hl : 0 < l) (hk : 2 ≤ k)
    (h : cmd.extractLsb' k l = 1) :
    (∀ b : Byte, b.toNat < 4 → cmd ≠ b) ∧ ∀ j m, j + m = 8 → j < k → cmd.extractLsb' j m ≠ 1 := by
  obtain ⟨hlo, hhi⟩ := (command_row_iff hkl hl).1 h
  refine ⟨?_, fun j m hjm hj hrow => ?_⟩
  · rintro b hb rfl
    have : 2 ^ 2 ≤ 2 ^ k := Nat.pow_le_pow_right (by omega) hk
    omega
  · have : 2 ^ (j + 1) ≤ 2 ^ k := Nat.pow_le_pow_right (by omega) hj
    have := ((command_row_iff hjm (by omega)).1 hrow).2
    omega

theorem decodeCommand_row04 {c : CallBlock} (h : c.cmd.extractLsb' 2 6 = 1) :
    decodeCommand c = .unsupported04To07 (c.cmd.extractLsb' 0 2) c.unit c.addr c.blk := by
  obtain ⟨hne, -⟩ := command_row_excludes rfl (by decide) (by decide) h
  rw [decodeCommand, if_neg (hne _ (by decide)), if_neg (hne _ (by decide)), if_neg (hne _ (by decide)),
    if_neg (hne _ (by decide)), if_pos h]

theorem decodeCommand_row08 {c : CallBlock} (h : c.cmd.extractLsb' 3 5 = 1) :
    decodeCommand c = .unsupported08To0F (c.cmd.extractLsb' 0 3) c.unit c.addr c.blk := by
  obtain ⟨hne, hrow⟩ := command_row_excludes rfl (by decide) (by decide) h
  rw [decodeCommand, if_neg (hne _ (by decide)), if_neg (hne _ (by decide)), if_neg (hne _ (by decide)),
    if_neg (hne _ (by decide)), if_neg (hrow 2 6 rfl (by decide)), if_pos h]

theorem decodeCommand_row10 {c : CallBlock} (h : c.cmd.extractLsb' 4 4 = 1) :
    decodeCommand c = .unsupported10To1F (c.cmd.extractLsb' 0 4) c.unit c.addr c.blk := by
  obtain ⟨hne, hrow⟩ := command_row_excludes rfl (by decide) (by decide) h
  rw [decodeCommand, if_neg (hne _ (by decide)), if_neg (hne _ (by decide)), if_neg (hne _ (by decide)),
    if_neg (hne _ (by decide)), if_neg (hrow 2 6 rfl (by decide)), if_neg (hrow 3 5 rfl (by decide)), if_pos h]

theorem decodeCommand_row20 {c : CallBlock} (h : c.cmd.extractLsb' 5 3 = 1) :
    decodeCommand c = .unsupported20To3F (c.cmd.extractLsb' 0 5) c.unit c.addr c.blk := by
  obtain ⟨hne, hrow⟩ := command_row_excludes rfl (by decide) (by decide) h
  rw [decodeCommand, if_neg (hne _ (by decide)), if_neg (hne _ (by decide)), if_neg (hne _ (by decide)),
    if_neg (hne _ (by decide)), if_neg (hrow 2 6 rfl (by decide)), if_neg (hrow 3 5 rfl (by decide)),
    if_neg (hrow 4 4 rfl (by decide)), if_pos h]

theorem decodeCommand_row40 {c : CallBlock} (h : c.cmd.extractLsb' 6 2 = 1) :
    decodeCommand c = .unsupported40To7F (c.cmd.extractLsb' 0 6) c.unit c.addr c.blk := by
  obtain ⟨hne, hrow⟩ := command_row_excludes rfl (by decide) (by decide) h
  rw [decodeCommand, if_neg (hne _ (by decide)), if_neg (hne _ (by decide)), if_neg (hne _ (by decide)),
    if_neg (hne _ (by decide)), if_neg (hrow 2 6 rfl (by decide)), if_neg (hrow 3 5 rfl (by decide)),
    if_neg (hrow 4 4 rfl (by decide)), if_neg (hrow 5 3 rfl (by decide)), if_pos h]

theorem decodeCommand_row80 {c : CallBlock} (h : c.cmd.extractLsb' 7 1 = 1) :
    decodeCommand c = .unsupported80ToFF (c.cmd.extractLsb' 0 7) c.unit c.addr c.blk := by
  obtain ⟨hne, hrow⟩ := command_row_excludes rfl (by decide) (by decide) h
  rw [decodeCommand, if_neg (hne _ (by decide)), if_neg (hne _ (by decide)), if_neg (hne _ (by decide)),
    if_neg (hne _ (by decide)), if_neg (hrow 2 6 rfl (by decide)), if_neg (hrow 3 5 rfl (by decide)),
    if_neg (hrow 4 4 rfl (by decide)), if_neg (hrow 5 3 rfl (by decide)), if_neg (hrow 6 2 rfl (by decide))]

theorem decode_encode_command {i : Instr} {c : CallBlock} (h : encode i = .cmd c) : decode (encode i) = .ok i := by
  rw [h, decode]
  cases i <;> simp only [encode, encodeRead, encodeWrite, encodeNib, Packet.cmd.injEq, reduceCtorEq] at h <;> subst h
  case status | read | write | format => rfl
  case unsupported04To07 x _ _ _ =>
    rw [decodeCommand_row04 (c := ⟨(1 : BitVec 6) ++ x, _, _, _⟩) (extract_high_append _ x), extract_low_append]
  case unsupported08To0F x _ _ _ =>
    rw [decodeCommand_row08 (c := ⟨(1 : BitVec 5) ++ x, _, _, _⟩) (extract_high_append _ x), extract_low_append]
  case unsupported10To1F x _ _ _ =>
    rw [decodeCommand_row10 (c := ⟨(1 : BitVec 4) ++ x, _, _, _⟩) (extract_high_append _ x), extract_low_append]
  case unsupported20To3F x _ _ _ =>
    rw [decodeCommand_row20 (c := ⟨(1 : BitVec 3) ++ x, _, _, _⟩) (extract_high_append _ x), extract_low_append]
  case unsupported40To7F x _ _ _ =>
    rw [decodeCommand_row40 (c := ⟨(1 : BitVec 2) ++ x, _, _, _⟩) (extract_high_append _ x), extract_low_append]
  case unsupported80ToFF x _ _ _ =>
    rw [decodeCommand_row80 (c := ⟨(1 : BitVec 1) ++ x, _, _, _⟩) (extract_high_append _ x), extract_low_append]

/-- A value is its high bits above its low bits. -/
theorem append_extract_low {n m : Nat} {a : BitVec n} {b : BitVec (n + m)} (h : b.extractLsb' m n = a) :
    a ++ b.extractLsb' 0 m = b := by
  rw [← h, BitVec.extractLsb'_append_extractLsb'_eq_extractLsb' (by omega), BitVec.extractLsb'_eq_self]

theorem four_le_of_ne {w : Nat} {b : BitVec w} (h0 : b ≠ 0) (h1 : b ≠ 1) (h2 : b ≠ 2) (h3 : b ≠ 3) : 4 ≤ b.toNat := by
  have toNat_ne (k : Nat) (h : b ≠ BitVec.ofNat w k) : b.toNat ≠ k := by
    rintro rfl
    simp at h
  have := toNat_ne 0 h0
  have := toNat_ne 1 h1
  have := toNat_ne 2 h2
  have := toNat_ne 3 h3
  omega

/-- The last row takes every byte that the rows before it leave. -/
theorem command_row_last {cmd : Byte} (h : 4 ≤ cmd.toNat) (h2 : cmd.extractLsb' 2 6 ≠ 1) (h3 : cmd.extractLsb' 3 5 ≠ 1)
    (h4 : cmd.extractLsb' 4 4 ≠ 1) (h5 : cmd.extractLsb' 5 3 ≠ 1) (h6 : cmd.extractLsb' 6 2 ≠ 1) :
    cmd.extractLsb' 7 1 = 1 := by
  have := cmd.isLt
  rw [ne_eq, command_row_iff rfl (by decide)] at h2 h3 h4 h5 h6
  rw [command_row_iff rfl (by decide)]
  omega

theorem encode_decodeCommand (c : CallBlock) : encode (decodeCommand c) = .cmd c := by
  by_cases h0 : c.cmd = 0x00
  · rw [decodeCommand_status h0, encode, ← h0]
  by_cases h1 : c.cmd = 0x01
  · rw [decodeCommand_read h1, encode, ← h1]
  by_cases h2 : c.cmd = 0x02
  · rw [decodeCommand_write h2, encode, ← h2]
  by_cases h3 : c.cmd = 0x03
  · rw [decodeCommand_format h3, encode, ← h3]
  by_cases r2 : c.cmd.extractLsb' 2 6 = 1
  · rw [decodeCommand_row04 r2, encode, append_extract_low r2]
  by_cases r3 : c.cmd.extractLsb' 3 5 = 1
  · rw [decodeCommand_row08 r3, encode, append_extract_low r3]
  by_cases r4 : c.cmd.extractLsb' 4 4 = 1
  · rw [decodeCommand_row10 r4, encode, append_extract_low r4]
  by_cases r5 : c.cmd.extractLsb' 5 3 = 1
  · rw [decodeCommand_row20 r5, encode, append_extract_low r5]
  by_cases r6 : c.cmd.extractLsb' 6 2 = 1
  · rw [decodeCommand_row40 r6, encode, append_extract_low r6]
  have r7 := command_row_last (four_le_of_ne h0 h1 h2 h3) r2 r3 r4 r5 r6
  rw [decodeCommand_row80 r7, encode, append_extract_low r7]

/-! ### Port P4 -/

theorem encode_decodeNib (drive : Nat) (word : BitVec 18) (qHigh : Nat) :
    encode (decodeNib drive word qHigh) = .port (.nib drive word qHigh) := by
  rw [← encodeNib_of_fields, decodeNib]
  generalize word.extractLsb' 16 2 = pp
  obtain ⟨pp, hpp⟩ := pp
  interval_cases pp <;> rfl

/-! Where a `NIB` word leads, by its two operation bits (R101). -/

theorem decode_nread (drive high : Nat) (low pad : Byte) :
    decode (.port (.nib drive (nibWord 0 low pad) high)) = .ok (.nread drive (high * 256 + low.toNat) pad) := by
  obtain ⟨hpp, hq, hd⟩ := nibWord_fields 0 low pad
  rw [decode, decodeNib, nibQuarterTrack, hpp, hq, hd]
  rfl

theorem decode_nwrite (drive high : Nat) (low v : Byte) :
    decode (.port (.nib drive (nibWord 1 low v) high)) = .ok (.nwrite drive (high * 256 + low.toNat) v) := by
  obtain ⟨hpp, hq, hd⟩ := nibWord_fields 1 low v
  rw [decode, decodeNib, nibQuarterTrack, hpp, hq, hd]
  rfl

theorem decode_pwron (drive high : Nat) (low pad : Byte) :
    decode (.port (.nib drive (nibWord 2 low pad) high)) = .ok (.pwron drive (high * 256 + low.toNat) pad) := by
  obtain ⟨hpp, hq, hd⟩ := nibWord_fields 2 low pad
  rw [decode, decodeNib, nibQuarterTrack, hpp, hq, hd]
  rfl

theorem decode_pwroff (drive high : Nat) (low pad : Byte) :
    decode (.port (.nib drive (nibWord 3 low pad) high)) = .ok (.pwroff drive (high * 256 + low.toNat) pad) := by
  obtain ⟨hpp, hq, hd⟩ := nibWord_fields 3 low pad
  rw [decode, decodeNib, nibQuarterTrack, hpp, hq, hd]
  rfl

/-- The quarter-track is its high part above the 8 bits of the word, and the encoding splits it so. -/
theorem quarterTrack_split (q : Nat) : q / 256 * 256 + (BitVec.ofNat 8 q).toNat = q := by
  rw [BitVec.toNat_ofNat]
  omega

theorem decode_encode_nib {i : Instr} {n : Nat} (h : Machine.nibDrive i = some n) : decode (encode i) = .ok i := by
  cases i <;> cases h
  case nread => rw [encode, encodeNib, decode_nread, quarterTrack_split]
  case nwrite => rw [encode, encodeNib, decode_nwrite, quarterTrack_split]
  case pwron => rw [encode, encodeNib, decode_pwron, quarterTrack_split]
  case pwroff => rw [encode, encodeNib, decode_pwroff, quarterTrack_split]

/-! ### Port P5 -/

theorem encode_of_decodeHost {word : BitVec 2} {snapshot : Option Word} {i : Instr} (h : decodeHost word snapshot = .ok i) :
    encode i = .port (.host word snapshot) := by
  obtain ⟨word, hw⟩ := word
  interval_cases word <;> cases snapshot <;> cases h <;> rfl

/-! ### All of them -/

/-- Settles O1, port by port. -/
theorem decodeOfEncodeIsTheOperation : Obligations.DecodeOfEncodeIsTheOperation := by
  intro i
  rcases Machine.instr_cases i with ⟨slot, hs⟩ | ⟨c, hc⟩ | ⟨n, hn⟩ | rfl | rfl | ⟨m, rfl⟩
  · exact decode_encode_ioAccess hs
  · exact decode_encode_command hc
  · exact decode_encode_nib hn
  all_goals rfl

/-- Settles O2, port by port: a packet is rebuilt from the fields that the decoder read. -/
theorem encodeOfDecodeIsTheWords : Obligations.EncodeOfDecodeIsTheWords := by
  intro p i h
  match p with
  | .port (.io word data) => exact encode_of_decodeIo h
  | .port (.nib drive word qHigh) => cases h; exact encode_decodeNib drive word qHigh
  | .port (.host word snapshot) => exact encode_of_decodeHost h
  | .cmd c => cases h; exact encode_decodeCommand c

/-- Settles O3: closed words, each evaluated by the decoder. -/
theorem wordsOfTheVectorsDecode : Obligations.WordsOfTheVectorsDecode := by
  exact ⟨rfl, rfl, rfl, rfl, rfl, rfl, rfl, rfl, rfl, rfl, rfl, rfl, rfl, rfl, rfl, rfl⟩

/-! ### The address in the word -/

theorem toNat_ioWord : ∀ (w : BitVec 1) (slot : BitVec 3) (o : BitVec 4),
    (ioWord w slot o).toNat = w.toNat * 65536 + (0xC080 + slot.toNat * 0x10 + o.toNat) := by
  decide

theorem ownPage_iff (p : Params) (a : Word) :
    Machine.ownPage p a = true ↔ ∃ o : BitVec 4, a.toNat = 0xC080 + p.slot.toNat * 0x10 + o.toNat := by
  rw [Machine.ownPage, Machine.ioBase, decide_eq_true_eq]
  constructor
  · rintro ⟨hlo, hhi⟩
    refine ⟨BitVec.ofNat 4 (a.toNat - (0xC080 + p.slot.toNat * 0x10)), ?_⟩
    rw [BitVec.toNat_ofNat]
    omega
  · rintro ⟨o, ho⟩
    have := o.isLt
    omega

/-- Settles O4: the word's fields, and the page as the sixteen offsets above its base. -/
theorem ioWordCarriesTheAddress : Obligations.IoWordCarriesTheAddress := by
  exact ⟨toNat_ioWord, ownPage_iff⟩

end Sys2Proof
end

section
/-! PROOFS. The I/O page (`30_encoding.md` R81, `40_softswitch_access.md` R115 to R117): what the sixteen offsets of either direction
do at the card's own slot, and that every other access is the guest's own. -/

namespace Sys2Proof.Machine

/-! ### The offsets at the card's slot -/

/-- An absent read answers the open bus (R115). -/
theorem exec_decodeRead_absent {s : State} {slot : BitVec 3} {o : BitVec 4} (hs : slot = s.cfg.slot) (ho : 4 ≤ o.toNat) :
    exec (decodeRead slot o) s = .next s.openBusRead := by
  obtain ⟨o, hlt⟩ := o
  replace ho : 4 ≤ o := ho
  interval_cases o <;> exact State.onCardRead_own (f := fun s => .next s.openBusRead) hs

/-- An absent write is ignored (R116). -/
theorem exec_decodeWrite_absent {s : State} {slot : BitVec 3} {o : BitVec 4} (hs : slot = s.cfg.slot)
    (h4 : o ≠ 4) (h5 : o ≠ 5) (v : Byte) : exec (decodeWrite slot o v) s = .next (s.reply .silent) := by
  have ho : o.toNat < 4 ∨ 6 ≤ o.toNat := by bv_omega
  obtain ⟨o, hlt⟩ := o
  rcases ho with (ho : o < 4) | (ho : 6 ≤ o) <;> interval_cases o
  all_goals exact State.onCardWrite_own (f := fun s => .next (s.reply .silent)) hs

/-- Settles O18: each is an offset from 4 on. -/
theorem unmappedReadsReturnADraw : Obligations.UnmappedReadsReturnADraw := by
  intro s
  have absent (o : BitVec 4) (ho : 4 ≤ o.toNat) := exec_decodeRead_absent (s := s) (o := o) rfl ho
  simp only [List.forall_mem_cons]
  exact ⟨absent 4 (by decide), absent 5 (by decide), absent 6 (by decide), absent 7 (by decide), absent 8 (by decide),
    absent 9 (by decide), absent 10 (by decide), absent 11 (by decide), absent 12 (by decide), absent 13 (by decide),
    absent 14 (by decide), absent 15 (by decide), by simp⟩

/-- Settles O19: each is an offset other than 4 and 5. -/
theorem ignoredWritesChangeNothing : Obligations.IgnoredWritesChangeNothing := by
  intro s v
  have absent (o : BitVec 4) (h4 : o ≠ 4) (h5 : o ≠ 5) := exec_decodeWrite_absent (s := s) rfl h4 h5 v
  simp only [List.forall_mem_cons]
  exact ⟨absent 0 (by decide) (by decide), absent 1 (by decide) (by decide), absent 2 (by decide) (by decide),
    absent 3 (by decide) (by decide), absent 6 (by decide) (by decide), absent 7 (by decide) (by decide),
    absent 8 (by decide) (by decide), absent 9 (by decide) (by decide), absent 10 (by decide) (by decide),
    absent 11 (by decide) (by decide), absent 12 (by decide) (by decide), absent 13 (by decide) (by decide),
    absent 14 (by decide) (by decide), absent 15 (by decide) (by decide), by simp⟩

/-! ### Accesses that are not the card's -/

/-- Every read of the table is guarded by its slot, and so is every write. -/
theorem exec_decodeRead (slot : BitVec 3) (o : BitVec 4) : ∃ f, ∀ s, exec (decodeRead slot o) s = s.onCardRead slot o f := by
  obtain ⟨o, hlt⟩ := o
  interval_cases o <;> exact ⟨_, fun _ => rfl⟩

theorem exec_decodeWrite (slot : BitVec 3) (o : BitVec 4) (v : Byte) :
    ∃ f, ∀ s, exec (decodeWrite slot o v) s = s.onCardWrite slot o v f := by
  obtain ⟨o, hlt⟩ := o
  interval_cases o <;> exact ⟨_, fun _ => rfl⟩

theorem exec_decodeRead_other {s : State} {slot : BitVec 3} (hs : slot ≠ s.cfg.slot) (o : BitVec 4) :
    exec (decodeRead slot o) s = .next (s.guestRead (ioAddress slot o)) := by
  obtain ⟨f, hf⟩ := exec_decodeRead slot o
  rw [hf, State.onCardRead_other hs]

theorem exec_decodeWrite_other {s : State} {slot : BitVec 3} (hs : slot ≠ s.cfg.slot) (o : BitVec 4) (v : Byte) :
    exec (decodeWrite slot o v) s = .next (s.guestWrite (ioAddress slot o) v) := by
  obtain ⟨f, hf⟩ := exec_decodeWrite slot o v
  rw [hf, State.onCardWrite_other hs]

theorem ioWord_address : ∀ (w : BitVec 1) (slot : BitVec 3) (o : BitVec 4),
    (ioWord w slot o).extractLsb' 0 16 = ioAddress slot o := by
  decide

/-- The address of an `IO` word in an I/O page, by its slot and offset (R80). -/
theorem ioAddress_of_fields {word : BitVec 17} (h : word.extractLsb' 7 9 = ioPageBits) :
    ioAddress (word.extractLsb' 4 3) (word.extractLsb' 0 4) = word.extractLsb' 0 16 := by
  rw [← ioWord_address (word.extractLsb' 16 1), ioWord_of_fields h]

/-- The word addresses no handler of the card: its page or its slot is another (R81). -/
def NotTheCards (s : State) (word : BitVec 17) : Prop :=
  word.extractLsb' 7 9 ≠ ioPageBits ∨ word.extractLsb' 4 3 ≠ s.cfg.slot

/-- A step from `IDLE` whose next transaction encodes no operation. -/
theorem step_undecoded {s : State} {x : Txn} {rest : List Txn} {e : DecodeError} (hl : s.latched = none)
    (hi : s.input = x :: rest) (hd : decode (.port x) = .error e) : step s = (s.accept rest).undecoded e := by
  simp [step, hl, hi, runPacket, hd]

/-- Such a read goes to guest memory, at the word's own address. -/
theorem step_guestRead {s : State} {word : BitVec 17} {rest : List Txn} (hl : s.latched = none)
    (hi : s.input = .io word none :: rest) (hw : word.extractLsb' 16 1 = 0) (hf : NotTheCards s word) :
    step s = .next ((s.accept rest).guestRead (word.extractLsb' 0 16)) := by
  by_cases hpage : word.extractLsb' 7 9 = ioPageBits
  · have hslot : word.extractLsb' 4 3 ≠ s.cfg.slot := hf.resolve_left (not_not_intro hpage)
    have hd : decode (.port (.io word none)) = .ok (decodeRead (word.extractLsb' 4 3) (word.extractLsb' 0 4)) := by
      simp [decode, decodeIo, hw, hpage]
    rw [step_port hl hi hd, exec_decodeRead_other (s := s.accept rest) hslot, ioAddress_of_fields hpage]
  · have hd : decode (.port (.io word none)) = .error (.notIoPage (word.extractLsb' 0 16) none) := by
      simp [decode, decodeIo, hw, hpage]
    exact step_undecoded hl hi hd

/-- Such a write goes to guest memory, at the word's own address. -/
theorem step_guestWrite {s : State} {word : BitVec 17} {v : Byte} {rest : List Txn} (hl : s.latched = none)
    (hi : s.input = .io word (some v) :: rest) (hw : word.extractLsb' 16 1 = 1) (hf : NotTheCards s word) :
    step s = .next ((s.accept rest).guestWrite (word.extractLsb' 0 16) v) := by
  by_cases hpage : word.extractLsb' 7 9 = ioPageBits
  · have hslot : word.extractLsb' 4 3 ≠ s.cfg.slot := hf.resolve_left (not_not_intro hpage)
    have hd : decode (.port (.io word (some v))) = .ok (decodeWrite (word.extractLsb' 4 3) (word.extractLsb' 0 4) v) := by
      simp [decode, decodeIo, hw, hpage]
    rw [step_port hl hi hd, exec_decodeWrite_other (s := s.accept rest) hslot, ioAddress_of_fields hpage]
  · have hd : decode (.port (.io word (some v))) = .error (.notIoPage (word.extractLsb' 0 16) (some v)) := by
      simp [decode, decodeIo, hw, hpage]
    exact step_undecoded hl hi hd

/-- Settles O5: an access that is not the card's is `step_guestRead` or `step_guestWrite`, and at the card the two tables decide. -/
theorem handlersAreSelectedByDirectionAndOffset : Obligations.HandlersAreSelectedByDirectionAndOffset := by
  refine ⟨fun s word data rest hl hi hdata hf => ?_, fun slot v => ?_, fun s o h0 h1 h2 h3 => ?_, fun s o v h4 h5 => ?_⟩
  · cases data with
    | none =>
      have hw := (BitVec.eq_zero_or_eq_one (word.extractLsb' 16 1)).resolve_right fun h => by simp [h] at hdata
      exact ⟨_, step_guestRead hl hi hw hf, rfl⟩
    | some v => exact ⟨_, step_guestWrite hl hi (hdata.1 rfl) hf, rfl⟩
  · exact ⟨decode_ioRead slot 0, decode_ioRead slot 1, decode_ioRead slot 2, decode_ioRead slot 3, decode_ioWrite slot 4 v,
      decode_ioWrite slot 5 v⟩
  · refine ⟨_, decode_ioRead s.cfg.slot o, exec_decodeRead_absent rfl (four_le_of_ne h0 h1 h2 h3)⟩
  · exact ⟨_, decode_ioWrite s.cfg.slot o v, exec_decodeWrite_absent rfl h4 h5 v⟩

/-- Settles O20: such an access is the guest's own (`exec_otherSlot`). -/
theorem otherSlotsHaveNoEffect : Obligations.OtherSlotsHaveNoEffect := by
  intro i s slot h hs
  rcases exec_otherSlot h with ⟨o, e⟩ | ⟨o, v, e⟩ <;> exact ⟨_, e s hs, rfl⟩

/-- Settles O21: `step_guestRead` and `step_guestWrite`, with the laws of one write of guest memory. -/
theorem guestAccessesReachGuestMemory : Obligations.GuestAccessesReachGuestMemory := by
  intro s word rest hl hf
  refine ⟨fun hw hi => step_guestRead hl hi hw hf, fun v hw hi => ⟨_, step_guestWrite hl hi hw hf, rfl, ?_, ?_, ?_⟩⟩
  · exact State.memAfter_same (s := s)
  · exact State.memAfter_external (s := s)
  · exact fun b => State.memAfter_other (s := s)

end Sys2Proof.Machine
end

section
/-! PROOFS. A step (`20_memory.md` R67 and R69, `41_command_dispatch.md` R130), what the decoder refuses, and the host's operations
(`44_host_hooks.md` R189 to R191, `70_reset_and_hazards.md` R230 to R236). -/

namespace Sys2Proof

theorem decodeIo_readWithData (slot : BitVec 3) (o : BitVec 4) (v : Byte) :
    decode (.port (.io (ioWord 0 slot o) (some v))) = .error .readWithData := by
  rw [decode]
  unfold decodeIo
  rw [(ioWord_fields 0 slot o).1]
  rfl

theorem decodeIo_writeWithoutData (slot : BitVec 3) (o : BitVec 4) :
    decode (.port (.io (ioWord 1 slot o) none)) = .error .writeWithoutData := by
  rw [decode]
  unfold decodeIo
  rw [(ioWord_fields 1 slot o).1]
  rfl

namespace Machine

/-- Settles O6. -/
theorem stepRunsTheDecodedTransaction : Obligations.StepRunsTheDecodedTransaction := by
  intro s x rest i hl hi hd
  exact step_port hl hi hd

/-- Settles O7. -/
theorem stepRunsTheLatchedCommand : Obligations.StepRunsTheLatchedCommand := by
  intro s c i hl hd
  cases hd
  exact step_latched hl

/-- Settles O8. -/
theorem nothingHappensWithoutATransaction : Obligations.NothingHappensWithoutATransaction := by
  intro s hl hi
  exact step_empty hl hi

/-- Settles O10: the decoder names the error, and `State.undecoded` its refusal. -/
theorem unusedAndMalformedTransactionsAreRefused : Obligations.UnusedAndMalformedTransactionsAreRefused := by
  intro s rest hl
  refine ⟨fun snapshot hi => ?_, fun hi => step_undecoded hl hi rfl, fun m hi => step_undecoded hl hi rfl,
    fun m hi => step_undecoded hl hi rfl, fun slot o v hi => step_undecoded hl hi (decodeIo_readWithData slot o v),
    fun slot o hi => step_undecoded hl hi (decodeIo_writeWithoutData slot o)⟩
  exact step_undecoded hl hi (by cases snapshot <;> rfl)

/-! ### Newly constructed drives -/

theorem freshDrives_getElem? {p : Params} {n : Nat} (hn : n < p.ndrives) : (freshDrives p)[n]? = some (freshDrive p n) := by
  simp [freshDrives, hn]

theorem freshDrive_of_mem {p : Params} {d : Drive} (hd : d ∈ freshDrives p) : ∃ n, d = freshDrive p n := by
  obtain ⟨n, -, rfl⟩ := List.mem_map.1 hd
  exact ⟨n, rfl⟩

theorem freshDrive_byteAt {p : Params} {n k : Nat} (hk : k < p.ntracks) (pos : Nat) :
    (freshDrive p n).byteAt k pos = ((p.trkInit.getD n []).getD k []).read pos := by
  simp [Drive.byteAt, freshDrive, hk]

/-- A property of the default and of every entry holds of what `getD` gives. -/
theorem getD_property {α : Type} {P : α → Prop} {l : List α} {a : α} (ha : P a) (hl : ∀ x ∈ l, P x)
    (n : Nat) : P (l.getD n a) := by
  rw [List.getD_eq_getElem?_getD]
  cases h : l[n]? with
  | none => exact ha
  | some x => exact hl x (List.mem_of_getElem? h)

theorem driveOk_freshDrive {p : Params} (h : paramsOk p = true) (n : Nat) : driveOk p (freshDrive p n) = true := by
  obtain ⟨-, -, hlen, hinit⟩ := paramsOk_iff.1 h
  refine driveOk_iff.2 ⟨hlen, by simp [freshDrive], fun m hm => ?_⟩
  obtain ⟨t, -, rfl⟩ := List.mem_map.1 hm
  have tracks : ∀ m ∈ p.trkInit.getD n [], m.wf = true ∧ m.within p.trackLen = true :=
    getD_property (P := fun ts : List Memory => ∀ m ∈ ts, m.wf = true ∧ m.within p.trackLen = true) (by simp) hinit n
  exact getD_property (P := fun m : Memory => m.wf = true ∧ m.within p.trackLen = true) ⟨rfl, rfl⟩ tracks t

theorem driveOk_freshDrives {p : Params} (h : paramsOk p = true) : ∀ d ∈ freshDrives p, driveOk p d = true := by
  intro d hd
  obtain ⟨n, rfl⟩ := freshDrive_of_mem hd
  exact driveOk_freshDrive h n

/-- Settles O11. -/
theorem resetStateIsCleared : Obligations.ResetStateIsCleared := by
  refine ⟨rfl, rfl, rfl, fun d hd => ?_⟩
  obtain ⟨n, rfl⟩ := freshDrive_of_mem hd
  rfl

/-- Settles O12: the drives are `freshDrives`, and each of them is `freshDrive`. -/
theorem resetReconstructsTheBlock : Obligations.ResetReconstructsTheBlock := by
  intro s
  refine ⟨_, rfl, rfl, by simp [freshDrives], fun n hn => ?_⟩
  exact ⟨_, freshDrives_getElem? hn, rfl, by simp [freshDrive], fun k hk p => freshDrive_byteAt hk p⟩

/-- Settles O13. -/
theorem resetStateMeetsTheInvariant : Obligations.ResetStateMeetsTheInvariant := by
  have hcfg : paramsOk State.reset.cfg = true := by decide
  exact ⟨hcfg, rfl, driveOk_freshDrives hcfg, rfl, rfl, rfl, rfl, rfl⟩

/-! ### The host's operations and the constants -/

/-- Settles O51. -/
theorem saveReturnsAndLoadWritesMli : Obligations.SaveReturnsAndLoadWritesMli := by
  exact ⟨fun s => rfl, fun s m => rfl⟩

/-- Settles O52: the snapshot is `MLI` at the `SAVE`, and `LOAD` writes it. -/
theorem loadRestoresTheSnapshot : Obligations.LoadRestoresTheSnapshot := by
  intro s t u m between hsave hout _
  cases hsave
  cases hout
  exact ⟨_, rfl, rfl, rfl⟩

/-- Settles O53 (`exec_keeps`). -/
theorem onlyItsWritersChangeMli : Obligations.OnlyItsWritersChangeMli := by
  intro i s t hw hx
  exact (exec_keeps hx).2 hw

/-- Settles O57 (`step_sameSession`). -/
theorem parametersAndHeaderAreConstant : Obligations.ParametersAndHeaderAreConstant := by
  intro s t h
  obtain ⟨hcfg, hcount, hro, hanswers⟩ := step_sameSession h
  exact ⟨hcfg, hcount, hro, hanswers⟩

end Machine

end Sys2Proof
end

section
/-! PROOFS. The commands (`41_command_dispatch.md` R135 to R140), the result codes (`60_exceptions.md` R200, R210) and the two entries
that run them (`41_command_dispatch.md` R131, R133). -/

namespace Sys2Proof.Machine

/-! ### Commands that start no transfer -/

theorem command_ne_of_le {cmd : Byte} (h : 4 ≤ cmd.toNat) {b : Byte} (hb : b.toNat < 4) : cmd ≠ b := by
  rintro rfl
  omega

theorem dispatch_unsupported {c : CallBlock} (h : 4 ≤ c.cmd.toNat) (s : State) : dispatch c s = .next (s.finish ioError) :=
  dispatch_other (command_ne_of_le h (by decide)) (command_ne_of_le h (by decide)) (command_ne_of_le h (by decide)) s

/-- Settles O23. -/
theorem formatReturnsIoError : Obligations.FormatReturnsIoError := by
  refine ⟨fun unit addr blk => ?_, fun unit addr blk s => rfl⟩
  rw [decode, decodeCommand_format rfl]

/-- READ is what the dispatch on command byte `0x01` runs (R135): `ReadBlock` (R151), whatever the unit. -/
theorem exec_read (unit : Byte) (addr blk : Word) (s : State) : exec (.read unit addr blk) s = s.readBlock blk addr := by
  rw [exec_command (c := ⟨0x01, unit, addr, blk⟩) rfl, dispatch_read rfl]

/-- Settles O25: the four routes of `dispatch`, none of which reads the unit. -/
theorem dispatchRoutesOnTheCommandByte : Obligations.DispatchRoutesOnTheCommandByte := by
  intro c s
  refine ⟨?_, dispatch_eq_exec c s, fun unit => ?_⟩
  · split
    · next h0 => exact dispatch_status h0 s
    split
    · next h1 => rw [dispatch_read h1, exec_read]
    split
    · next h2 => rw [dispatch_write h2, exec_write]
    · exact dispatch_other ‹_› ‹_› ‹_› s
  · by_cases h0 : c.cmd = 0x00
    · rw [dispatch_status h0, dispatch_status (c := { c with unit }) h0]
    by_cases h1 : c.cmd = 0x01
    · rw [dispatch_read h1, dispatch_read (c := { c with unit }) h1]
    by_cases h2 : c.cmd = 0x02
    · rw [dispatch_write h2, dispatch_write (c := { c with unit }) h2]
    · rw [dispatch_other h0 h1 h2, dispatch_other (c := { c with unit }) h0 h1 h2]

/-! ### The entries at the card's slot -/

theorem exec_rd0_clear {s : State} (h : s.accessesClear (directAddresses s.cfg)) :
    exec (.rd0CmdDirect s.cfg.slot) s =
      dispatch s.directBlock ((s.afterReads (directAddresses s.cfg)).latch s.directBlock) :=
  execRd0_clear rfl h

theorem exec_rd3_clear {s : State} (h : s.accessesClear s.indirectAddresses) :
    exec (.rd3CmdIndirect s.cfg.slot) s =
      dispatch s.indirectBlock ((s.afterReads s.indirectAddresses).latch s.indirectBlock) :=
  execRd3_clear rfl h

/-- What a trigger read of the card that goes on has fetched and run. -/
theorem exec_rd0_next {s t : State} (h : exec (.rd0CmdDirect s.cfg.slot) s = .next t) :
    s.accessesClear (directAddresses s.cfg) ∧
      dispatch s.directBlock ((s.afterReads (directAddresses s.cfg)).latch s.directBlock) = .next t := by
  rcases execRd0_next h with ⟨hne, -⟩ | ⟨-, hx⟩
  · exact absurd rfl hne
  · exact hx

theorem exec_rd3_next {s t : State} (h : exec (.rd3CmdIndirect s.cfg.slot) s = .next t) :
    s.accessesClear s.indirectAddresses ∧
      dispatch s.indirectBlock ((s.afterReads s.indirectAddresses).latch s.indirectBlock) = .next t := by
  rcases execRd3_next h with ⟨hne, -⟩ | ⟨-, hx⟩
  · exact absurd rfl hne
  · exact hx

/-- Phase R empties the latch (R130), whatever was in it. -/
theorem State.finish_latch (s : State) (c : CallBlock) (code : Byte) :
    (s.latch c).finish code = { s with out := .byte code, latched := none } := rfl

/-- Settles O24: every byte from 4 on is no STATUS, READ or WRITE, and `dispatch_other` is all that is left of it. -/
theorem unsupportedCommandsReturnIoError : Obligations.UnsupportedCommandsReturnIoError := by
  refine ⟨fun c h => ⟨_, rfl, fun s => ?_⟩, fun unit addr blk s => ?_, fun s h hc => ?_, fun s h hc => ?_⟩
  · rw [← dispatch_eq_exec, dispatch_unsupported h]
    rfl
  · exact ⟨fun _ => rfl, fun _ => rfl, fun _ => rfl, fun _ => rfl, fun _ => rfl, fun _ => rfl⟩
  · rw [exec_rd0_clear hc, dispatch_unsupported h, State.finish_latch, ioError]
  · rw [exec_rd3_clear hc, dispatch_unsupported h, State.finish_latch, ioError]

/-- Settles O36: the fetches of the direct entry (`exec_rd0_clear`), with what the six reads leave written out. -/
theorem directEntryRunsTheFetchedCommand : Obligations.DirectEntryRunsTheFetchedCommand := by
  intro s h
  rw [exec_rd0_clear h, dispatch_eq_exec, State.afterReads_eq]
  rfl

theorem offsetBy_offsetBy (a : Word) (j k : Nat) : offsetBy (offsetBy a j) k = offsetBy a (j + k) := by
  rw [offsetBy, offsetBy, offsetBy, BitVec.add_assoc, BitVec.ofNat_add]

/-- Settles O37: the fetches of the indirect entry (`exec_rd3_clear`), with what the eight reads leave written out. -/
theorem indirectEntryRunsTheFetchedCommand : Obligations.IndirectEntryRunsTheFetchedCommand := by
  intro s h
  rw [exec_rd3_clear h, dispatch_eq_exec, State.afterReads_eq]
  simp only [State.indirectAddresses, State.indirectBlock, State.indirectPointer, State.fieldAt, offsetBy_offsetBy]
  rfl

/-! ### Result codes -/

/-- The one result code of a command that goes on, and the state of the sequencer it leaves (R200, R213). -/
theorem dispatch_result {c : CallBlock} {s t : State} (h : dispatch c s = .next t) :
    t.out = .byte (commandResult c s.store) ∧ t.latched = none := by
  unfold commandResult
  rcases dispatch_next h with ⟨hc, hf, rfl⟩ | ⟨hc, hf, -, rfl⟩ | ⟨hc, hro, -, rfl⟩ | ⟨hc, rfl⟩ | ⟨hc, hro, rfl⟩ | ⟨h0, h1, h2, rfl⟩
  · simp [hc, hf]
  · simp [hc, hf]
  · simp [hc, hro]
  · simp [hc]
  · simp [hc, hro]
  · exact ⟨by rw [if_neg h0, if_neg h1, if_neg h2, State.finish_out], rfl⟩

theorem commandResult_cases (c : CallBlock) (b : BlockStore) :
    commandResult c b = 0x00 ∨ commandResult c b = 0x27 ∨ commandResult c b = 0x2B := by
  unfold commandResult
  split
  · exact .inl rfl
  split
  · split
    · exact .inr (.inl rfl)
    · exact .inl rfl
  split
  · split
    · exact .inr (.inr rfl)
    split
    · exact .inr (.inl rfl)
    · exact .inl rfl
  · exact .inr (.inl rfl)

theorem exec_rd0_result {s t : State} (h : exec (.rd0CmdDirect s.cfg.slot) s = .next t) :
    t.out = .byte (commandResult s.directBlock s.store) ∧ t.latched = none := by
  simpa using dispatch_result (exec_rd0_next h).2

theorem exec_rd3_result {s t : State} (h : exec (.rd3CmdIndirect s.cfg.slot) s = .next t) :
    t.out = .byte (commandResult s.indirectBlock s.store) ∧ t.latched = none := by
  simpa using dispatch_result (exec_rd3_next h).2

/-- Settles O39: `dispatch_result` for the commands and for the trigger reads that run them. -/
theorem resultCodeIsDecidedInOrder : Obligations.ResultCodeIsDecidedInOrder := by
  refine ⟨fun c s t h => ?_, fun s t => ⟨fun h => (exec_rd0_result h).1, fun h => (exec_rd3_result h).1⟩, ?_⟩
  · exact (dispatch_result ((dispatch_eq_exec c s).trans h)).1
  · rintro s t i (rfl | rfl) h
    · rw [(exec_rd0_result h).1]
      simpa using commandResult_cases s.directBlock s.store
    · rw [(exec_rd3_result h).1]
      simpa using commandResult_cases s.indirectBlock s.store

/-- A command whose buffer is in contract completes. -/
theorem dispatch_clear {c : CallBlock} {s : State} (h : commandClear c s) : ∃ t, dispatch c s = .next t := by
  obtain ⟨hread, hwrite⟩ := h
  by_cases h0 : c.cmd = 0x00
  · exact ⟨_, dispatch_status h0 s⟩
  by_cases h1 : c.cmd = 0x01
  · rw [dispatch_read h1]
    cases hf : s.store.fails c.blk with
    | true => exact ⟨_, State.readBlock_fail hf⟩
    | false => exact ⟨_, State.readBlock_ok hf (hread h1 hf)⟩
  by_cases h2 : c.cmd = 0x02
  · rw [dispatch_write h2]
    cases hro : s.store.ro with
    | true => exact ⟨_, State.writeBlock_protected hro⟩
    | false => exact ⟨_, State.writeBlock_clear hro (hwrite h2 hro)⟩
  · exact ⟨_, dispatch_other h0 h1 h2 s⟩

theorem commandClear_latch {c d : CallBlock} {s : State} (h : commandClear c s) : commandClear c (s.latch d) := h

theorem exec_rd0_complete {s : State} (hc : s.accessesClear (directAddresses s.cfg))
    (hcmd : commandClear s.directBlock (s.afterReads (directAddresses s.cfg))) :
    ∃ t, exec (.rd0CmdDirect s.cfg.slot) s = .next t := by
  rw [exec_rd0_clear hc]
  exact dispatch_clear (commandClear_latch hcmd)

theorem exec_rd3_complete {s : State} (hc : s.accessesClear s.indirectAddresses)
    (hcmd : commandClear s.indirectBlock (s.afterReads s.indirectAddresses)) :
    ∃ t, exec (.rd3CmdIndirect s.cfg.slot) s = .next t := by
  rw [exec_rd3_clear hc]
  exact dispatch_clear (commandClear_latch hcmd)

/-- Settles O38: the fetches and then the command complete, with the command's result code. -/
theorem triggerReadsComplete : Obligations.TriggerReadsComplete := by
  refine ⟨fun s hc hcmd => ?_, fun s hc hcmd => ?_⟩
  · obtain ⟨t, h⟩ := exec_rd0_complete hc hcmd
    exact ⟨t, h, exec_rd0_result h⟩
  · obtain ⟨t, h⟩ := exec_rd3_complete hc hcmd
    exact ⟨t, h, exec_rd3_result h⟩

end Sys2Proof.Machine
end

section
/-! PROOFS. The Block Store (`20_memory.md` R53) and the block transfer (`42_block_transfer.md` R151 to R156). -/

namespace Sys2Proof.Machine

/-! ### The store -/

theorem BlockStore.answer_eq_none {b : BlockStore} : b.answer = none ↔ ∀ a ∈ b.answers, a.call ≠ b.calls := by
  simp [BlockStore.answer]

/-- Beyond the capacity an `Ok` answer returns the bytes that the store chose, whatever they are. -/
theorem BlockStore.block_beyond {b : BlockStore} {i : Word} {data : List Byte} (h : b.answer = some (.ok data))
    (hi : b.count.toNat ≤ i.toNat) (hlen : data.length = blockSize) : b.block i = data := by
  apply List.ext_getElem?
  intro k
  by_cases hk : k < blockSize
  · rw [BlockStore.getElem?_block b i hk, BlockStore.blockByte, if_neg (by omega), h, List.getElem?_eq_getElem (by omega),
      ← List.getD_eq_getElem data Memory.unlisted]
  · rw [List.getElem?_eq_none (by simpa using hk), List.getElem?_eq_none (by omega)]

theorem BlockStore.block_within {b : BlockStore} {i : Word} (h : i.toNat < b.count.toNat) :
    b.block i = (List.range blockSize).map fun k => b.image.read (blockSize * i.toNat + k) := by
  apply List.map_congr_left
  intro k _
  exact BlockStore.blockByte_within h k

theorem BlockStore.getD_block_within {b : BlockStore} {i : Word} (h : i.toNat < b.count.toNat) {k : Nat} (hk : k < blockSize) :
    (b.block i).getD k 0 = b.image.read (blockSize * i.toNat + k) := by
  rw [List.getD_eq_getElem?_getD, BlockStore.getElem?_block b i hk, BlockStore.blockByte_within h, Option.getD_some]

/-- Settles O26: `BlockStore.answer_eq_some` finds the answer that decides. -/
theorem storeAnswersAreTheStoresDecision : Obligations.StoreAnswersAreTheStoresDecision := by
  intro b i
  refine ⟨fun pre left rest h hpre => ?_, fun pre data rest h hpre => ?_, fun h => ?_, BlockStore.block_within,
    BlockStore.length_block b i⟩
  · exact BlockStore.fails_fail (BlockStore.answer_eq_some.2 ⟨pre, rest, h, hpre⟩) i
  · have answer := BlockStore.answer_eq_some.2 ⟨pre, rest, h, hpre⟩
    exact ⟨BlockStore.fails_ok answer i, BlockStore.block_beyond answer⟩
  · rw [BlockStore.fails_reference (BlockStore.answer_eq_none.2 h), decide_eq_true_eq]

/-! ### What a failed write leaves -/

theorem BlockStore.imageAfterFail_unchanged {b : BlockStore} (h : ∀ bytes, b.answer ≠ some (.fail (some bytes))) (i : Word) :
    b.imageAfterFail i = b.image := by
  unfold BlockStore.imageAfterFail
  split
  · next hb => exact absurd hb (h _)
  all_goals rfl

theorem BlockStore.imageAfterFail_left {b : BlockStore} {bytes : List Byte} (h : b.answer = some (.fail (some bytes)))
    (i : Word) : b.imageAfterFail i = b.imageWith i bytes := by
  rw [BlockStore.imageAfterFail, h]

theorem BlockStore.imageAfterFail_beyond {b : BlockStore} {i : Word} (h : b.count.toNat ≤ i.toNat) :
    b.imageAfterFail i = b.image := by
  rcases b.imageAfterFail_cases i with e | ⟨bytes, e⟩ <;> rw [e]
  exact BlockStore.imageWith_beyond h bytes

/-- A block into which bytes were written has them at its start, and is as it was after them. -/
theorem BlockStore.imageWith_getD {b : BlockStore} {i : Word} (hw : b.image.wf = true) (hi : i.toNat < b.count.toNat)
    (bytes : List Byte) {k : Nat} (hk : k < blockSize) :
    (b.imageWith i bytes).read (blockSize * i.toNat + k) = bytes.getD k (b.image.read (blockSize * i.toNat + k)) := by
  rw [List.getD_eq_getElem?_getD]
  cases h : bytes[k]? with
  | some v => exact BlockStore.imageWith_read hw hi hk h
  | none =>
    rw [List.getElem?_eq_none_iff] at h
    rw [BlockStore.imageWith_within hi]
    exact Memory.read_putRange_other (.inr (by rw [List.length_take]; omega))

/-! ### READ -/

/-- The writes of a buffer, newest first. -/
theorem scatterAccesses_eq (base : Word) (bs : List Byte) : scatterAccesses base 0 bs =
    ((List.range bs.length).map fun k => Access.memWrite (offsetBy base k) (bs.getD k 0)).reverse := by
  unfold scatterAccesses
  congr 1
  apply List.ext_getElem?
  intro k
  by_cases hk : k < bs.length
  · simp [hk]
  · simp [hk]

/-- A READ that the store answers changes nothing but these fields. -/
theorem State.afterCopy_eq (blk addr : Word) (s : State) : s.afterCopy blk addr =
    { s.startedN (externalCount s.cfg (bufferAddresses addr 0 blockSize)) with
      mem := (s.afterCopy blk addr).mem
      store := { s.store with calls := s.store.calls + 1 }
      latched := none
      out := .byte noError
      nested := scatterAccesses addr 0 (s.store.block blk) ++ .bsRead blk (!s.store.fails blk) :: s.nested } := by
  rw [State.afterCopy_mem]
  simp [State.afterCopy, State.finish, State.scattered, State.startedN, State.afterBsRead]

theorem State.afterCopy_byte {blk addr : Word} {s : State} (hm : s.mem.wf = true) {k : Nat} (hk : k < blockSize)
    (hx : isExternal s.cfg (offsetBy addr k) = false) :
    (s.afterCopy blk addr).mem.read (offsetBy addr k).toNat = (s.store.block blk).getD k 0 := by
  have hv : (s.store.block blk)[k]? = some ((s.store.block blk).getD k 0) := by
    rw [List.getD_eq_getElem?_getD, BlockStore.getElem?_block _ _ hk, Option.getD_some]
  rw [State.afterCopy_mem]
  have hk0 : offsetBy addr (0 + k) = offsetBy addr k := by rw [Nat.zero_add k]
  rw [← hk0] at hx ⊢
  exact read_scatterMem hm (by rw [BlockStore.length_block, Nat.zero_add]) hx hv

theorem State.afterCopy_frame {blk addr a : Word} {s : State} (h : isExternal s.cfg a = true ∨ outsideBuffer addr a) :
    (s.afterCopy blk addr).mem.read a.toNat = s.mem.read a.toNat := by
  rw [State.afterCopy_mem]
  refine read_scatterMem_other (h.imp_right fun hout j hj => ?_)
  rw [Nat.zero_add]
  exact hout j (by simpa using hj)

/-- Settles O28. -/
theorem failedReadTouchesNothing : Obligations.FailedReadTouchesNothing := by
  intro unit addr blk s hf
  rw [exec_read, State.readBlock_fail hf, State.afterBsRead, hf]
  rfl

/-- Settles O27: READ is `State.afterCopy`, whose memory is a scatter of the block. -/
theorem readCopiesTheBlock : Obligations.ReadCopiesTheBlock := by
  intro unit addr blk s hm hc hf
  refine ⟨s.afterCopy blk addr, s.store.block blk, ?_, rfl, fun hi k => BlockStore.getD_block_within hi,
    fun k hk hx => State.afterCopy_byte hm hk hx, fun a => State.afterCopy_frame, ?_⟩
  · rw [exec_read, State.readBlock_ok hf hc]
  · refine (State.afterCopy_eq blk addr s).trans ?_
    rw [scatterAccesses_eq, BlockStore.length_block, hf]
    rfl

/-! ### WRITE -/

/-- `State.afterStore_eq` with the reads of the buffer written out. -/
theorem State.afterStore_accesses (blk addr : Word) (s : State) : (s.afterStore blk addr).nested =
    .bsWrite blk (!s.store.fails blk) :: (((List.range blockSize).map fun k =>
      Access.memRead (offsetBy addr k) (s.byteAt (offsetBy addr k) (s.draws + k))).reverse ++ s.nested) := by
  rw [State.afterStore_nested, State.afterReads_buffer_nested]

/-- Whatever the store answered, no other block has changed. -/
theorem State.afterStore_otherBlock {blk addr : Word} {s : State} {x : Nat}
    (h : x < blockSize * blk.toNat ∨ blockSize * blk.toNat + blockSize ≤ x) :
    (s.afterStore blk addr).store.image.read x = s.store.image.read x := by
  rw [State.afterStore_store]
  cases s.store.fails blk with
  | true => exact BlockStore.imageAfterFail_other h
  | false => exact BlockStore.imageWith_other h

theorem State.afterStore_imageOk {blk : Word} {s : State} (h : s.store.fails blk = false) (addr : Word) :
    (s.afterStore blk addr).store.image = s.store.imageWith blk (s.gathered addr 0 blockSize) := by
  simp [h]

theorem State.afterStore_imageFail {blk : Word} {s : State} (h : s.store.fails blk = true) (addr : Word) :
    (s.afterStore blk addr).store.image = s.store.imageAfterFail blk := by
  simp [h]

/-- A WRITE that the store accepts leaves the gathered bytes in the block. -/
theorem State.afterStore_byte {blk addr : Word} {s : State} (hw : s.store.image.wf = true) (hf : s.store.fails blk = false)
    (hi : blk.toNat < s.store.count.toNat) {k : Nat} (hk : k < blockSize) :
    (s.afterStore blk addr).store.image.read (blockSize * blk.toNat + k) = s.byteAt (offsetBy addr k) (s.draws + k) := by
  rw [State.afterStore_imageOk hf, BlockStore.imageWith_read hw hi hk (State.getElem?_gathered s addr hk), Nat.zero_add]

theorem exec_write_clear {s : State} {addr : Word} (hro : s.store.ro = false) (hc : s.bufferClear addr) (unit : Byte)
    (blk : Word) : exec (.write unit addr blk) s = .next (s.afterStore blk addr) := by
  rw [exec_write, State.writeBlock_clear hro hc]

/-- Settles O30: WRITE is `State.afterStore`, whose image has the gathered bytes in the block. -/
theorem writeStoresTheBlock : Obligations.WriteStoresTheBlock := by
  intro unit addr blk s hw hro hc hf
  refine ⟨s.afterStore blk addr, exec_write_clear hro hc unit blk, fun hi k hk => State.afterStore_byte hw hf hi hk,
    fun hi => ?_, fun x => State.afterStore_otherBlock, ?_⟩
  · rw [State.afterStore_imageOk hf, BlockStore.imageWith_beyond hi]
  · rw [State.afterStore_eq, State.afterStore_accesses, State.afterStore_store, hf]
    rfl

/-- Settles O31: WRITE is `State.afterStore` here too, and its image is what the store's failure leaves. -/
theorem failedWriteReturnsIoError : Obligations.FailedWriteReturnsIoError := by
  intro unit addr blk s hro hc hf
  refine ⟨s.afterStore blk addr, exec_write_clear hro hc unit blk, fun x => State.afterStore_otherBlock, ?_,
    fun pre bytes rest h hpre hw hi k hk => ?_, ?_⟩
  · rintro (hi | hnone) <;> rw [State.afterStore_imageFail hf]
    · exact BlockStore.imageAfterFail_beyond hi
    · refine BlockStore.imageAfterFail_unchanged (fun bytes h => ?_) blk
      obtain ⟨pre, rest, h, hpre⟩ := BlockStore.answer_eq_some.1 h
      obtain ⟨a, ha, hcall⟩ := hnone pre bytes rest h
      exact hpre a ha hcall
  · have answer := BlockStore.answer_eq_some.2 ⟨pre, rest, h, hpre⟩
    rw [State.afterStore_imageFail hf, BlockStore.imageAfterFail_left answer]
    exact BlockStore.imageWith_getD hw hi bytes hk
  · rw [State.afterStore_eq, State.afterStore_accesses, State.afterStore_store, hf]
    rfl

end Sys2Proof.Machine
end

section
/-! PROOFS. Nested accesses: the faults of `60_exceptions.md` R207, R208 and R211, the codec operations that an access starts
(`43_nibble_codec.md` R177), and what one transfer touches (`42_block_transfer.md` R150, R156). -/

namespace Sys2Proof.Machine

/-! ### Where a faulting access leads -/

theorem exec_rd0_fault {s : State} {f : Fault} (h : s.fetchDirect = .error f) : exec (.rd0CmdDirect s.cfg.slot) s = .fault f := by
  rw [exec, execRd0CmdDirect, State.onCardRead_own rfl, h, runFetched]

theorem exec_rd3_fault {s : State} {f : Fault} (h : s.fetchIndirect = .error f) :
    exec (.rd3CmdIndirect s.cfg.slot) s = .fault f := by
  rw [exec, execRd3CmdIndirect, State.onCardRead_own rfl, h, runFetched]

/-- Settles O42: the fetches before the offence have been done (`State.fetchDirect_fault`, `State.fetchIndirect_fault`). -/
theorem fetchFromOwnPageFaults : Obligations.FetchFromOwnPageFaults := by
  refine ⟨fun s k a hk hown hc => exec_rd0_fault ?_, fun s k a hk hown hc => exec_rd3_fault ?_⟩
  · exact State.fetchDirect_fault hk hc (State.memRead_own (by simpa using hown))
  · exact State.fetchIndirect_fault hk hc (State.memRead_own (by simpa using hown))

/-- The state of a READ after `k` of its writes. -/
def State.midCopy (blk addr : Word) (k : Nat) (s : State) : State :=
  (s.afterBsRead blk).scattered addr 0 ((s.store.block blk).take k)

theorem length_take_block (b : BlockStore) (blk : Word) {k : Nat} (hk : k < blockSize) : ((b.block blk).take k).length = k := by
  rw [List.length_take, BlockStore.length_block]
  omega

/-- A READ that the store answers changes nothing but these fields in its first `k` writes. -/
theorem State.midCopy_eq (blk addr : Word) {k : Nat} (hk : k < blockSize) (s : State) : s.midCopy blk addr k =
    { s.startedN (externalCount s.cfg (bufferAddresses addr 0 k)) with
      mem := (s.midCopy blk addr k).mem
      store := { s.store with calls := s.store.calls + 1 }
      nested := (s.midCopy blk addr k).nested } := by
  simp only [State.midCopy, State.scattered, length_take_block s.store blk hk]
  rfl

theorem State.midCopy_byte {blk addr : Word} {s : State} (hm : s.mem.wf = true) {j k : Nat} (hj : j < k) (hk : k < blockSize)
    (hx : isExternal s.cfg (offsetBy addr j) = false) :
    (s.midCopy blk addr k).mem.read (offsetBy addr j).toNat = (s.store.block blk).getD j 0 := by
  have hv : ((s.store.block blk).take k)[j]? = some ((s.store.block blk).getD j 0) := by
    rw [List.getElem?_take, if_pos hj, List.getD_eq_getElem?_getD, BlockStore.getElem?_block _ _ (by omega), Option.getD_some]
  have hj0 : offsetBy addr (0 + j) = offsetBy addr j := by rw [Nat.zero_add j]
  rw [← hj0] at hx ⊢
  exact read_scatterMem hm (by rw [length_take_block _ _ hk]; omega) hx hv

theorem State.midCopy_frame {blk addr a : Word} {s : State} {k : Nat} (hk : k < blockSize) (h : ∀ j, j < k → a ≠ offsetBy addr j) :
    (s.midCopy blk addr k).mem.read a.toNat = s.mem.read a.toNat := by
  refine read_scatterMem_other (.inr fun j hj => ?_)
  rw [length_take_block _ _ hk] at hj
  rw [Nat.zero_add]
  exact h j hj

/-- A transfer stops at the first address of its buffer in the card's own page (R207). -/
theorem State.readBlock_own {blk addr : Word} {s : State} {k : Nat} (hf : s.store.fails blk = false) (hk : k < blockSize)
    (hc : s.accessesClear (bufferAddresses addr 0 k)) (hown : ownPage s.cfg (offsetBy addr k) = true) :
    s.readBlock blk addr = .fault (.reentrancyViolation (offsetBy addr k) (s.midCopy blk addr k)) :=
  State.readBlock_fault hf hk hc fun _ => State.memWrite_own (by simpa using hown)

theorem State.writeBlock_own {blk addr : Word} {s : State} {k : Nat} (hro : s.store.ro = false) (hk : k < blockSize)
    (hc : s.accessesClear (bufferAddresses addr 0 k)) (hown : ownPage s.cfg (offsetBy addr k) = true) :
    s.writeBlock blk addr = .fault (.reentrancyViolation (offsetBy addr k) (s.afterReads (bufferAddresses addr 0 k))) :=
  State.writeBlock_fault hro hk hc (State.memRead_own (by simpa using hown))

/-- Settles O41: READ stops in `State.midCopy`, WRITE after the reads of the first `k` addresses. -/
theorem transferIntoOwnPageFaults : Obligations.TransferIntoOwnPageFaults := by
  intro unit addr blk s k hk hc hown
  refine ⟨fun hf hm => ⟨s.midCopy blk addr k, _, ?_, rfl, fun j hj hx => State.midCopy_byte hm hj hk hx,
    fun a h => State.midCopy_frame hk h, State.midCopy_eq blk addr hk s⟩,
    fun hro => ⟨s.afterReads (bufferAddresses addr 0 k), ?_, ?_⟩⟩
  · rw [exec_read, State.readBlock_own hf hk hc hown]
  · rw [exec_write, State.writeBlock_own hro hk hc hown]
  · rw [State.afterReads_eq, length_bufferAddresses]
    rfl

/-! ### Codec operations out of range -/

theorem quarterTrackOut_true {p : Params} {q : Nat} (h : 4 * p.ntracks ≤ q) : quarterTrackOut p q = true := by
  simpa [quarterTrackOut, stepsPerTrack] using h

theorem CodecOp.outOfRange_of_le {p : Params} {op : CodecOp} {n q : Nat} (h : op = .read n q ∨ ∃ v, op = .write n q v)
    (hq : 4 * p.ntracks ≤ q) : op.outOfRange p = some q := by
  have hq := quarterTrackOut_true hq
  rcases h with rfl | ⟨v, rfl⟩
  · exact if_pos hq
  · exact if_pos hq

/-- The first offence among the operations that one access starts. -/
theorem firstOutOfRange_middle {p : Params} {before after : List CodecOp} {op : CodecOp} {q : Nat}
    (hb : firstOutOfRange p before = none) (hop : op.outOfRange p = some q) :
    firstOutOfRange p (before ++ op :: after) = some q := by
  unfold firstOutOfRange at hb ⊢
  rw [List.findSome?_append, hb, Option.none_or, List.findSome?_cons_of_isSome (by rw [hop]; rfl), hop]

theorem State.startedOps_external {s : State} {a : Word} {ops : List CodecOp} (hx : isExternal s.cfg a = true)
    (h : s.shell[0]? = some ops) : s.startedOps a = ops := by
  rw [State.startedOps, if_pos hx, List.headD_eq_head?_getD, List.head?_eq_getElem?, h, Option.getD_some]

/-- An access that starts an operation out of range, when `n` accesses outside plain RAM came before it. -/
theorem State.startedOps_outOfRange {s t : State} {a : Word} {ops : List CodecOp} {n q : Nat} (hc : t.cfg = s.cfg)
    (hs : t.shell = s.shell.drop n) (hx : isExternal s.cfg a = true) (hn : s.shell[n]? = some ops)
    (hq : firstOutOfRange s.cfg ops = some q) : firstOutOfRange t.cfg (t.startedOps a) = some q := by
  rw [State.startedOps_external (ops := ops) (by rwa [hc]) (by rw [hs, List.getElem?_drop, Nat.add_zero, hn]), hc, hq]

/-- Settles O35: the accesses before the offence leave its operations at the head of the shell, and the access there faults. -/
theorem nestedQuarterTrackOutOfRangeFaults : Obligations.NestedQuarterTrackOutOfRangeFaults := by
  intro s before after op n q a hb hop hq hown hx
  have hfirst := firstOutOfRange_middle (after := after) hb (CodecOp.outOfRange_of_le hop hq)
  have read_fails (as : List Word) (hn : s.shell[externalCount s.cfg as]? = some (before ++ op :: after)) :
      (s.afterReads as).memRead a = .error (.quarterTrackRange q) :=
    State.memRead_outOfRange (by simpa using hown) (State.startedOps_outOfRange (by simp) (by simp) hx hn hfirst)
  refine ⟨fun k hk hs => exec_rd0_fault ?_, fun k hk hs => exec_rd3_fault ?_, ?_⟩
  · exact State.fetchDirect_fault hk hs.1 (read_fails _ hs.2)
  · exact State.fetchIndirect_fault hk hs.1 (read_fails _ hs.2)
  · rintro unit addr blk k hk rfl hs
    refine ⟨fun hf => ?_, fun hro => ?_⟩
    · rw [exec_read]
      refine State.readBlock_fault hf hk hs.1 fun b => State.memWrite_outOfRange (by simpa using hown) ?_
      refine State.startedOps_outOfRange (by simp) ?_ hx hs.2 hfirst
      rw [State.scattered_shell, length_take_block _ _ hk]
      rfl
    · rw [exec_write]
      exact State.writeBlock_fault hro hk hs.1 (read_fails _ hs.2)

/-! ### Codec operations in range -/

theorem externalCount_one_external {p : Params} {a : Word} (h : isExternal p a = true) : externalCount p [a] = 1 := by
  simp [externalCount, h]

theorem externalCount_one_plain {p : Params} {a : Word} (h : isExternal p a = false) : externalCount p [a] = 0 := by
  simp [externalCount, h]

/-- The codec operations that are in contract run one after another on port P4 as the shell runs them. -/
theorem execAll_codecOps {ops : List CodecOp} {s : State} (hd : s.drives.length = s.cfg.ndrives)
    (hw : ∀ op ∈ ops, op.instr.wf s.cfg = true) :
    ∃ u, execAll (ops.map CodecOp.instr) s = .next u ∧ u.drives = codecRun s.cfg ops s.drives := by
  induction ops generalizing s with
  | nil => exact ⟨s, rfl, rfl⟩
  | cons op ops ih =>
    obtain ⟨hop, hops⟩ := List.forall_mem_cons.1 hw
    obtain ⟨r, hx⟩ := exec_codecOp hd hop
    obtain ⟨u, hrun, hu⟩ := ih (s := { s with drives := codecEffect s.cfg s.drives op, out := r }) (by simpa using hd) hops
    refine ⟨u, ?_, hu⟩
    rw [List.map_cons, execAll, hx]
    exact hrun

/-- A nested access of an address outside the card's page completes, whether it reads or writes, with the same codec operations
done. -/
theorem State.access_clear {a : Word} {s : State} (hc : s.accessesClear [a]) :
    (∃ v t, s.memRead a = .ok (v, t) ∧ t.drives = (s.startedN (externalCount s.cfg [a])).drives ∧
        t.shell = (s.startedN (externalCount s.cfg [a])).shell) ∧
      ∀ v, ∃ t, s.memWrite a v = .ok t ∧ t.drives = (s.startedN (externalCount s.cfg [a])).drives ∧
        t.shell = (s.startedN (externalCount s.cfg [a])).shell := by
  refine ⟨⟨_, _, State.memRead_clear hc, by simp, by simp⟩, fun v => ⟨_, State.memWrite_clear hc, ?_, ?_⟩⟩
  · rw [← State.started_eq]
    rfl
  · rw [← State.started_eq]
    rfl

/-- Settles O34: `execAll_codecOps` on the port, and `State.access_clear` at a nested access. -/
theorem nestedCodecOperationsActAsOnTheirPort : Obligations.NestedCodecOperationsActAsOnTheirPort := by
  intro ops s hd hw
  refine ⟨execAll_codecOps hd hw, fun a rest hs hown => ⟨fun hx => ?_, fun hx => ?_⟩⟩
  · have hops : s.startedOps a = ops := State.startedOps_external hx (by rw [hs]; rfl)
    have hc : s.accessesClear [a] := State.accessesClear_one.2 ⟨hown, by rw [hops]; exact firstOutOfRange_of_wf hw⟩
    simpa [externalCount_one_external hx, hs] using State.access_clear hc
  · have hops : s.startedOps a = [] := by rw [State.startedOps, hx]; rfl
    have hc : s.accessesClear [a] := State.accessesClear_one.2 ⟨hown, by rw [hops]; rfl⟩
    simpa [externalCount_one_plain hx] using State.access_clear hc

/-! ### One transfer -/

/-- Everything READ and WRITE can do when they go on. -/
theorem exec_transfer_next {i : Instr} {unit : Byte} {addr blk : Word} {s t : State}
    (hi : i = .read unit addr blk ∨ i = .write unit addr blk) (h : exec i s = .next t) :
    t = (s.afterBsRead blk).finish ioError ∨ t = s.afterCopy blk addr ∨ t = s.finish writeProtected ∨
      t = s.afterStore blk addr := by
  rcases hi with rfl | rfl
  · rcases State.readBlock_next (exec_read unit addr blk s ▸ h) with ⟨-, rfl⟩ | ⟨-, -, rfl⟩
    · exact .inl rfl
    · exact .inr (.inl rfl)
  · rcases State.writeBlock_next (exec_write unit addr blk s ▸ h) with ⟨-, rfl⟩ | ⟨-, -, rfl⟩
    · exact .inr (.inr (.inl rfl))
    · exact .inr (.inr (.inr rfl))

/-- The nested accesses of `t` after those of `s`: all 512 of a buffer or none, and at most one store call on block `blk`. -/
def OneTransfer (blk : Word) (s t : State) : Prop :=
  ∃ mem store : List Access, t.nested.Perm (mem ++ store ++ s.nested) ∧ (mem.length = 0 ∨ mem.length = 512) ∧
    store.length ≤ 1 ∧ (∀ x ∈ mem, (∃ a v, x = .memRead a v) ∨ ∃ a v, x = .memWrite a v) ∧
    (∀ x ∈ store, (∃ ok, x = .bsRead blk ok) ∨ ∃ ok, x = .bsWrite blk ok)

theorem oneTransfer_failedRead (blk : Word) (s : State) : OneTransfer blk s ((s.afterBsRead blk).finish ioError) :=
  ⟨[], [.bsRead blk (!s.store.fails blk)], .refl _, .inl rfl, by simp, by simp, by simp⟩

theorem oneTransfer_afterCopy (blk addr : Word) (s : State) : OneTransfer blk s (s.afterCopy blk addr) := by
  refine ⟨scatterAccesses addr 0 (s.store.block blk), [.bsRead blk (!s.store.fails blk)], by simp, .inr ?_,
    by simp, ?_, by simp⟩
  · rw [scatterAccesses, List.length_reverse, List.length_map, List.length_zipIdx, BlockStore.length_block, blockSize]
  · intro x hx
    obtain ⟨p, -, rfl⟩ := List.mem_map.1 (List.mem_reverse.1 hx)
    exact .inr ⟨_, _, rfl⟩

theorem oneTransfer_protected (blk : Word) (s : State) : OneTransfer blk s (s.finish writeProtected) :=
  ⟨[], [], .refl _, .inl rfl, by simp, by simp, by simp⟩

theorem oneTransfer_afterStore (blk addr : Word) (s : State) : OneTransfer blk s (s.afterStore blk addr) := by
  refine ⟨((List.range blockSize).map fun k => Access.memRead (offsetBy addr k) (s.byteAt (offsetBy addr k)
    (s.draws + k))).reverse, [.bsWrite blk (!s.store.fails blk)], ?_, .inr ?_, by simp, ?_, by simp⟩
  · rw [State.afterStore_accesses, List.append_assoc]
    exact List.perm_middle.symm
  · rw [List.length_reverse, List.length_map, List.length_range, blockSize]
  · intro x hx
    obtain ⟨k, -, rfl⟩ := List.mem_map.1 (List.mem_reverse.1 hx)
    exact .inl ⟨_, _, rfl⟩

theorem externalCount_le (p : Params) (as : List Word) : externalCount p as ≤ as.length := List.countP_le_length

theorem externalCount_bufferPlain {p : Params} {addr : Word} (h : bufferPlain p addr) :
    externalCount p (bufferAddresses addr 0 blockSize) = 0 := by
  refine externalCount_plain fun a ha => ?_
  obtain ⟨j, hj, rfl⟩ := mem_bufferAddresses.1 ha
  exact h j hj

/-- Settles O33: one transfer is none or all of its accesses, and everything else is what `exec_keeps` keeps and the shell does. -/
theorem transfersMoveOneBlockOrNothing : Obligations.TransfersMoveOneBlockOrNothing := by
  intro unit addr blk s t i hi h
  obtain ⟨hses, hmli⟩ := exec_keeps h
  have hmli : t.mli = s.mli := hmli (by rcases hi with rfl | rfl <;> rfl)
  have buffer : externalCount s.cfg (bufferAddresses addr 0 blockSize) ≤ 512 ∧
      (bufferPlain s.cfg addr → externalCount s.cfg (bufferAddresses addr 0 blockSize) = 0) :=
    ⟨(externalCount_le ..).trans_eq (length_bufferAddresses addr 0 blockSize), externalCount_bufferPlain⟩
  suffices OneTransfer blk s t ∧
      (∀ x, x < 512 * blk.toNat ∨ 512 * blk.toNat + 512 ≤ x → t.store.image.read x = s.store.image.read x) ∧
      t.input = s.input ∧ ∃ n, n ≤ 512 ∧ (bufferPlain s.cfg addr → n = 0) ∧
        t.drives = codecRun s.cfg (s.shell.take n).flatten s.drives ∧ t.shell = s.shell.drop n by
    obtain ⟨haccesses, hother, hinput, hdrives⟩ := this
    exact ⟨haccesses, hother, hses.count, hses.ro, hmli, hses.cfg, hinput, hdrives⟩
  rcases exec_transfer_next hi h with rfl | rfl | rfl | rfl
  · exact ⟨oneTransfer_failedRead blk s, fun _ _ => rfl, rfl, 0, by omega, fun _ => rfl, rfl, rfl⟩
  · exact ⟨oneTransfer_afterCopy blk addr s, by simp, by simp, _, buffer.1, buffer.2, by simp, by simp⟩
  · exact ⟨oneTransfer_protected blk s, fun _ _ => rfl, rfl, 0, by omega, fun _ => rfl, rfl, rfl⟩
  · exact ⟨oneTransfer_afterStore blk addr s, fun x => State.afterStore_otherBlock, by simp, _, buffer.1, buffer.2, by simp,
      by simp⟩

end Sys2Proof.Machine
end

section
/-! PROOFS. The codec's operations (`43_nibble_codec.md` R165 to R177). -/

namespace Sys2Proof.Machine

theorem exec_nread_out {n q : Nat} {s : State} {d : Drive} (hd : s.drives[n]? = some d) (hq : 4 * s.cfg.ntracks ≤ q)
    (pad : Byte) : exec (.nread n q pad) s = .fault (.quarterTrackRange q) := by
  rw [exec, execNread, State.onDrive_some hd, if_pos (quarterTrackOut_true hq)]

theorem exec_nwrite_out {n q : Nat} {s : State} {d : Drive} (hd : s.drives[n]? = some d) (hq : 4 * s.cfg.ntracks ≤ q)
    (v : Byte) : exec (.nwrite n q v) s = .fault (.quarterTrackRange q) := by
  rw [exec, execNwrite, State.onDrive_some hd, if_pos (quarterTrackOut_true hq)]

/-- Settles O43. -/
theorem nreadReturnsTheByteAtTheCursor : Obligations.NreadReturnsTheByteAtTheCursor := by
  refine ⟨fun n high low pad => decode_nread n high low pad,
    fun n q pad s d hd => ⟨fun hq => ?_, fun hq => exec_nread_out hd hq pad⟩⟩
  exact exec_nread hd (quarterTrackOut_false hq) pad

/-- Settles O44: the drive after the write is `Drive.withByte` at the cursor, advanced. -/
theorem nwriteStoresTheByteAtTheCursor : Obligations.NwriteStoresTheByteAtTheCursor := by
  refine ⟨fun n high low v => decode_nwrite n high low v,
    fun n q v s d hd hok => ⟨fun hq => ?_, fun hq => exec_nwrite_out hd hq v⟩⟩
  have hq := quarterTrackOut_false hq
  refine ⟨(d.withByte (trackOf q) d.pos v).advance s.cfg, exec_nwrite hd hq v, rfl, by simp, ?_, fun t p h => ?_⟩
  · exact Drive.byteAt_withByte_same hok (trackOf_lt hq)
  · exact Drive.byteAt_withByte_other h

/-- Settles O45. -/
theorem powerOperationsChangeNothing : Obligations.PowerOperationsChangeNothing := by
  refine ⟨fun n high low pad => ⟨decode_pwron n high low pad, decode_pwroff n high low pad⟩, fun n q pad s hn => ?_⟩
  have hd := List.getElem?_eq_getElem hn
  exact ⟨exec_pwron hd q pad, exec_pwroff hd q pad⟩

/-- Settles O46: the two quarter-tracks are in range together, and only their track is read. -/
theorem quarterTracksOfOneTrackAgree : Obligations.QuarterTracksOfOneTrackAgree := by
  intro n q q' pad v s hqq hq
  have htrack : trackOf q = trackOf q' := hqq
  have hout := quarterTrackOut_false hq
  have hout' : quarterTrackOut s.cfg q' = false := quarterTrackOut_false (by omega)
  simp only [exec, execNread, execNwrite, hout, hout', htrack, Bool.false_eq_true, if_false, and_self]

/-- Settles O48: the operations in between bring the cursor back and do not pass the written byte (`Turned.revolution`). -/
theorem writtenByteComesBackAfterOneRevolution : Obligations.WrittenByteComesBackAfterOneRevolution := by
  intro n q q' v pad ops s d hd hok hq hqq hlen hops
  obtain ⟨hp, -, -⟩ := driveOk_iff.1 hok
  have hout := quarterTrackOut_false hq
  have hout' : quarterTrackOut s.cfg q' = false := quarterTrackOut_false (by omega)
  have htrack : trackOf q' = trackOf q := hqq
  have first := turned_nwrite hd (trackOf q) v .silent
  obtain ⟨u, f, hrun, rest⟩ := execAll_accesses (first.cfg.symm ▸ hops) first.drive
  obtain ⟨hpos, hbyte⟩ := first.revolution rest hp hlen
  have hcfg : u.cfg = s.cfg := rest.cfg.trans first.cfg
  refine ⟨_, u, _, exec_nwrite hd hout v, hrun, exec_nread rest.drive (hcfg ▸ hout') pad, ?_⟩
  rw [State.reply_out, hpos, htrack, hbyte]
  exact congrArg Response.byte (Drive.byteAt_withByte_same hok (trackOf_lt hout))

/-- Settles O50: every codec operation looks for its drive first (`exec_nib`). -/
theorem missingDriveIsRefused : Obligations.MissingDriveIsRefused := by
  intro i n s h hd
  obtain ⟨f, hf⟩ := exec_nib h
  rw [hf, State.onDrive_none hd]

end Sys2Proof.Machine
end

section
/-! PROOFS. What an operation can change: the drives (`10_state.md` R24, R25, R43), guest memory and the store (`20_memory.md` R64), and
a block between two transfers (`42_block_transfer.md` R155). Each time the commands come first (`dispatch_next`), then the trigger reads
that run them, then the other operations. -/

namespace Sys2Proof.Machine

/-! ### Commands, by their byte -/

theorem instr_of_command {i : Instr} {c : CallBlock} (h : encode i = .cmd c) : i = decodeCommand c := by
  have hd := decode_encode_command h
  rw [h] at hd
  exact (Except.ok.inj hd).symm

/-- A command that moves no block is neither READ nor WRITE. -/
theorem command_of_not_movesBlocks {i : Instr} {c : CallBlock} (h : encode i = .cmd c) (hm : movesBlocks i = false) :
    c.cmd ≠ 0x01 ∧ c.cmd ≠ 0x02 := by
  rw [instr_of_command h] at hm
  constructor <;> intro hc
  · rw [decodeCommand_read hc] at hm
    cases hm
  · rw [decodeCommand_write hc] at hm
    cases hm

theorem isTrigger_of_not_movesBlocks {i : Instr} (h : movesBlocks i = false) : isTrigger i = false := by
  cases i
  case rd0CmdDirect | rd3CmdIndirect => cases h
  all_goals rfl

/-- A command that is neither READ nor WRITE only reports a code. -/
theorem dispatch_finishes {c : CallBlock} {s t : State} (h1 : c.cmd ≠ 0x01) (h2 : c.cmd ≠ 0x02) (h : dispatch c s = .next t) :
    ∃ code, t = s.finish code := by
  by_cases h0 : c.cmd = 0x00
  · exact ⟨_, Host.Outcome.next.inj (h.symm.trans (dispatch_status h0 s))⟩
  · exact ⟨_, Host.Outcome.next.inj (h.symm.trans (dispatch_other h0 h1 h2 s))⟩

/-! ### The drives -/

/-- Between `s` and `t` the shell has done its work at `n` accesses, and nothing else has changed a drive. -/
def ShellRan (n : Nat) (s t : State) : Prop :=
  t.drives = codecRun s.cfg (s.shell.take n).flatten s.drives ∧ t.shell = s.shell.drop n

theorem ShellRan.trans {m n : Nat} {s t u : State} (h : ShellRan m s t) (hc : t.cfg = s.cfg) (h' : ShellRan n t u) :
    ShellRan (m + n) s u := by
  obtain ⟨hd, hs⟩ := h
  obtain ⟨hd', hs'⟩ := h'
  refine ⟨?_, by rw [hs', hs, List.drop_drop]⟩
  rw [hd', hc, hs, hd, List.take_add, List.flatten_append, codecRun_append]

theorem shellRan_afterReads (as : List Word) (s : State) : ShellRan (externalCount s.cfg as) s (s.afterReads as) :=
  ⟨by simp, by simp⟩

theorem externalCount_of_external_nil {p : Params} (h : p.external = []) (as : List Word) : externalCount p as = 0 :=
  externalCount_plain fun a _ => by rw [isExternal, h]; rfl

/-- A command's part of the shell's work: that of its buffer, if it is a transfer that reaches it. -/
theorem dispatch_shellRan {c : CallBlock} {s t : State} (h : dispatch c s = .next t) :
    ShellRan 0 s t ∨ ShellRan (externalCount s.cfg (bufferAddresses c.addr 0 blockSize)) s t := by
  rcases dispatch_next h with ⟨-, -, rfl⟩ | ⟨-, -, -, rfl⟩ | ⟨-, -, -, rfl⟩ | ⟨-, rfl⟩ | ⟨-, -, rfl⟩ | ⟨-, -, -, rfl⟩
  case inr.inl | inr.inr.inl => exact .inr ⟨by simp, by simp⟩
  all_goals exact .inl ⟨rfl, rfl⟩

/-- A transfer, or a trigger read: there may be work at every access, and none if all of guest memory is plain RAM. -/
theorem dispatch_shellRan_exists {as : List Word} {c : CallBlock} {s t : State}
    (h : dispatch c ((s.afterReads as).latch c) = .next t) : ∃ n, ShellRan n s t ∧ (s.cfg.external = [] → n = 0) := by
  have fetched : ShellRan (externalCount s.cfg as) s ((s.afterReads as).latch c) := shellRan_afterReads as s
  rcases dispatch_shellRan h with hr | hr
  · exact ⟨_, fetched.trans (by simp) hr, fun hx => by simp [externalCount_of_external_nil hx]⟩
  · exact ⟨_, fetched.trans (by simp) hr, fun hx => by simp [externalCount_of_external_nil hx]⟩

theorem dispatch_command_shellRan {c : CallBlock} {s t : State} (h : dispatch c s = .next t) :
    ∃ n, ShellRan n s t ∧ (s.cfg.external = [] → n = 0) := by
  rcases dispatch_shellRan h with hr | hr
  · exact ⟨_, hr, fun _ => rfl⟩
  · exact ⟨_, hr, fun hx => externalCount_of_external_nil hx _⟩

/-- Settles O55: `ShellRan` for the operations that move blocks; the others leave the shell and the drives alone. -/
theorem onlyTheCodecChangesDrives : Obligations.OnlyTheCodecChangesDrives := by
  intro i s t hw h
  suffices ∃ n, ShellRan n s t ∧ (movesBlocks i = false ∨ s.cfg.external = [] → n = 0) by
    obtain ⟨n, ⟨hd, hs⟩, hn⟩ := this
    exact ⟨n, hd, hs, hn⟩
  have still (hd : t.drives = s.drives) (hs : t.shell = s.shell) :
      ∃ n, ShellRan n s t ∧ (movesBlocks i = false ∨ s.cfg.external = [] → n = 0) := ⟨0, ⟨hd, hs⟩, fun _ => rfl⟩
  rcases instr_cases i with ⟨slot, hs⟩ | ⟨c, hc⟩ | ⟨n, hn⟩ | rfl | rfl | ⟨m, rfl⟩
  · cases ht : isTrigger i with
    | true =>
      rcases exec_trigger_next ht h with ⟨a, rfl⟩ | ⟨as, c, h⟩
      · exact still rfl rfl
      · obtain ⟨n, hr, hn⟩ := dispatch_shellRan_exists h
        refine ⟨n, hr, fun hor => hor.elim (fun hm => ?_) hn⟩
        rw [isTrigger_of_not_movesBlocks hm] at ht
        cases ht
    | false =>
      rcases exec_ioPlain_next hs ht h with ⟨-, m, r, n, rfl, -⟩ | ⟨-, ⟨o, rfl⟩ | ⟨o, v, rfl⟩⟩
      all_goals exact still rfl rfl
  · rw [exec_command hc] at h
    by_cases hm : movesBlocks i = false
    · obtain ⟨h1, h2⟩ := command_of_not_movesBlocks hc hm
      obtain ⟨code, rfl⟩ := dispatch_finishes h1 h2 h
      exact still rfl rfl
    · obtain ⟨n, hr, hn⟩ := dispatch_command_shellRan h
      exact ⟨n, hr, fun hor => hor.elim (absurd · hm) hn⟩
  · obtain ⟨d, e, r, hd, rfl, he⟩ := exec_nib_next hn h
    obtain rfl := he hw
    obtain ⟨hlt, rfl⟩ := List.getElem?_eq_some_iff.1 hd
    exact still (List.set_getElem_self hlt) rfl
  · cases hw
  · cases h
    exact still rfl rfl
  · cases h
    exact still rfl rfl

/-! ### Guest memory and the store -/

/-- Only READ writes guest memory. -/
theorem dispatch_mem {c : CallBlock} {s t : State} (h1 : c.cmd ≠ 0x01) (h : dispatch c s = .next t) : t.mem = s.mem := by
  rcases dispatch_next h with ⟨hc, -⟩ | ⟨hc, -⟩ | ⟨-, -, -, rfl⟩ | ⟨-, rfl⟩ | ⟨-, -, rfl⟩ | ⟨-, -, -, rfl⟩
  · exact absurd hc h1
  · exact absurd hc h1
  · rw [State.afterStore_mem]
  all_goals rfl

/-- An operation that moves no block leaves the store alone, and guest memory too unless it is the guest's own access. -/
theorem exec_still_memory {i : Instr} {s t : State} (hm : movesBlocks i = false) (h : exec i s = .next t) :
    t.store = s.store ∧ ((∀ slot, ioSlot i = some slot → slot = s.cfg.slot) → t.mem = s.mem) := by
  rcases instr_cases i with ⟨slot, hs⟩ | ⟨c, hc⟩ | ⟨n, hn⟩ | rfl | rfl | ⟨m, rfl⟩
  · rcases exec_ioPlain_next hs (isTrigger_of_not_movesBlocks hm) h with
      ⟨-, m, r, n, rfl, -⟩ | ⟨hne, ⟨o, rfl⟩ | ⟨o, v, rfl⟩⟩
    · exact ⟨rfl, fun _ => rfl⟩
    · exact ⟨rfl, fun _ => rfl⟩
    · exact ⟨rfl, fun hown => absurd (hown slot hs) hne⟩
  · rw [exec_command hc] at h
    obtain ⟨h1, h2⟩ := command_of_not_movesBlocks hc hm
    obtain ⟨code, rfl⟩ := dispatch_finishes h1 h2 h
    exact ⟨rfl, fun _ => rfl⟩
  · obtain ⟨d, e, r, -, rfl, -⟩ := exec_nib_next hn h
    exact ⟨rfl, fun _ => rfl⟩
  all_goals
    cases h
    exact ⟨rfl, fun _ => rfl⟩

/-- Settles O56: `exec_still_memory`, and `dispatch_mem` for WRITE and for what a trigger read runs. -/
theorem onlyTransfersChangeMemoryAndStore : Obligations.OnlyTransfersChangeMemoryAndStore := by
  refine ⟨fun i s t => exec_still_memory, fun unit addr blk s t => ⟨fun h => ?_, fun h => ?_⟩, fun s t => ⟨fun h h1 => ?_, fun h h1 => ?_⟩⟩
  · rcases State.writeBlock_next (exec_write unit addr blk s ▸ h) with ⟨-, rfl⟩ | ⟨-, -, rfl⟩
    · rfl
    · rw [State.afterStore_mem]
  · rcases State.readBlock_next (exec_read unit addr blk s ▸ h) with ⟨-, rfl⟩ | ⟨-, -, rfl⟩
    · rfl
    · rw [State.afterCopy_store]
  · simpa using dispatch_mem h1 (exec_rd0_next h).2
  · simpa using dispatch_mem h1 (exec_rd3_next h).2

/-! ### One block along a run -/

/-- `t` comes after `s` with more nested accesses, its guest memory is canonical if that of `s` is, and block `blk` is as it was
if no access stored it. -/
structure KeepsBlock (blk : Word) (s t : State) : Prop where
  memWf : s.mem.wf = true → t.mem.wf = true
  bytes : ∃ after, t.nested = after ++ s.nested ∧ ((∀ ok, Access.bsWrite blk ok ∉ after) → ∀ k, k < blockSize →
    t.store.image.read (blockSize * blk.toNat + k) = s.store.image.read (blockSize * blk.toNat + k))

theorem KeepsBlock.trans {blk : Word} {s t u : State} (h : KeepsBlock blk s t) (h' : KeepsBlock blk t u) : KeepsBlock blk s u := by
  obtain ⟨hw, after, hn, hb⟩ := h
  obtain ⟨hw', after', hn', hb'⟩ := h'
  refine ⟨fun h => hw' (hw h), after' ++ after, by rw [hn', hn, List.append_assoc], fun hno k hk => ?_⟩
  have hno' (ok : Bool) : .bsWrite blk ok ∉ after' ∧ .bsWrite blk ok ∉ after := by simpa using hno ok
  exact (hb' (fun ok => (hno' ok).1) k hk).trans (hb (fun ok => (hno' ok).2) k hk)

/-- An operation that makes no store call keeps every block. -/
theorem keepsBlock_of_image {blk : Word} {s t : State} (hw : s.mem.wf = true → t.mem.wf = true)
    (hn : ∃ after, t.nested = after ++ s.nested) (hi : t.store.image = s.store.image) : KeepsBlock blk s t := by
  obtain ⟨after, hn⟩ := hn
  exact ⟨hw, after, hn, fun _ k _ => by rw [hi]⟩

theorem keepsBlock_fetched (blk : Word) (as : List Word) (c : CallBlock) (s : State) :
    KeepsBlock blk s ((s.afterReads as).latch c) :=
  keepsBlock_of_image (by simp) ⟨_, State.afterReads_nested_eq as s⟩ (by simp)

/-- A WRITE of another block keeps this one; a WRITE of this block is among the accesses. -/
theorem keepsBlock_afterStore (blk b addr : Word) (s : State) : KeepsBlock blk s (s.afterStore b addr) := by
  refine ⟨by simp, .bsWrite b _ :: _, State.afterStore_accesses b addr s, fun hno k hk => State.afterStore_otherBlock ?_⟩
  have hne : b ≠ blk := by
    rintro rfl
    exact hno _ (List.mem_cons_self ..)
  have : b.toNat ≠ blk.toNat := fun e => hne (BitVec.eq_of_toNat_eq e)
  unfold blockSize at hk ⊢
  omega

theorem dispatch_keepsBlock {c : CallBlock} {s t : State} (blk : Word) (h : dispatch c s = .next t) : KeepsBlock blk s t := by
  rcases dispatch_next h with ⟨-, -, rfl⟩ | ⟨-, -, -, rfl⟩ | ⟨-, -, -, rfl⟩ | ⟨-, rfl⟩ | ⟨-, -, rfl⟩ | ⟨-, -, -, rfl⟩
  · exact keepsBlock_of_image id ⟨[_], rfl⟩ rfl
  · refine keepsBlock_of_image (fun hw => ?_) ⟨_, (State.afterCopy_nested ..).trans (List.append_cons ..)⟩ (by simp)
    rw [State.afterCopy_mem]
    exact wf_scatterMem hw
  · exact keepsBlock_afterStore blk c.blk c.addr s
  all_goals exact keepsBlock_of_image id ⟨[], rfl⟩ rfl

theorem exec_keepsBlock {i : Instr} {s t : State} (blk : Word) (h : exec i s = .next t) : KeepsBlock blk s t := by
  rcases instr_cases i with ⟨slot, hs⟩ | ⟨c, hc⟩ | ⟨n, hn⟩ | rfl | rfl | ⟨m, rfl⟩
  · cases ht : isTrigger i with
    | true =>
      rcases exec_trigger_next ht h with ⟨a, rfl⟩ | ⟨as, c, h⟩
      · exact keepsBlock_of_image id ⟨[], rfl⟩ rfl
      · exact (keepsBlock_fetched blk as c s).trans (dispatch_keepsBlock blk h)
    | false =>
      rcases exec_ioPlain_next hs ht h with ⟨-, m, r, n, rfl, -⟩ | ⟨-, ⟨o, rfl⟩ | ⟨o, v, rfl⟩⟩
      · exact keepsBlock_of_image id ⟨[], rfl⟩ rfl
      · exact keepsBlock_of_image id ⟨[], rfl⟩ rfl
      · exact keepsBlock_of_image State.wf_memAfter ⟨[], rfl⟩ rfl
  · exact dispatch_keepsBlock blk (exec_command hc s ▸ h)
  · obtain ⟨d, e, r, -, rfl, -⟩ := exec_nib_next hn h
    exact keepsBlock_of_image id ⟨[], rfl⟩ rfl
  all_goals
    cases h
    exact keepsBlock_of_image id ⟨[], rfl⟩ rfl

theorem execAll_keepsBlock {is : List Instr} {s t : State} (blk : Word) (h : execAll is s = .next t) : KeepsBlock blk s t := by
  induction is generalizing s with
  | nil =>
    cases h
    exact keepsBlock_of_image id ⟨[], rfl⟩ rfl
  | cons i rest ih =>
    obtain ⟨m, hi, hrest⟩ := execAll_cons_next h
    exact (exec_keepsBlock blk hi).trans (ih hrest)

/-- Settles O32: the WRITE leaves the gathered bytes in the block, the operations in between keep them, and the READ copies them. -/
theorem writtenBlockIsReadBack : Obligations.WrittenBlockIsReadBack := by
  intro unit unit' src dest blk between s t u hm hw hro hi hc hplain hf hwrite hrun hno hc' hplain' hf'
  obtain rfl := Host.Outcome.next.inj ((exec_write_clear hro hc unit blk).symm.trans hwrite)
  obtain ⟨hses, -⟩ := exec_keeps hwrite
  obtain ⟨hses', -⟩ := execAll_keeps hrun
  obtain ⟨hmem, after, hn, hbytes⟩ := execAll_keepsBlock blk hrun
  have hcount : blk.toNat < u.store.count.toNat := by rwa [(hses.trans hses').count]
  have hstored : ∀ ok, Access.bsWrite blk ok ∉ after := by
    obtain ⟨after', hn', hno⟩ := hno
    rwa [← List.append_cancel_right (hn'.symm.trans hn)]
  have hread : exec (.read unit' dest blk) u = .next (u.afterCopy blk dest) := by rw [exec_read, State.readBlock_ok hf' hc']
  refine ⟨?_, u.afterCopy blk dest, hread, ?_, fun k hk => ?_⟩
  · rw [State.afterStore_out, hf]
    rfl
  · rw [State.afterCopy_out, noError]
  have hmem : u.mem.wf = true := hmem (by rwa [State.afterStore_mem])
  calc (u.afterCopy blk dest).mem.read (offsetBy dest k).toNat
      = (u.store.block blk).getD k 0 := State.afterCopy_byte hmem hk (hplain' k hk)
    _ = u.store.image.read (blockSize * blk.toNat + k) := BlockStore.getD_block_within hcount hk
    _ = (s.afterStore blk src).store.image.read (blockSize * blk.toNat + k) := hbytes hstored k hk
    _ = s.byteAt (offsetBy src k) (s.draws + k) := State.afterStore_byte hw hf hi hk
    _ = s.mem.read (offsetBy src k).toNat := State.byteAt_plain (hplain k hk) _

end Sys2Proof.Machine
end

section
/-! PROOFS. The invariant (`10_state.md` R24, R25, R27) is kept by every step, and in-contract transactions complete (`20_memory.md`
section 6). -/

namespace Sys2Proof.Machine

/-! ### The invariant along the operations -/

/-- The invariant with a call block latched: all of it but `IDLE`. -/
def State.InvAtPhaseD (s : State) : Prop := ({ s with latched := none } : State).Inv

/-- A state in `IDLE` with the parameters, drives, memory, image and capacity of one that meets the invariant meets it. -/
theorem State.InvAtPhaseD.frame {s t : State} (h : s.InvAtPhaseD) (hcfg : t.cfg = s.cfg) (hdrives : t.drives = s.drives)
    (hmem : t.mem = s.mem) (himage : t.store.image = s.store.image) (hcount : t.store.count = s.store.count)
    (hidle : t.latched = none) : t.Inv := by
  obtain ⟨cfgOk, driveCount, drivesOk, memWf, memWithin, imageWf, imageWithin, -⟩ := h
  constructor <;> simp only [hcfg, hdrives, hmem, himage, hcount, hidle] <;> assumption

theorem State.Inv.atPhaseD {s : State} (h : s.Inv) : s.InvAtPhaseD :=
  ⟨h.cfgOk, h.driveCount, h.drivesOk, h.memWf, h.memWithin, h.imageWf, h.imageWithin, rfl⟩

theorem State.Inv.frame {s t : State} (h : s.Inv) (hcfg : t.cfg = s.cfg) (hdrives : t.drives = s.drives)
    (hmem : t.mem = s.mem) (himage : t.store.image = s.store.image) (hcount : t.store.count = s.store.count)
    (hidle : t.latched = s.latched) : t.Inv :=
  h.atPhaseD.frame hcfg hdrives hmem himage hcount (hidle.trans h.idle)

/-- Codec operations keep the part of the invariant that speaks of the drives. -/
theorem State.InvAtPhaseD.codecRun {s : State} (h : s.InvAtPhaseD) (ops : List CodecOp) :
    (codecRun s.cfg ops s.drives).length = s.cfg.ndrives ∧ ∀ d ∈ codecRun s.cfg ops s.drives, driveOk s.cfg d = true := by
  obtain ⟨-, -, hlen, -⟩ := paramsOk_iff.1 h.cfgOk
  exact ⟨(length_codecRun ..).trans h.driveCount, driveOk_codecRun hlen h.drivesOk⟩

theorem State.InvAtPhaseD.finish {s : State} (h : s.InvAtPhaseD) (code : Byte) : (s.finish code).Inv :=
  h.frame rfl rfl rfl rfl rfl rfl

theorem State.InvAtPhaseD.afterBsRead {s : State} (h : s.InvAtPhaseD) (blk : Word) : (s.afterBsRead blk).InvAtPhaseD :=
  h.frame rfl rfl rfl rfl rfl rfl

theorem State.InvAtPhaseD.afterCopy {s : State} (h : s.InvAtPhaseD) (blk addr : Word) : (s.afterCopy blk addr).Inv := by
  obtain ⟨hcount, hdrives⟩ := h.codecRun (s.shell.take (externalCount s.cfg (bufferAddresses addr 0 blockSize))).flatten
  have hm : (scatterMem s.cfg addr 0 (s.store.block blk) s.mem).wf = true := wf_scatterMem h.memWf
  have hm' : (scatterMem s.cfg addr 0 (s.store.block blk) s.mem).within 65536 = true := within_scatterMem h.memWithin
  exact ⟨by simpa using h.cfgOk, by simpa using hcount, by simpa using hdrives, by simpa using hm, by simpa using hm',
    by simpa using h.imageWf, by simpa using h.imageWithin, by simp⟩

theorem State.InvAtPhaseD.afterStore {s : State} (h : s.InvAtPhaseD) (blk addr : Word) : (s.afterStore blk addr).Inv := by
  obtain ⟨hcount, hdrives⟩ := h.codecRun (s.shell.take (externalCount s.cfg (bufferAddresses addr 0 blockSize))).flatten
  have image : (s.afterStore blk addr).store.image.wf = true ∧
      (s.afterStore blk addr).store.image.within (blockSize * s.store.count.toNat) = true := by
    cases hf : s.store.fails blk with
    | true =>
      rw [State.afterStore_imageFail hf]
      exact ⟨BlockStore.wf_imageAfterFail h.imageWf, BlockStore.within_imageAfterFail h.imageWithin⟩
    | false =>
      rw [State.afterStore_imageOk hf]
      exact ⟨BlockStore.wf_imageWith h.imageWf, BlockStore.within_imageWith h.imageWithin⟩
  exact ⟨by simpa using h.cfgOk, by simpa using hcount, by simpa using hdrives, by simpa using h.memWf,
    by simpa using h.memWithin, image.1, by simpa using image.2, by simp⟩

theorem State.InvAtPhaseD.fetched {s : State} (h : s.InvAtPhaseD) (as : List Word) (c : CallBlock) :
    ((s.afterReads as).latch c).InvAtPhaseD := by
  obtain ⟨hcount, hdrives⟩ := h.codecRun (s.shell.take (externalCount s.cfg as)).flatten
  exact ⟨by simpa using h.cfgOk, by simpa using hcount, by simpa using hdrives, by simpa using h.memWf,
    by simpa using h.memWithin, by simpa using h.imageWf, by simpa using h.imageWithin, rfl⟩

theorem dispatch_inv {c : CallBlock} {s t : State} (hs : s.InvAtPhaseD) (h : dispatch c s = .next t) : t.Inv := by
  rcases dispatch_next h with ⟨-, -, rfl⟩ | ⟨-, -, -, rfl⟩ | ⟨-, -, -, rfl⟩ | ⟨-, rfl⟩ | ⟨-, -, rfl⟩ | ⟨-, -, -, rfl⟩
  · exact (hs.afterBsRead c.blk).finish _
  · exact hs.afterCopy c.blk c.addr
  · exact hs.afterStore c.blk c.addr
  all_goals exact hs.finish _

theorem State.Inv.guestRead {s : State} (h : s.Inv) (a : Word) : (s.guestRead a).Inv :=
  h.frame rfl rfl rfl rfl rfl rfl

theorem State.Inv.guestWrite {s : State} (h : s.Inv) (a : Word) (v : Byte) : (s.guestWrite a v).Inv :=
  ⟨h.cfgOk, h.driveCount, h.drivesOk, State.wf_memAfter h.memWf, State.within_memAfter h.memWithin, h.imageWf, h.imageWithin,
    h.idle⟩

theorem State.Inv.accept {s : State} (h : s.Inv) (rest : List Txn) : (s.accept rest).Inv :=
  h.frame rfl rfl rfl rfl rfl rfl

/-- One drive of the right shape in place of another. -/
theorem State.Inv.setDrive {s : State} (h : s.Inv) (n : Nat) {e : Drive} (he : driveOk s.cfg e = true) : (s.setDrive n e).Inv := by
  refine ⟨h.cfgOk, by simpa using h.driveCount, fun d hd => ?_, h.memWf, h.memWithin, h.imageWf, h.imageWithin, h.idle⟩
  rcases List.mem_or_eq_of_mem_set hd with hd | rfl
  · exact h.drivesOk d hd
  · exact he

theorem State.Inv.reply {s : State} (h : s.Inv) (r : Response) : (s.reply r).Inv :=
  h.frame rfl rfl rfl rfl rfl rfl

theorem State.Inv.driveOk {s : State} (h : s.Inv) {n : Nat} {d : Drive} (hd : s.drives[n]? = some d) :
    Machine.driveOk s.cfg d = true :=
  h.drivesOk d (List.mem_of_getElem? hd)

theorem exec_nib_inv {i : Instr} {n : Nat} {s t : State} (hs : s.Inv) (hn : nibDrive i = some n) (h : exec i s = .next t) :
    t.Inv := by
  obtain ⟨-, -, hlen, -⟩ := paramsOk_iff.1 hs.cfgOk
  cases i <;> simp only [nibDrive, Option.some.injEq, reduceCtorEq] at hn <;> subst hn
  case nread q pad =>
    obtain ⟨d, hd, -, rfl⟩ := execNread_next (pad := pad) h
    exact (hs.setDrive _ (driveOk_advance hlen (hs.driveOk hd))).reply _
  case nwrite q v =>
    obtain ⟨d, hd, -, rfl⟩ := execNwrite_next h
    exact (hs.setDrive _ (driveOk_advance hlen (driveOk_withByte (hs.driveOk hd)))).reply _
  case pwron | pwroff =>
    obtain ⟨d, -, h⟩ := State.onDrive_next h
    cases h
    exact hs.reply _

theorem exec_inv {i : Instr} {s t : State} (hs : s.Inv) (h : exec i s = .next t) : t.Inv := by
  rcases instr_cases i with ⟨slot, hslot⟩ | ⟨c, hc⟩ | ⟨n, hn⟩ | rfl | rfl | ⟨m, rfl⟩
  · cases ht : isTrigger i with
    | true =>
      rcases exec_trigger_next ht h with ⟨a, rfl⟩ | ⟨as, c, h⟩
      · exact hs.guestRead a
      · exact dispatch_inv (hs.atPhaseD.fetched as c) h
    | false =>
      rcases exec_ioPlain_next hslot ht h with ⟨-, m, r, n, rfl, -⟩ | ⟨-, ⟨o, rfl⟩ | ⟨o, v, rfl⟩⟩
      · exact hs.frame rfl rfl rfl rfl rfl rfl
      · exact hs.guestRead _
      · exact hs.guestWrite _ v
  · exact dispatch_inv hs.atPhaseD (exec_command hc s ▸ h)
  · exact exec_nib_inv hs hn h
  · cases h
    exact ⟨hs.cfgOk, by simp [freshDrives], driveOk_freshDrives hs.cfgOk, hs.memWf, hs.memWithin, hs.imageWf, hs.imageWithin, rfl⟩
  · cases h
    exact hs.reply _
  · cases h
    exact hs.frame rfl rfl rfl rfl rfl rfl

/-- Settles O14: from `IDLE` a step takes the next transaction, and `exec_inv` or a guest access follows. -/
theorem everyStepKeepsTheInvariant : Obligations.EveryStepKeepsTheInvariant := by
  intro s t hs h
  rcases step_next h with ⟨c, hl, -⟩ | ⟨-, -, rfl⟩ | ⟨-, x, rest, -, ⟨i, -, h⟩ | ⟨a, -, rfl⟩ | ⟨a, v, -, rfl⟩⟩
  · cases hs.idle.symm.trans hl
  · exact hs
  · exact exec_inv (hs.accept rest) h
  · exact (hs.accept rest).guestRead a
  · exact (hs.accept rest).guestWrite a v

/-! ### In contract -/

/-- Only the parameters, the store and the shell decide whether a command is in contract. -/
theorem commandClear_congr {c : CallBlock} {s t : State} (hc : t.cfg = s.cfg) (hst : t.store = s.store)
    (hs : t.shell = s.shell) : commandClear c t ↔ commandClear c s := by
  have buffer (a : Word) : t.bufferClear a ↔ s.bufferClear a := State.accessesClear_congr hc hs _
  simp only [commandClear, hst, buffer]

/-- Taking the transaction does not change what is in contract. -/
theorem State.inContract_accept {s : State} {i : Instr} (h : s.inContract i) (rest : List Txn) : (s.accept rest).inContract i := by
  have clear (as : List Word) : (s.accept rest).accessesClear as ↔ s.accessesClear as := State.accessesClear_congr rfl rfl as
  have command (c : CallBlock) (as : List Word) :
      commandClear c ((s.accept rest).afterReads as) ↔ commandClear c (s.afterReads as) :=
    commandClear_congr (by simp) (by simp) (by simp)
  obtain ⟨hwf, h⟩ := h
  refine ⟨hwf, ?_⟩
  cases i
  case rd0CmdDirect slot => exact fun hs => ⟨(clear _).2 (h hs).1, (command _ _).2 (h hs).2⟩
  case rd3CmdIndirect slot => exact fun hs => ⟨(clear _).2 (h hs).1, (command _ _).2 (h hs).2⟩
  all_goals exact h

theorem commandClear_of_inContract {i : Instr} {c : CallBlock} {s : State} (hc : encode i = .cmd c) (h : s.inContract i) :
    commandClear c s := by
  obtain ⟨-, h⟩ := h
  rw [instr_of_command hc] at h
  constructor <;> intro hcmd
  · rw [decodeCommand_read hcmd] at h
    exact h
  · rw [decodeCommand_write hcmd] at h
    exact h

theorem exec_trigger_complete {i : Instr} {s : State} (ht : isTrigger i = true) (h : s.inContract i) :
    ∃ t, exec i s = .next t := by
  obtain ⟨-, h⟩ := h
  cases i <;> simp only [isTrigger, Bool.false_eq_true] at ht
  case rd0CmdDirect slot =>
    by_cases hs : slot = s.cfg.slot
    · subst hs
      exact exec_rd0_complete (h rfl).1 (h rfl).2
    · exact ⟨_, exec_decodeRead_other hs 0⟩
  case rd3CmdIndirect slot =>
    by_cases hs : slot = s.cfg.slot
    · subst hs
      exact exec_rd3_complete (h rfl).1 (h rfl).2
    · exact ⟨_, exec_decodeRead_other hs 3⟩

theorem exec_ioPlain_complete {i : Instr} {slot : BitVec 3} (hs : ioSlot i = some slot) (ht : isTrigger i = false) (s : State) :
    ∃ t, exec i s = .next t := by
  by_cases hslot : slot = s.cfg.slot
  · obtain ⟨m, r, n, hx, -⟩ := exec_ioPlain (s := s) (hslot ▸ hs) ht
    exact ⟨_, hx⟩
  · rcases exec_otherSlot hs with ⟨o, hx⟩ | ⟨o, v, hx⟩
    · exact ⟨_, hx s hslot⟩
    · exact ⟨_, hx s hslot⟩

theorem exec_nib_complete {i : Instr} {n : Nat} {s : State} (hd : s.drives.length = s.cfg.ndrives) (hn : nibDrive i = some n)
    (hw : i.wf s.cfg = true) : ∃ t, exec i s = .next t := by
  have drive (h : n < s.cfg.ndrives) : s.drives[n]? = some (s.drives[n]'(hd ▸ h)) := List.getElem?_eq_getElem (hd ▸ h)
  cases i <;> simp only [nibDrive, Option.some.injEq, reduceCtorEq] at hn <;> subst hn <;>
    simp only [Instr.wf, Params.hasDrive, Params.hasQuarterTrack, Bool.and_eq_true, decide_eq_true_eq] at hw
  case nread q pad => exact ⟨_, exec_nread (drive hw.1) (quarterTrackOut_false hw.2) pad⟩
  case nwrite q v => exact ⟨_, exec_nwrite (drive hw.1) (quarterTrackOut_false hw.2) v⟩
  case pwron q pad => exact ⟨_, exec_pwron (drive hw) q pad⟩
  case pwroff q pad => exact ⟨_, exec_pwroff (drive hw) q pad⟩

theorem exec_complete {i : Instr} {s : State} (hd : s.drives.length = s.cfg.ndrives) (h : s.inContract i) :
    ∃ t, exec i s = .next t := by
  rcases instr_cases i with ⟨slot, hs⟩ | ⟨c, hc⟩ | ⟨n, hn⟩ | rfl | rfl | ⟨m, rfl⟩
  · cases ht : isTrigger i with
    | true => exact exec_trigger_complete ht h
    | false => exact exec_ioPlain_complete hs ht s
  · rw [exec_command hc]
    exact dispatch_clear (commandClear_of_inContract hc h)
  · exact exec_nib_complete hd hn h.1
  all_goals exact ⟨_, rfl⟩

/-- Settles O59: `exec_complete` in the state that has taken the transaction. -/
theorem inContractTransactionsComplete : Obligations.InContractTransactionsComplete := by
  intro s x rest i hs hi hd h
  rw [SafeStep, step_port hs.idle hi hd]
  exact exec_complete hs.driveCount (State.inContract_accept h rest)

end Sys2Proof.Machine
end

section
/-! PROOFS. What an operation depends on: not on the transactions that wait (`20_memory.md` R69), on `MLI` only where it reads it
(`10_state.md` R21), and an I/O access on nothing of the codec (`44_host_hooks.md` R190). -/

namespace Sys2Proof.Machine

/-- What SPD sees besides `MLI` is the same: the parameters, guest memory, the store, the draws and the shell's work. -/
structure SameView (s s' : State) : Prop where
  cfg   : s'.cfg = s.cfg
  mem   : s'.mem = s.mem
  store : s'.store = s.store
  draws : s'.draws = s.draws
  shell : s'.shell = s.shell

theorem SameView.slot {s s' : State} (h : SameView s s') : s.cfg.slot = s'.cfg.slot := by rw [h.cfg]

/-! ### I/O accesses other than the trigger reads -/

/-- In every state with the view of `s`, the operation applies `g` to `MLI`, answers `r` and leaves draw number `n`. -/
def Determined (i : Instr) (s : State) (g : Word → Word) (r : Response) (n : Nat) : Prop :=
  ∀ s', SameView s s' → exec i s' = .next { s' with mli := g s'.mli, out := r, draws := n }

theorem determined_absentRead (s : State) {o : BitVec 4} (ho : 4 ≤ o.toNat) :
    Determined (decodeRead s.cfg.slot o) s id (.byte (Config.draw8 s.draws)) (s.draws + 1) := by
  intro s' h
  rw [exec_decodeRead_absent h.slot ho, State.openBusRead, h.draws]
  rfl

theorem determined_ignoredWrite (s : State) {o : BitVec 4} (h4 : o ≠ 4) (h5 : o ≠ 5) (v : Byte) :
    Determined (decodeWrite s.cfg.slot o v) s id .silent s.draws := by
  intro s' h
  rw [exec_decodeWrite_absent h.slot h4 h5, ← h.draws]
  rfl

theorem determined_rd1CapLo (s : State) :
    Determined (.rd1CapLo s.cfg.slot) s id (.byte (lowByte s.store.count)) s.draws := by
  intro s' h
  rw [h.slot, exec_rd1CapLo_own, ← h.store, ← h.draws]
  rfl

theorem determined_rd2CapHi (s : State) :
    Determined (.rd2CapHi s.cfg.slot) s id (.byte (highByte s.store.count)) s.draws := by
  intro s' h
  rw [h.slot, exec_rd2CapHi_own, ← h.store, ← h.draws]
  rfl

theorem determined_wr4MliLo (s : State) (v : Byte) :
    Determined (.wr4MliLo s.cfg.slot v) s (fun m => joinBytes (highByte m) v) .silent s.draws := by
  intro s' h
  rw [exec_wr4MliLo_own h.slot, ← h.draws]
  rfl

theorem determined_wr5MliHi (s : State) (v : Byte) :
    Determined (.wr5MliHi s.cfg.slot v) s (fun m => joinBytes v (lowByte m)) .silent s.draws := by
  intro s' h
  rw [exec_wr5MliHi_own h.slot, ← h.draws]
  rfl

/-- Every such access at the card is determined so, and it writes `MLI` exactly if it keeps a half of it. -/
theorem exec_ioPlain_determined {i : Instr} {s : State} (h : ioSlot i = some s.cfg.slot) (ht : isTrigger i = false) :
    ∃ g r n, Determined i s g r n ∧ (readsMli i = false → g = id) := by
  rcases ioAccess_cases h with ⟨o, rfl⟩ | ⟨o, v, rfl⟩
  · by_cases ho : 4 ≤ o.toNat
    · exact ⟨_, _, _, determined_absentRead s ho, fun _ => rfl⟩
    · obtain rfl | rfl | rfl | rfl : o = 0 ∨ o = 1 ∨ o = 2 ∨ o = 3 := by bv_omega
      · cases ht
      · exact ⟨_, _, _, determined_rd1CapLo s, fun _ => rfl⟩
      · exact ⟨_, _, _, determined_rd2CapHi s, fun _ => rfl⟩
      · cases ht
  · by_cases h4 : o = 4
    · subst h4
      exact ⟨_, _, _, determined_wr4MliLo s v, fun hm => by cases hm⟩
    by_cases h5 : o = 5
    · subst h5
      exact ⟨_, _, _, determined_wr5MliHi s v, fun hm => by cases hm⟩
    · exact ⟨_, _, _, determined_ignoredWrite s h4 h5 v, fun _ => rfl⟩

/-- An I/O access that writes `MLI` keeps a half of it (R113, R114). -/
theorem readsMli_of_ioAccess {i : Instr} {slot : BitVec 3} (h : ioSlot i = some slot) (hw : writesMli i = true) :
    readsMli i = true := by
  cases i <;> simp only [ioSlot, writesMli, reduceCtorEq, Bool.false_eq_true] at h hw <;> rfl

theorem writesMli_of_ioPlain {i : Instr} {slot : BitVec 3} (h : ioSlot i = some slot) (ht : isTrigger i = false)
    (hr : readsMli i = true) : writesMli i = true := by
  cases i <;> simp only [ioSlot, isTrigger, readsMli, reduceCtorEq, Bool.false_eq_true, Bool.true_eq_false] at h ht hr <;> rfl

theorem writesMli_of_trigger {i : Instr} (h : isTrigger i = true) : writesMli i = false := by
  cases i <;> cases h <;> rfl

theorem writesMli_of_command {i : Instr} {c : CallBlock} (h : encode i = .cmd c) : writesMli i = false := by
  cases i <;> cases h <;> rfl

theorem writesMli_of_nib {i : Instr} {n : Nat} (h : nibDrive i = some n) : writesMli i = false := by
  cases i <;> cases h <;> rfl

/-! ### Trigger reads and commands -/

/-- What SPD does from `s` to `t` it does from `s'` too: the same answer, the same accesses after those before it, and the same codec
operations. -/
def GoesOnAlike (i : Instr) (s s' t : State) : Prop :=
  t.latched = none ∧ ∃ after ops, t.nested = after ++ s.nested ∧ t.drives = codecRun s.cfg ops s.drives ∧
    exec i s' = .next { s' with
      out := t.out, mem := t.mem, store := t.store, draws := t.draws, latched := none, nested := after ++ s'.nested,
      drives := codecRun s.cfg ops s'.drives, shell := t.shell }

theorem command_goesOnAlike {i : Instr} {c : CallBlock} {s s' t : State} (hc : encode i = .cmd c) (hv : SameView s s')
    (h : exec i s = .next t) : GoesOnAlike i s s' t := by
  rw [exec_command hc] at h
  rw [GoesOnAlike, exec_command hc]
  exact ⟨(dispatch_result h).2, dispatch_congr hv.cfg hv.mem hv.store hv.draws hv.shell h⟩

/-- A trigger read of the card, where `MLI` is the same too if it is the indirect entry. -/
theorem trigger_goesOnAlike {i : Instr} {s s' t : State} (ht : isTrigger i = true) (hown : ioSlot i = some s.cfg.slot)
    (hv : SameView s s') (hm : readsMli i = true → s'.mli = s.mli) (h : exec i s = .next t) : GoesOnAlike i s s' t := by
  obtain ⟨hc, hmem, hst, hd, hsh⟩ := hv
  cases i <;> simp only [isTrigger, Bool.false_eq_true] at ht <;> cases hown
  case rd0CmdDirect =>
    obtain ⟨hclear, hx⟩ := exec_rd0_next h
    have hclear' : s'.accessesClear (directAddresses s'.cfg) := hc.symm ▸ (State.accessesClear_congr hc hsh _).2 hclear
    have hx' := exec_rd0_clear hclear'
    rw [State.directBlock_congr hc hmem hd, hc] at hx'
    rw [GoesOnAlike, hx']
    exact ⟨(exec_rd0_result h).2, dispatch_afterReads_congr hc hmem hst hd hsh hx⟩
  case rd3CmdIndirect =>
    have hm := hm rfl
    obtain ⟨hclear, hx⟩ := exec_rd3_next h
    have haddr := State.indirectAddresses_congr hc hmem hd hm
    have hx' := exec_rd3_clear (haddr.symm ▸ (State.accessesClear_congr hc hsh _).2 hclear)
    rw [State.indirectBlock_congr hc hmem hd hm, haddr, hc] at hx'
    rw [GoesOnAlike, hx']
    exact ⟨(exec_rd3_result h).2, dispatch_afterReads_congr hc hmem hst hd hsh hx⟩

/-! ### `MLI` and the waiting transactions -/

/-- `s` with another `MLI` and other transactions waiting. -/
def State.withHidden (m : Word) (later : List Txn) (s : State) : State := { s with mli := m, input := later }

theorem sameView_refl (s : State) : SameView s s := ⟨rfl, rfl, rfl, rfl, rfl⟩

theorem sameView_withHidden (m : Word) (later : List Txn) (s : State) : SameView s (s.withHidden m later) :=
  ⟨rfl, rfl, rfl, rfl, rfl⟩

theorem GoesOnAlike.withHidden {i : Instr} {s t : State} {m : Word} {later : List Txn}
    (h : GoesOnAlike i s (s.withHidden m later) t) (hc : t.cfg = s.cfg) :
    exec i (s.withHidden m later) = .next (t.withHidden m later) := by
  obtain ⟨hl, after, ops, hn, hd, hx⟩ := h
  rw [hx]
  simp only [State.withHidden, hn, hd, hc, hl]

/-- An operation goes on alike with another `MLI`, the same if it reads it, and with other transactions waiting; it leaves `MLI` as
it writes it, or as it is. -/
theorem exec_withHidden {i : Instr} {s t : State} {m : Word} (hm : readsMli i = true → m = s.mli) (later : List Txn)
    (h : exec i s = .next t) :
    exec i (s.withHidden m later) = .next (t.withHidden (if writesMli i then t.mli else m) later) := by
  rcases instr_cases i with ⟨slot, hs⟩ | ⟨c, hc⟩ | ⟨n, hn⟩ | rfl | rfl | ⟨n, rfl⟩
  · by_cases hslot : slot = s.cfg.slot
    · subst hslot
      cases ht : isTrigger i with
      | true =>
        rw [writesMli_of_trigger ht]
        exact (trigger_goesOnAlike ht hs (sameView_withHidden m later s) hm h).withHidden (exec_keeps h).1.cfg
      | false =>
        obtain ⟨g, r, n, hdet, hg⟩ := exec_ioPlain_determined hs ht
        obtain rfl := Host.Outcome.next.inj (h.symm.trans (hdet s (sameView_refl s)))
        have hmli : g m = if writesMli i then g s.mli else m := by
          cases hr : readsMli i with
          | true => rw [if_pos (writesMli_of_ioPlain hs ht hr), hm hr]
          | false =>
            have hw : ¬ writesMli i = true := fun hw => by simp [readsMli_of_ioAccess hs hw] at hr
            rw [if_neg hw, hg hr, id]
        rw [hdet _ (sameView_withHidden m later s), ← hmli]
        rfl
    · have hmli : (if writesMli i then s.mli else m) = m := by
        split
        · next hw => exact (hm (readsMli_of_ioAccess hs hw)).symm
        · rfl
      rcases exec_otherSlot hs with ⟨o, e⟩ | ⟨o, v, e⟩
      · obtain rfl := Host.Outcome.next.inj (h.symm.trans (e s hslot))
        rw [e (s.withHidden m later) hslot, State.guestRead_mli, hmli]
        rfl
      · obtain rfl := Host.Outcome.next.inj (h.symm.trans (e s hslot))
        rw [e (s.withHidden m later) hslot, State.guestWrite_mli, hmli]
        rfl
  · rw [writesMli_of_command hc]
    exact (command_goesOnAlike hc (sameView_withHidden m later s) h).withHidden (exec_keeps h).1.cfg
  · obtain ⟨d, -, -, hd, -⟩ := exec_nib_next hn h
    obtain ⟨e, r, det⟩ := exec_nib_determined hn hd h
    obtain rfl := Host.Outcome.next.inj (h.symm.trans (det s rfl hd))
    rw [det (s.withHidden m later) rfl hd, writesMli_of_nib hn]
    rfl
  · cases h
    rfl
  · cases hm rfl
    cases h
    rfl
  · cases h
    rfl

theorem exec_input {i : Instr} {s t : State} (h : exec i s = .next t) : t.input = s.input := by
  have hx : exec i s = .next (t.withHidden _ s.input) := exec_withHidden (m := s.mli) (fun _ => rfl) s.input h
  rw [Host.Outcome.next.inj (h.symm.trans hx)]
  rfl

theorem step_input {s t : State} {x : Txn} {rest : List Txn} (hl : s.latched = none) (hi : s.input = x :: rest)
    (h : step s = .next t) : t.input = rest := by
  rcases step_next h with ⟨c, hc, -⟩ | ⟨-, hi', -⟩ | ⟨-, y, rest', hi', hx⟩
  · cases hl.symm.trans hc
  · cases hi.symm.trans hi'
  · cases hi.symm.trans hi'
    rcases hx with ⟨i, -, hx⟩ | ⟨a, -, rfl⟩ | ⟨a, v, -, rfl⟩
    · exact exec_input hx
    · rfl
    · rfl

/-- Settles O9: `exec_withHidden` with `MLI` as it is. -/
theorem transactionsAreTakenInOrder : Obligations.TransactionsAreTakenInOrder := by
  refine ⟨fun s t x rest => step_input, fun i s t later h => ?_⟩
  have hx := exec_withHidden (m := s.mli) (fun _ => rfl) later h
  have hmli : (if writesMli i then t.mli else s.mli) = t.mli := by
    split
    · rfl
    · next hw => exact ((exec_keeps h).2 (by simpa using hw)).symm
  rw [hmli] at hx
  exact hx

/-- Settles O54: `exec_withHidden` with the waiting transactions as they are. -/
theorem mliIsHiddenFromOtherOperations : Obligations.MliIsHiddenFromOtherOperations := by
  intro i s t m hr h
  have hx := exec_withHidden (m := m) (fun hr' => by rw [hr] at hr'; cases hr') s.input h
  have hidden (x : Word) : t.withHidden x s.input = { t with mli := x } := by rw [State.withHidden, exec_input h]
  rw [hidden] at hx
  exact hx

/-! ### Tracks and cursors -/

/-- Settles O58: at the card by `trigger_goesOnAlike` or `exec_ioPlain_determined`, elsewhere as guest memory answers. -/
theorem spdDependsOnMliMemoryAndStoreOnly : Obligations.SpdDependsOnMliMemoryAndStoreOnly := by
  intro i s s' t hio hc hmli hmem hst hd hsh h
  obtain ⟨slot, hs⟩ := Option.isSome_iff_exists.1 hio
  have hv : SameView s s' := ⟨hc, hmem, hst, hd, hsh⟩
  by_cases hslot : slot = s.cfg.slot
  · subst hslot
    cases ht : isTrigger i with
    | true =>
      obtain ⟨-, after, ops, hn, -, hx⟩ := trigger_goesOnAlike ht hs hv (fun _ => hmli) h
      exact ⟨_, hx, rfl, hmli.trans (exec_trigger_keeps ht h).2.symm, rfl, rfl, rfl, rfl, after, hn, rfl⟩
    | false =>
      obtain ⟨g, r, n, hdet, -⟩ := exec_ioPlain_determined hs ht
      obtain rfl := Host.Outcome.next.inj (h.symm.trans (hdet s (sameView_refl s)))
      exact ⟨_, hdet s' hv, rfl, congrArg g hmli, hmem, hst, rfl, hsh, [], rfl, rfl⟩
  · have hslot' : slot ≠ s'.cfg.slot := by rwa [hc]
    rcases exec_otherSlot hs with ⟨o, e⟩ | ⟨o, v, e⟩
    · obtain rfl := Host.Outcome.next.inj (h.symm.trans (e s hslot))
      refine ⟨_, e s' hslot', ?_, hmli, hmem, hst, congrArg (· + 1) hd, hsh, [], rfl, rfl⟩
      rw [State.guestRead_out, State.guestRead_out, State.byteAt_congr hc hmem, hd]
    · obtain rfl := Host.Outcome.next.inj (h.symm.trans (e s hslot))
      refine ⟨_, e s' hslot', rfl, hmli, ?_, hst, hd, hsh, [], rfl, rfl⟩
      rw [State.guestWrite_mem, State.guestWrite_mem, State.memAfter, State.memAfter, hc, hmem]

end Sys2Proof.Machine
end

section
/-! PROOFS. `41_command_dispatch.md` R142: one call has one outcome through either entry. After the fetches the two states agree on the
parameters, guest memory and the store, and differ in the draws and in the shell's work. -/

namespace Sys2Proof.Machine

/-- What two fetches of one call leave alike, with a codec client that is in contract on both sides (R246). -/
structure SameCall (s s' : State) : Prop where
  cfg     : s'.cfg = s.cfg
  mem     : s'.mem = s.mem
  store   : s'.store = s.store
  inRange : ∀ ops, ops ∈ s.shell ∨ ops ∈ s'.shell → firstOutOfRange s.cfg ops = none

theorem SameCall.symm {s s' : State} (h : SameCall s s') : SameCall s' s :=
  ⟨h.cfg.symm, h.mem.symm, h.store.symm, fun ops ho => h.cfg ▸ h.inRange ops ho.symm⟩

/-- With all of the shell's work in range, only the card's own page can stop an access. -/
theorem SameCall.accessesClear {s s' : State} (h : SameCall s s') {as : List Word} (ha : addressesClear s.cfg as) :
    s.accessesClear as ∧ s'.accessesClear as := by
  refine ⟨⟨ha, fun ops ho => h.inRange ops (.inl (List.mem_of_mem_take ho))⟩, ⟨h.cfg ▸ ha, fun ops ho => ?_⟩⟩
  rw [h.cfg]
  exact h.inRange ops (.inr (List.mem_of_mem_take ho))

/-- A buffer is clear of the card's page, or reaches it first at some offset. -/
theorem buffer_clear_or_first (p : Params) (addr : Word) (n : Nat) : addressesClear p (bufferAddresses addr 0 n) ∨
    ∃ k < n, ownPage p (offsetBy addr k) = true ∧ addressesClear p (bufferAddresses addr 0 k) := by
  induction n with
  | zero => exact .inl (by simp [addressesClear, bufferAddresses])
  | succ n ih =>
    rcases ih with hclear | ⟨k, hk, hown⟩
    · cases hn : ownPage p (offsetBy addr n) with
      | true => exact .inr ⟨n, by omega, hn, hclear⟩
      | false =>
        refine .inl fun a ha => ?_
        obtain ⟨j, hj, rfl⟩ := mem_bufferAddresses.1 ha
        rcases Nat.lt_succ_iff_lt_or_eq.1 hj with hj | rfl
        · exact hclear _ (mem_bufferAddresses.2 ⟨j, hj, rfl⟩)
        · exact hn
    · exact .inr ⟨k, by omega, hown⟩

/-- The outcomes of one call through either entry: a fault at one address, or the same answer, memory, store and accesses after those
of the fetches. -/
def SameOutcome (s s' : State) (r r' : Host.Outcome State Fault Refusal) : Prop :=
  (∃ a l l', r = .fault (.reentrancyViolation a l) ∧ r' = .fault (.reentrancyViolation a l')) ∨
    ∃ t t' after, r = .next t ∧ r' = .next t' ∧ t'.out = t.out ∧ t'.mem = t.mem ∧ t'.store = t.store ∧
      t.nested = after ++ s.nested ∧ t'.nested = after ++ s'.nested

/-- A command that only reports a code. -/
theorem SameCall.finish {s s' : State} (h : SameCall s s') (code : Byte) :
    SameOutcome s s' (.next (s.finish code)) (.next (s'.finish code)) :=
  .inr ⟨_, _, [], rfl, rfl, rfl, h.mem, h.store, rfl, rfl⟩

theorem SameCall.readBlock {s s' : State} (h : SameCall s s') (blk addr : Word) :
    SameOutcome s s' (s.readBlock blk addr) (s'.readBlock blk addr) := by
  cases hf : s.store.fails blk with
  | true =>
    rw [State.readBlock_fail hf, State.readBlock_fail (by rwa [h.store])]
    refine .inr ⟨_, _, [.bsRead blk (!s.store.fails blk)], rfl, rfl, rfl, h.mem, ?_, rfl, ?_⟩
    · simp [h.store]
    · simp [h.store]
  | false =>
    have hf' : s'.store.fails blk = false := by rwa [h.store]
    rcases buffer_clear_or_first s.cfg addr blockSize with hclear | ⟨k, hk, hown, hclear⟩
    · obtain ⟨hc, hc'⟩ := h.accessesClear hclear
      rw [State.readBlock_ok hf hc, State.readBlock_ok hf' hc']
      refine .inr ⟨_, _, scatterAccesses addr 0 (s.store.block blk) ++ [.bsRead blk (!s.store.fails blk)],
        rfl, rfl, ?_, ?_, ?_, ?_, ?_⟩
      all_goals simp [h.store, h.mem, h.cfg]
    · obtain ⟨hc, hc'⟩ := h.accessesClear hclear
      exact .inl ⟨_, _, _, State.readBlock_own hf hk hc hown, State.readBlock_own hf' hk hc' (h.cfg ▸ hown)⟩

/-- A buffer in plain RAM answers its bytes, whatever the draws. -/
theorem State.byteAt_bufferPlain {s : State} {addr : Word} (hp : bufferPlain s.cfg addr) {k : Nat} (hk : k < blockSize)
    (n : Nat) : s.byteAt (offsetBy addr k) n = s.mem.read (offsetBy addr k).toNat :=
  State.byteAt_plain (hp k hk) n

theorem State.gathered_plain {s : State} {addr : Word} (hp : bufferPlain s.cfg addr) :
    s.gathered addr 0 blockSize = (List.range blockSize).map fun k => s.mem.read (offsetBy addr k).toNat := by
  refine List.map_congr_left fun k hk => ?_
  rw [Nat.zero_add]
  exact State.byteAt_bufferPlain hp (List.mem_range.1 hk) _

/-- The accesses of a WRITE from plain RAM: its reads, and then the store call. -/
theorem State.afterStore_accesses_plain {s : State} {addr : Word} (hp : bufferPlain s.cfg addr) (blk : Word) :
    (s.afterStore blk addr).nested = .bsWrite blk (!s.store.fails blk) :: ((List.range blockSize).map fun k =>
      Access.memRead (offsetBy addr k) (s.mem.read (offsetBy addr k).toNat)).reverse ++ s.nested := by
  rw [State.afterStore_accesses, List.cons_append, List.map_congr_left fun k hk => ?_]
  rw [State.byteAt_bufferPlain hp (List.mem_range.1 hk)]

theorem SameCall.writeBlock {s s' : State} (h : SameCall s s') (blk : Word) {addr : Word} (hp : bufferPlain s.cfg addr) :
    SameOutcome s s' (s.writeBlock blk addr) (s'.writeBlock blk addr) := by
  cases hro : s.store.ro with
  | true =>
    rw [State.writeBlock_protected hro, State.writeBlock_protected (by rwa [h.store])]
    exact h.finish _
  | false =>
    have hro' : s'.store.ro = false := by rwa [h.store]
    have hp' : bufferPlain s'.cfg addr := h.cfg ▸ hp
    rcases buffer_clear_or_first s.cfg addr blockSize with hclear | ⟨k, hk, hown, hclear⟩
    · obtain ⟨hc, hc'⟩ := h.accessesClear hclear
      rw [State.writeBlock_clear hro hc, State.writeBlock_clear hro' hc']
      refine .inr ⟨_, _, _, rfl, rfl, ?_, ?_, ?_, State.afterStore_accesses_plain hp blk, ?_⟩
      · simp [h.store]
      · simp [h.mem]
      · rw [State.afterStore_store, State.afterStore_store, State.gathered_plain hp, State.gathered_plain hp', h.store, h.mem]
      · rw [State.afterStore_accesses_plain hp', h.store, h.mem]
    · obtain ⟨hc, hc'⟩ := h.accessesClear hclear
      exact .inl ⟨_, _, _, State.writeBlock_own hro hk hc hown, State.writeBlock_own hro' hk hc' (h.cfg ▸ hown)⟩

/-- One command from two such states. -/
theorem SameCall.dispatch {s s' : State} (h : SameCall s s') {c : CallBlock} (hp : c.cmd = 0x02 → bufferPlain s.cfg c.addr) :
    SameOutcome s s' (dispatch c s) (dispatch c s') := by
  by_cases h0 : c.cmd = 0x00
  · rw [dispatch_status h0, dispatch_status h0]
    exact h.finish _
  by_cases h1 : c.cmd = 0x01
  · rw [dispatch_read h1, dispatch_read h1]
    exact h.readBlock c.blk c.addr
  by_cases h2 : c.cmd = 0x02
  · rw [dispatch_write h2, dispatch_write h2]
    exact h.writeBlock c.blk (hp h2)
  · rw [dispatch_other h0 h1 h2, dispatch_other h0 h1 h2]
    exact h.finish _

/-- The unit takes no part (R143): call blocks that differ in it alone are the same command. -/
theorem dispatch_eq_of_unit {c c' : CallBlock} (hcmd : c'.cmd = c.cmd) (haddr : c'.addr = c.addr) (hblk : c'.blk = c.blk)
    (s : State) :
    dispatch c' s = dispatch c s := by
  obtain ⟨cmd, unit, addr, blk⟩ := c
  obtain ⟨cmd', unit', addr', blk'⟩ := c'
  cases hcmd
  cases haddr
  cases hblk
  exact (dispatchRoutesOnTheCommandByte ⟨cmd, unit, addr, blk⟩ s).2.2 unit'

theorem SameCall.fetched {s s' : State} (h : SameCall s s') (as as' : List Word) (c c' : CallBlock) :
    SameCall ((s.afterReads as).latch c) ((s'.afterReads as').latch c') := by
  refine ⟨by simp [h.cfg], by simp [h.mem], by simp [h.store], fun ops ho => ?_⟩
  simp only [State.latch_shell, State.afterReads_shell] at ho
  simpa using h.inRange ops (ho.imp List.mem_of_mem_drop List.mem_of_mem_drop)

/-- Settles O40: both fetches complete, and one command runs from the two states they leave (`SameCall.dispatch`). -/
theorem bothEntriesGiveTheSameOutcome : Obligations.BothEntriesGiveTheSameOutcome := by
  intro s s' hcfg hmem hstore hdirect hindirect hrange hcmd haddr hblk hplain
  have h : SameCall s s' := ⟨hcfg, hmem, hstore, hrange⟩
  rw [exec_rd0_clear (h.accessesClear hdirect).1, ← hcfg, exec_rd3_clear (h.symm.accessesClear hindirect).1,
    dispatch_eq_of_unit hcmd haddr hblk]
  have hc := h.fetched (directAddresses s.cfg) s'.indirectAddresses s.directBlock s'.indirectBlock
  rw [hcfg]
  exact hc.dispatch (by simpa using hplain)

end Sys2Proof.Machine
end
